-- ==== Sys2Proof/Word.lean ====
section
/-! DEFINITION. The widths of R8 and R22, and the small vocabulary that syntax, decoder and state share: the phase, the role
of a byte in a frame, and the one reason a byte can have no decoding. -/

namespace Sys2Proof

/-- Every wire element is one byte (R8). -/
abbrev Byte := BitVec 8
/-- The 16-bit constants of R6. -/
abbrev U16 := BitVec 16
/-- The SPI lengths (R8). -/
abbrev U24 := BitVec 24
/-- Frequencies, the drop counter and the byte counter (R8, R24, R33). -/
abbrev U32 := BitVec 32
/-- Milliseconds (R34, R181). -/
abbrev U64 := BitVec 64

/-- `PHASE` (R31): what the next byte is. -/
inductive Phase where
  | awaitCommand
  | awaitData
  deriving DecidableEq, Repr, Inhabited

/-- The encoding of `PHASE` (R31): AwaitCommand is 0, AwaitData is 1. -/
def Phase.bit : Phase → BitVec 1
  | .awaitCommand => 0#1
  | .awaitData => 1#1

/-- The role a byte plays in the frame of a deferred command (R73, R75): the command byte that dispatches it, or one data
byte. -/
inductive FramePart where
  | code
  | data (b : Byte)
  deriving DecidableEq, Repr, Inhabited

/-- Why a byte has no decoding. No command byte is ever rejected (R84) and no data byte is (R85): the decoder stops only where
its mode is not one the block can be in (R48 iv). -/
inductive DecodeReject where
  /-- `PHASE` is AwaitData and `ACTIVE_CMD` holds no deferred command's code. -/
  | activeCmdNotDeferred (active : Byte)
  deriving DecidableEq, Repr

end Sys2Proof
end

