-- ==== Sys2Proof/Config.lean ====
section
/-! DEFINITION. The parameters of R6 with their constraints (R7), the values State.reset gives them, the environment's events
(R20, R21) with the values they draw, and the free values: constants without a body, of which nothing can be proved. -/

namespace Sys2Proof

/-- `CMD_CODE` (R6, R77): the code byte of each command of the supported set (R78). -/
structure CmdCodes where
  nop : Byte
  qIface : Byte
  qCmdmap : Byte
  qPgmname : Byte
  qSerbuf : Byte
  qBustype : Byte
  qOpbuf : Byte
  qWrnmaxlen : Byte
  syncnop : Byte
  qRdnmaxlen : Byte
  sBustype : Byte
  oSpiop : Byte
  sSpiFreq : Byte
  deriving DecidableEq, Repr

/-- The default codes of R77. PRESUMED by the spec itself ("from general knowledge, not in source"), log entry 5. -/
def CmdCodes.serprog : CmdCodes where
  nop := 0x00#8
  qIface := 0x01#8
  qCmdmap := 0x02#8
  qPgmname := 0x03#8
  qSerbuf := 0x04#8
  qBustype := 0x05#8
  qOpbuf := 0x07#8
  qWrnmaxlen := 0x08#8
  syncnop := 0x10#8
  qRdnmaxlen := 0x11#8
  sBustype := 0x12#8
  oSpiop := 0x13#8
  sSpiFreq := 0x14#8

/-- The supported set of R78, in the order of R77's table. -/
def CmdCodes.supported (cc : CmdCodes) : List Byte :=
  [cc.nop, cc.qIface, cc.qCmdmap, cc.qPgmname, cc.qSerbuf, cc.qBustype, cc.qOpbuf, cc.qWrnmaxlen, cc.syncnop,
    cc.qRdnmaxlen, cc.sBustype, cc.oSpiop, cc.sSpiFreq]

/-- The three commands that enter a data phase (R16, R119). -/
def CmdCodes.deferred (cc : CmdCodes) : List Byte := [cc.sBustype, cc.oSpiop, cc.sSpiFreq]

/-- `SPI_MODE` (R6, R57): clock polarity, clock phase, bit order, word size. -/
structure SpiMode where
  cpol : Bool
  cpha : Bool
  msbFirst : Bool
  wordBits : Nat
  deriving DecidableEq, Repr, Inhabited

/-- The parameters of R6. They are constant: no rule writes one, and a copy rides in State so that a statement about every
state is a statement about every parameter value (log entry 4). -/
structure Config where
  /-- `C_RX`. -/
  cRx : Nat
  /-- `C_TX`. -/
  cTx : Nat
  /-- `W_CAP`. -/
  wCap : Nat
  /-- `T_DATA`, ms. -/
  tData : U64
  /-- `T_TXWAIT`, ms: bounds one `TX_WAIT` and reaches no output (R102, R182), so no rule reads it (log entry 20). -/
  tTxWait : U64
  /-- `F_MAX`, Hz. -/
  fMax : U32
  /-- `F_RESET`, Hz. -/
  fReset : U32
  /-- `ACK`. -/
  ack : Byte
  /-- `NAK`. -/
  nak : Byte
  /-- `P_IFACE`. -/
  pIface : U16
  /-- `P_PGMNAME`, 16 bytes. -/
  pPgmname : Vector Byte 16
  /-- `P_SERBUF`. -/
  pSerbuf : U16
  /-- `P_OPBUF`. -/
  pOpbuf : U16
  /-- `P_WRMAX`. -/
  pWrmax : U16
  /-- `P_RDMAX`. -/
  pRdmax : U16
  /-- `BUSTYPE_SPI`. -/
  bustypeSpi : Byte
  /-- `CMD_CODE`. -/
  codes : CmdCodes
  /-- `SPI_MODE`. -/
  spiMode : SpiMode
  /-- `SPI_FILL`: a byte, or `none` for unspecified (R6). -/
  spiFill : Option Byte
  deriving DecidableEq, Repr

/-- The constraints of R7, and that the thirteen codes differ (DEDUCED: R78 counts thirteen commands and R84 256 − 13
other codes; log entry 7). A configuration that breaks one is no model of the block (I29): a precondition here. -/
structure Config.Wf (c : Config) : Prop where
  ack_ne_nak : c.ack ≠ c.nak
  wCap_ge : 4096 ≤ c.wCap
  fMax_pos : 1 ≤ c.fMax.toNat
  cRx_pos : 1 ≤ c.cRx
  cTx_pos : 1 ≤ c.cTx
  codes_nodup : c.codes.supported.Nodup

/-- The registers whose reset column in R22 says "unspecified": "a model takes any value of the stated width". The reset
event draws them. `wb` and `txm` give the contents from index 0 on; indices beyond the list read as blank memory does. -/
structure PowerOn where
  activeCmd : Byte
  lastAct : U64
  writeLen : U24
  readLen : U24
  wb : List Byte
  txm : List Byte
  deriving DecidableEq, Repr, Inhabited

/-- One event: which agent of R20 takes its next step, with the values its environment draws at it (R12). -/
inductive Turn where
  /-- HOST_RX raises `rx_ready(bs)`: the hardware receive FIFO holds `bs`, oldest first (R21, R93). -/
  | hostRx (bs : List Byte)
  /-- RXA pushes the next byte of its pass (R94). -/
  | rxa
  /-- HOST_TX raises `tx_irq`; TXA claims (R103). -/
  | hostTx
  /-- TXA commits; HOST_TX accepts `k` bytes (R104). -/
  | txa (k : Nat)
  /-- SPI_DEV answers the SPI phase that runs: `ok` is the result, `data` the bytes shifted in (R154). -/
  | spiDev (ok : Bool) (data : List Byte)
  /-- CLK reaches `t` ms (R181). -/
  | clk (t : U64)
  /-- ENG takes its next step (R97, R101, R155). -/
  | eng
  /-- The power-on reset event (R21, R187). -/
  | reset (u : PowerOn)
  deriving DecidableEq, Repr, Inhabited

namespace Config

/-- FREE VALUE. Who moves next, and what the environment draws, once the schedule in State is used up: R20 admits every
choice and names none. Applied to State's counter `drawn` (log entry 1). -/
opaque freeTurn : Nat → Turn

/-- OPEN parameter `F_MAX` (R6, D24). -/
opaque openFMax : U32
/-- OPEN parameter `F_RESET` (R6, D23). -/
opaque openFReset : U32
/-- OPEN parameter `P_PGMNAME` (R6, D25), byte by byte. -/
opaque openPgmname : Nat → Byte
/-- OPEN parameter `P_SERBUF` (R6, D26). -/
opaque openSerbuf : U16
/-- OPEN parameter `P_OPBUF` (R6, D26). -/
opaque openOpbuf : U16
/-- OPEN parameter `P_WRMAX` (R6, D7). -/
opaque openWrmax : U16
/-- OPEN parameter `P_RDMAX` (R6, D7). -/
opaque openRdmax : U16
/-- OPEN parameter `SPI_MODE` (R6, D27). -/
opaque openSpiMode : SpiMode
/-- OPEN parameter `SPI_FILL` (R6, D28). -/
opaque openSpiFill : Option Byte

/-- The configuration of State.reset: R6's defaults, and a free value for every parameter R6 marks OPEN. `F_MAX ≥ 1` (R7) is
kept by reading an open value of 0 as 1, so every allowed value stays possible (log entry 6). -/
def standard : Config where
  cRx := 1024
  cTx := 1024
  wCap := 4096
  tData := 300#64
  tTxWait := 10#64
  fMax := if openFMax = 0#32 then 1#32 else openFMax
  fReset := openFReset
  ack := 0x06#8
  nak := 0x15#8
  pIface := 0x0001#16
  pPgmname := #v[openPgmname 0, openPgmname 1, openPgmname 2, openPgmname 3, openPgmname 4, openPgmname 5, openPgmname 6,
    openPgmname 7, openPgmname 8, openPgmname 9, openPgmname 10, openPgmname 11, openPgmname 12, openPgmname 13,
    openPgmname 14, openPgmname 15]
  pSerbuf := openSerbuf
  pOpbuf := openOpbuf
  pWrmax := openWrmax
  pRdmax := openRdmax
  bustypeSpi := 0x08#8
  codes := CmdCodes.serprog
  spiMode := openSpiMode
  spiFill := openSpiFill

end Config

end Sys2Proof
end

