-- ==== Sys2Proof/Syntax.lean ====
section
/-! DEFINITION. The instructions: one constructor per row of spec/opcode_table.json. -/

namespace Sys2Proof

/-- One byte the engine processes, in the role `PHASE` and `ACTIVE_CMD` give it (R73, R75). An immediate command is its code
byte (R76). A deferred command has two forms: its code byte, and each data byte of its frame. `unrecognized` carries the code
byte (R84). -/
inductive Instr where
  /-- R120. -/
  | nop
  /-- R121. -/
  | qIface
  /-- R122. -/
  | qCmdmap
  /-- R123. -/
  | qPgmname
  /-- R124. -/
  | qSerbuf
  /-- R125. -/
  | qBustype
  /-- R126. -/
  | qOpbuf
  /-- R127. -/
  | qWrnmaxlen
  /-- R128. -/
  | syncnop
  /-- R129. -/
  | qRdnmaxlen
  /-- R130 (code), R139 (data). -/
  | sBustype (part : FramePart)
  /-- R131 (code), R140–R144 (data). -/
  | oSpiop (part : FramePart)
  /-- R132 (code), R147–R149 (data). -/
  | sSpiFreq (part : FramePart)
  /-- R133. -/
  | unrecognized (code : Byte)
  deriving DecidableEq, Repr

end Sys2Proof
end

