-- ==== Sys2Proof/Machine/State.lean ====
section
/-! DEFINITION. The block's state (R22) as plain data, its stops, and the state after power-on reset (R187). -/

namespace Sys2Proof.Machine

/-! Memory -/

/-- One of the two byte stores with indices, `WB` or `TXM` (R53): the listed cells, indices rising, none listed that reads as
an unlisted one does. -/
abbrev Memory := List Host.Cell

/-- What an unlisted index reads as. R22 leaves the power-on contents unspecified; DESIGN CHOICE, log entry 9. -/
def Memory.blank : Byte := 0x00#8

/-- The canonical form. -/
abbrev Memory.wf (m : Memory) : Prop :=
  m.Pairwise (fun a b => a.1 < b.1) ∧ ∀ cell ∈ m, cell.2 ≠ Memory.blank

/-! The engine -/

/-- Where ENG stands while `ENG = RUN`: the step boundaries of R113 and R155 (the model's own field, log entry 15). -/
inductive RunPos where
  /-- Inside `RX_POP`'s step, with the popped byte (R97). No step ends here. -/
  | onByte (c : Byte)
  /-- Before `CsAssert()`. -/
  | csAssert
  /-- `SpiWrite` is issued; SPI_DEV answers. -/
  | spiWrite
  /-- `SpiRead` is issued; SPI_DEV answers. -/
  | spiRead
  /-- Before `CsRelease()`, with the result of the phases. -/
  | csRelease (ok : Bool)
  deriving DecidableEq, Repr

/-- Where ENG stands while `ENG = SEND`: the step boundaries of R101 (the model's own field, log entry 15). -/
inductive SendPos where
  /-- Before `TX_PUT`. -/
  | put
  /-- Before `TX_IE <- 1`. -/
  | ie
  /-- Before `TX_WAIT`. -/
  | wait
  deriving DecidableEq, Repr

/-- `ENG` (R40). -/
inductive Eng where
  | wait
  | run (pos : RunPos)
  | send (pos : SendPos)
  deriving DecidableEq, Repr

/-! What is observed -/

/-- The log events of R184. -/
inductive LogEvent where
  | rxDrop
  | dataTimeout
  deriving DecidableEq, Repr

/-- The five error classes (R164–R169). -/
inductive ErrorClass where
  | transportOverflow
  | overflowGuard
  | protocolViolation
  | busFailure
  | idleTimeout
  deriving DecidableEq, Repr

/-- The numbers of R164, in the source's order. They reach no register and no wire. -/
def ErrorClass.number : ErrorClass → Nat
  | .transportOverflow => 1
  | .overflowGuard => 2
  | .protocolViolation => 3
  | .busFailure => 4
  | .idleTimeout => 5

/-- The events of the SPI history (R46, R154). A read carries how many bytes it shifts in and the byte driven out meanwhile
(`SPI_FILL`, `none` where it is unspecified). -/
inductive SpiEvent where
  | csAssert
  | write (bytes : List Byte)
  | read (count : Nat) (fill : Option Byte)
  | csRelease
  deriving DecidableEq, Repr

/-- One entry of the SPI history: the event, with `FREQ` (R46) and `SPI_MODE` (R21) at that moment. -/
structure SpiRecord where
  event : SpiEvent
  freq : U32
  mode : SpiMode
  deriving DecidableEq, Repr

/-- The observables of R46 and the sequences R66 and R67 speak of, each oldest first, counted from power-on (log entry 16). No
rule reads one. -/
structure History where
  /-- The wire output: the `tx_accept` payloads (R46, R67). -/
  wire : List Byte
  /-- The SPI history (R46). -/
  spi : List SpiRecord
  /-- The log events (R46, R184). -/
  log : List LogEvent
  /-- The error classes raised (R164). -/
  errors : List ErrorClass
  /-- The bytes `RX_PUSH` accepted: the sequence `A` of R66. -/
  accepted : List Byte
  /-- The bytes passed to `on_byte` (R66). -/
  taken : List Byte
  /-- The bytes passed to `Send`: the sequence `S` of R67. -/
  sent : List Byte
  deriving DecidableEq, Repr

/-! The registers, unit by unit -/

/-- The async FIFO's registers (R22–R28). -/
structure Fifo where
  /-- `RXQ`, head first. -/
  rxq : List Byte
  /-- `RX_DROPS`. -/
  rxDrops : U32
  /-- `TXM`. -/
  txm : Memory
  /-- `TX_RD`. -/
  txRd : Nat
  /-- `TX_COUNT`. -/
  txCount : Nat
  /-- `TX_CLAIM`. -/
  txClaim : Nat
  /-- `TX_IE`. -/
  txIe : Bool
  /-- `TX_SPACE`. -/
  txSpace : Bool
  /-- The bytes of RXA's running pass that it has not pushed (R93; the model's own field, log entry 15). -/
  rxPass : List Byte
  /-- TXA stands between its claim and its commit (R104, R105; the model's own field, log entry 15). -/
  txOpen : Bool
  deriving DecidableEq, Repr

/-- The frame parser's registers: the ProtocolSession (R22, R30–R36). -/
structure Session where
  /-- `PHASE`. -/
  phase : Phase
  /-- `ACTIVE_CMD`. -/
  activeCmd : Byte
  /-- `BYTE_CNT`. -/
  byteCnt : U32
  /-- `LAST_ACT`. -/
  lastAct : U64
  /-- `WB`. -/
  wb : Memory
  /-- `WRITE_LEN`. -/
  writeLen : U24
  /-- `READ_LEN`. -/
  readLen : U24
  deriving DecidableEq, Repr

/-- The SPI master's registers (R22, R37–R39). -/
structure SpiMaster where
  /-- `FREQ`. -/
  freq : U32
  /-- `FMAX`. -/
  fmax : U32
  /-- `CS`: true is asserted. -/
  cs : Bool
  deriving DecidableEq, Repr

/-- The whole machine. -/
structure State where
  /-- The parameters (R6): constant. -/
  cfg : Config
  fifo : Fifo
  ses : Session
  spi : SpiMaster
  /-- `ENG` (R40). -/
  eng : Eng
  /-- `ENG_OUT` (R41). -/
  engOut : List Byte
  /-- The clock that `Now()` reads (R181). -/
  clk : U64
  /-- The events to come, next first (R20; log entry 1). -/
  turns : List Turn
  /-- How many events were taken as free values (log entry 1). -/
  drawn : Nat
  /-- What was observed since power-on. -/
  obs : History
  deriving DecidableEq, Repr

/-! Stops -/

/-- Every way a step can stop. The block itself has no stop (R164; 93_implementation_defined.md: "`fault`: not used"): each of these
needs a state that R48's invariants rule out, and no step that starts inside them ends here. -/
inductive Fault where
  /-- Raised by `storeWB` and `loadWB`: an access to `WB` outside `[0, W_CAP)`, an index R53 says does not exist and R146 says is
  never used. Safe (log entry 12). -/
  | wbIndex (index length : Nat)
  /-- Raised by `onByte`: `PHASE` is AwaitData and `ACTIVE_CMD` is no deferred command's code, which R48 (iv) rules out. Safe (log
  entry 13). -/
  | activeCmd (why : DecodeReject)
  /-- Raised by `txCommit`: the accepted chunk would run past `TXM`, which R48 (ii) and R103 rule out. Safe (log entry 14). -/
  | txmIndex (index length : Nat)
  deriving DecidableEq, Repr

/-- The ways the model refuses an instruction. -/
inductive Refusal where
  /-- Raised by `exec`'s arm of an instruction without a meaning, under the opcode table's mnemonic; no arm does so now. Safe. -/
  | notModelled (mnemonic : String)
  deriving DecidableEq, Repr

/-! Reset -/

/-- The memory that holds `bs` from index `base` on and reads as blank elsewhere, in canonical form. -/
def Memory.image (base : Nat) : List Byte → Memory
  | [] => []
  | b :: bs => if b = Memory.blank then Memory.image (base + 1) bs else (base, b) :: Memory.image (base + 1) bs

/-- Power-on reset (R187, R22): every register at its reset value, the unspecified ones at the values `u` draws, the histories
empty. -/
def State.powerOn (cfg : Config) (u : PowerOn) (clk : U64) (turns : List Turn) (drawn : Nat) : State where
  cfg := cfg
  fifo :=
    { rxq := [], rxDrops := 0#32, txm := Memory.image 0 (u.txm.take cfg.cTx), txRd := 0, txCount := 0, txClaim := 0,
      txIe := false, txSpace := false, rxPass := [], txOpen := false }
  ses :=
    { phase := .awaitCommand, activeCmd := u.activeCmd, byteCnt := 0#32, lastAct := u.lastAct,
      wb := Memory.image 0 (u.wb.take cfg.wCap), writeLen := u.writeLen, readLen := u.readLen }
  spi := { freq := cfg.fReset, fmax := cfg.fMax, cs := false }
  eng := .wait
  engOut := []
  clk := clk
  turns := turns
  drawn := drawn
  obs := { wire := [], spi := [], log := [], errors := [], accepted := [], taken := [], sent := [] }

/-- The draws of State.reset: zeros. DESIGN CHOICE, log entry 8. -/
def PowerOn.zeros : PowerOn :=
  { activeCmd := 0x00#8, lastAct := 0#64, writeLen := 0#24, readLen := 0#24, wb := [], txm := [] }

/-- The machine right after reset: R187's values, the standard configuration, the clock at 0 (log entry 17), nothing
scheduled. -/
def State.reset : State := State.powerOn Config.standard PowerOn.zeros 0#64 [] 0

end Sys2Proof.Machine
end

