-- ==== Sys2Proof/Machine/Ops.lean ====
section
/-! DEFINITION. The named operations over memory, queues, session and engine that every meaning is written with, and the one
operation that takes an error (R164–R169). -/

namespace Sys2Proof.Machine

/-- What a step or a meaning answers. -/
abbrev Res := Host.Outcome State Fault Refusal

/-! Bytes of a store -/

/-- The byte at an index. -/
def Memory.read : Memory → Nat → Byte
  | [], _ => Memory.blank
  | cell :: m, i => if cell.1 = i then cell.2 else Memory.read m i

/-- Lists a cell in its place. -/
def Memory.insertCell (i : Nat) (v : Byte) : Memory → Memory
  | [] => [(i, v)]
  | cell :: m => if i < cell.1 then (i, v) :: cell :: m else cell :: Memory.insertCell i v m

/-- Writes one byte: the old cell goes, and the new one is listed unless it reads as an unlisted one does. -/
def Memory.write (m : Memory) (i : Nat) (v : Byte) : Memory :=
  if v = Memory.blank then m.filter (fun cell => cell.1 != i)
  else Memory.insertCell i v (m.filter (fun cell => cell.1 != i))

/-- `M[i..i+|bs|) <- bs`, byte by byte (R59). -/
def Memory.writeList (m : Memory) (i : Nat) : List Byte → Memory
  | [] => m
  | b :: bs => Memory.writeList (Memory.write m i b) (i + 1) bs

/-- `M[i..i+n)`, byte by byte (R59). -/
def Memory.readList (m : Memory) (i : Nat) : Nat → List Byte
  | 0 => []
  | n + 1 => Memory.read m i :: Memory.readList m (i + 1) n

/-- `TXM[(pos + j) mod cap] <- bs[j]` for each `j` (R100). -/
def Memory.ringWrite (m : Memory) (cap pos : Nat) : List Byte → Memory
  | [] => m
  | b :: bs => Memory.ringWrite (Memory.write m (pos % cap) b) cap (pos + 1) bs

/-- `TXM[(pos + j) mod cap]` for `j` in `[0, n)` (R25). -/
def Memory.ringRead (m : Memory) (cap pos : Nat) : Nat → List Byte
  | 0 => []
  | n + 1 => Memory.read m (pos % cap) :: Memory.ringRead m cap (pos + 1) n

/-! The work buffer -/

/-- `MemWrite` (R11): `WB[i..i+|bs|) <- bs`, then on with `k`. An index outside `[0, W_CAP)` does not exist (R53). -/
def storeWB (i : Nat) (bs : List Byte) (s : State) (k : State → Res) : Res :=
  if i + bs.length ≤ s.cfg.wCap then k { s with ses.wb := s.ses.wb.writeList i bs }
  else .fault (.wbIndex i bs.length)

/-- `MemRead` (R11): on with `k` applied to `WB[i..i+n)`. -/
def loadWB (i n : Nat) (s : State) (k : List Byte → Res) : Res :=
  if i + n ≤ s.cfg.wCap then k (s.ses.wb.readList i n) else .fault (.wbIndex i n)

/-! The transmit ring, read whole -/

/-- The TransmitBuffer's contents, oldest first (R25). -/
def Fifo.txContents (f : Fifo) (cTx : Nat) : List Byte := f.txm.ringRead cTx f.txRd f.txCount

/-! The session and the engine -/

/-- `SessionReset()` (R45). -/
def sessionReset (s : State) : State := { s with ses.phase := .awaitCommand, ses.byteCnt := 0#32 }

/-- The start of `Send(bs)` (R101), up to its first step boundary. -/
def sendStart (bs : List Byte) (s : State) : State :=
  { s with engOut := bs, eng := .send .put, obs.sent := s.obs.sent ++ bs }

/-- The end of `on_byte` (R113): nothing to send ends it, a response goes to `Send`. -/
def finish (resp : List Byte) (s : State) : State :=
  if resp = [] then { s with eng := .wait } else sendStart resp s

/-- `Log(ev)` (R184). -/
def logEvent (ev : LogEvent) (s : State) : State := { s with obs.log := s.obs.log ++ [ev] }

/-- Puts an SPI event on record, with `FREQ` and `SPI_MODE` (R46, R21). -/
def spiEvent (ev : SpiEvent) (s : State) : State :=
  { s with obs.spi := s.obs.spi ++ [{ event := ev, freq := s.spi.freq, mode := s.cfg.spiMode }] }

/-! Taking an error -/

/-- `sat_inc_32` (R11). -/
def satInc32 (v : U32) : U32 := if v.toNat < 2 ^ 32 - 1 then v + 1#32 else v

/-- `raise <Error>` (R164): takes the action of the error's class, and puts the class on record. Nothing is saved and nothing is
returned from (R171, R172). The two classes that are invisible on the wire (R170) send nothing; the other three end the `on_byte` by
sending `[NAK]`. -/
def raise (e : ErrorClass) (s : State) : State :=
  let s := { s with obs.errors := s.obs.errors ++ [e] }
  match e with
  -- R165
  | .transportOverflow => logEvent .rxDrop { s with fifo.rxDrops := satInc32 s.fifo.rxDrops }
  -- R166
  | .overflowGuard => sendStart [s.cfg.nak] (sessionReset s)
  -- R167
  | .protocolViolation => sendStart [s.cfg.nak] s
  -- R168
  | .busFailure => sendStart [s.cfg.nak] (sessionReset s)
  -- R169
  | .idleTimeout => sessionReset (logEvent .dataTimeout s)

/-- Return from an error (R172): there is no return operation. "After the action, the engine finishes `on_byte` (its `Send`) and goes
back to `WAIT`": this is the step of `Send` that does so (R101), once nothing is left to enqueue. -/
def sendReturn (s : State) : State :=
  if s.engOut = [] then { s with eng := .wait } else { s with eng := .send .wait }

end Sys2Proof.Machine
end

