-- ==== Sys2Proof/Machine/Flags.lean ====
section
/-! DEFINITION. The status bits of R44 and the conditions that decide how a byte goes on. The block has no arithmetic condition
codes (R44). -/

namespace Sys2Proof.Machine

/-- The result of a Bus Driver operation (R44): transient, held in no register. -/
inductive SpiResult where
  | ok
  | fail
  deriving DecidableEq, Repr

/-- `TX_IE <- 1` (R27, R101). -/
def setTxIe (s : State) : State := { s with fifo.txIe := true }

/-- `TX_SPACE` after a commit of `k` bytes (R104). -/
def spaceAfter (k : Nat) (txSpace : Bool) : Bool := if 0 < k then true else txSpace

/-- `TX_IE` after a commit that leaves `count` bytes (R104). -/
def ieAfter (count : Nat) (txIe : Bool) : Bool := if count = 0 then false else txIe

/-- `TX_WAIT`'s effect on the signal (R102): a wait that the signal ended clears it. -/
def clearSpace (s : State) : State := if s.fifo.txSpace then { s with fifo.txSpace := false } else s

/-- `CS <- 1` or `CS <- 0` (R154). -/
def setCs (v : Bool) (s : State) : State := { s with spi.cs := v }

/-- The data-phase timeout's condition (R114): `PHASE = AwaitData` and `now - LAST_ACT > T_DATA`, strictly. -/
def timedOut (s : State) : Bool :=
  s.ses.phase == .awaitData && decide (s.cfg.tData.toNat < s.clk.toNat - s.ses.lastAct.toNat)

/-- The overflow guard's condition (R138): `BYTE_CNT ≥ W_CAP`. -/
def guardTrips (s : State) : Bool := decide (s.cfg.wCap ≤ s.ses.byteCnt.toNat)

end Sys2Proof.Machine
end

