-- ==== Sys2Proof/WellFormed.lean ====
section
/-! DEFINITION. Which instructions exist under a table of codes, and which byte lists are frames. -/

namespace Sys2Proof

/-- An unrecognized code is one outside the supported set (R84); every other form is well-formed, since every data byte value is
accepted (R85). -/
def Instr.wf (cc : CmdCodes) : Instr → Bool
  | .nop | .qIface | .qCmdmap | .qPgmname | .qSerbuf | .qBustype | .qOpbuf | .qWrnmaxlen | .syncnop | .qRdnmaxlen => true
  | .sBustype _ | .oSpiop _ | .sSpiFreq _ => true
  | .unrecognized code => !cc.supported.contains code

/-- An O_SPIOP frame's payload has exactly `write_len` bytes (R79). -/
def payloadWf (writeLen : U24) (payload : List Byte) : Bool := payload.length == writeLen.toNat

end Sys2Proof
end

