-- ==== Sys2Proof/Decode.lean ====
section
/-! DEFINITION. Byte order (R10), the modal decoder (R74, R75), the encoder, and whole frames (R73, R76, R79–R81, R89). -/

namespace Sys2Proof

/-! Byte order -/

/-- `LE(b0, …, b(n-1)) = Σ b_i · 2^(8i)` (R10). -/
def le : List Byte → Nat
  | [] => 0
  | b :: bs => b.toNat + 256 * le bs

/-- `LE16(v)` (R10). -/
def le16 (v : U16) : List Byte := [v.extractLsb' 0 8, v.extractLsb' 8 8]
/-- `LE24(v)` (R10). -/
def le24 (v : U24) : List Byte := [v.extractLsb' 0 8, v.extractLsb' 8 8, v.extractLsb' 16 8]
/-- `LE32(v)` (R10). -/
def le32 (v : U32) : List Byte :=
  [v.extractLsb' 0 8, v.extractLsb' 8 8, v.extractLsb' 16 8, v.extractLsb' 24 8]

/-! Decoding -/

/-- R77's table: the code of each supported command beside the instruction its byte is. -/
def commandRows (cc : CmdCodes) : List (Byte × Instr) :=
  [(cc.nop, .nop), (cc.qIface, .qIface), (cc.qCmdmap, .qCmdmap), (cc.qPgmname, .qPgmname), (cc.qSerbuf, .qSerbuf),
    (cc.qBustype, .qBustype), (cc.qOpbuf, .qOpbuf), (cc.qWrnmaxlen, .qWrnmaxlen), (cc.syncnop, .syncnop),
    (cc.qRdnmaxlen, .qRdnmaxlen), (cc.sBustype, .sBustype .code), (cc.oSpiop, .oSpiop .code),
    (cc.sSpiFreq, .sSpiFreq .code)]

/-- A byte in AwaitCommand: all eight bits are compared (R74), and every code outside the table is unrecognized (R84). -/
def decodeCommand (cc : CmdCodes) (c : Byte) : Instr :=
  match (commandRows cc).find? (fun row => row.1 == c) with
  | some row => row.2
  | none => .unrecognized c

/-- A byte in AwaitData is a data byte of `ACTIVE_CMD`, whatever its value (R75, R136). -/
def decodeData (cc : CmdCodes) (active c : Byte) : Except DecodeReject Instr :=
  if active = cc.sBustype then .ok (.sBustype (.data c))
  else if active = cc.oSpiop then .ok (.oSpiop (.data c))
  else if active = cc.sSpiFreq then .ok (.sSpiFreq (.data c))
  else .error (.activeCmdNotDeferred active)

/-- The decoder: total on every byte, with `PHASE` as its mode (R75). -/
def decode (cc : CmdCodes) (phase : Phase) (active c : Byte) : Except DecodeReject Instr :=
  match phase with
  | .awaitCommand => .ok (decodeCommand cc c)
  | .awaitData => decodeData cc active c

/-- The instruction the decoder reads from a table word: one command byte, in AwaitCommand, under the default codes. -/
def decodeTableWord (nbits w : Nat) : Option Instr :=
  if nbits ≤ 8 ∧ w < 256 then some (decodeCommand CmdCodes.serprog (BitVec.ofNat 8 w)) else none

/-! Encoding -/

/-- The byte that an instruction is, from R77's table and R79–R81. -/
def encode (cc : CmdCodes) : Instr → Byte
  | .nop => cc.nop
  | .qIface => cc.qIface
  | .qCmdmap => cc.qCmdmap
  | .qPgmname => cc.qPgmname
  | .qSerbuf => cc.qSerbuf
  | .qBustype => cc.qBustype
  | .qOpbuf => cc.qOpbuf
  | .qWrnmaxlen => cc.qWrnmaxlen
  | .syncnop => cc.syncnop
  | .qRdnmaxlen => cc.qRdnmaxlen
  | .sBustype .code => cc.sBustype
  | .oSpiop .code => cc.oSpiop
  | .sSpiFreq .code => cc.sSpiFreq
  | .sBustype (.data b) => b
  | .oSpiop (.data b) => b
  | .sSpiFreq (.data b) => b
  | .unrecognized code => code

/-- The mode in which an instruction's byte is read as it (R75). -/
def Instr.phase : Instr → Phase
  | .sBustype (.data _) | .oSpiop (.data _) | .sSpiFreq (.data _) => .awaitData
  | .nop | .qIface | .qCmdmap | .qPgmname | .qSerbuf | .qBustype | .qOpbuf | .qWrnmaxlen | .syncnop | .qRdnmaxlen
  | .sBustype .code | .oSpiop .code | .sSpiFreq .code | .unrecognized _ => .awaitCommand

/-- The `ACTIVE_CMD` under which a data byte is read as the instruction; for a command byte any value serves, and the answer is
the given one. -/
def Instr.active (cc : CmdCodes) (any : Byte) : Instr → Byte
  | .sBustype (.data _) => cc.sBustype
  | .oSpiop (.data _) => cc.oSpiop
  | .sSpiFreq (.data _) => cc.sSpiFreq
  | .nop | .qIface | .qCmdmap | .qPgmname | .qSerbuf | .qBustype | .qOpbuf | .qWrnmaxlen | .syncnop | .qRdnmaxlen
  | .sBustype .code | .oSpiop .code | .sSpiFreq .code | .unrecognized _ => any

/-! Frames -/

/-- `S_BUSTYPE t` (R81, R89). -/
def frameBustype (cc : CmdCodes) (t : Byte) : List Byte := [cc.sBustype, t]
/-- `O_SPIOP wl=W rl=R data=d` (R79, R89). -/
def frameSpiop (cc : CmdCodes) (writeLen readLen : U24) (d : List Byte) : List Byte :=
  cc.oSpiop :: (le24 writeLen ++ le24 readLen ++ d)
/-- `S_SPI_FREQ f=F` (R80, R89). -/
def frameFreq (cc : CmdCodes) (f : U32) : List Byte := cc.sSpiFreq :: le32 f

/-- How many data bytes follow a command byte, read from the command and, for O_SPIOP, from its header; `none` while the
header is not complete (R76). -/
def dataCount (i : Instr) (after : List Byte) : Option Nat :=
  match i with
  | .sBustype _ => some 1
  | .sSpiFreq _ => some 4
  | .oSpiop _ => if after.length < 6 then none else some (6 + le (after.take 3))
  | .nop | .qIface | .qCmdmap | .qPgmname | .qSerbuf | .qBustype | .qOpbuf | .qWrnmaxlen | .syncnop | .qRdnmaxlen
  | .unrecognized _ => some 0

/-- The instruction that a data byte of a command's frame is. -/
def dataInstr (i : Instr) (b : Byte) : Instr :=
  match i with
  | .sBustype _ => .sBustype (.data b)
  | .oSpiop _ => .oSpiop (.data b)
  | .sSpiFreq _ => .sSpiFreq (.data b)
  | .nop | .qIface | .qCmdmap | .qPgmname | .qSerbuf | .qBustype | .qOpbuf | .qWrnmaxlen | .syncnop | .qRdnmaxlen
  | .unrecognized _ => i

/-- One frame off the front of a byte stream that starts in AwaitCommand: the instructions its bytes are, and the rest; `none`
while the frame is not complete (R73, R76). It is the frame as the host wrote it: a guard trip or a timeout cuts it short in the
machine (R76, R195). -/
def parseFrame (cc : CmdCodes) : List Byte → Option (List Instr × List Byte)
  | [] => none
  | c :: after =>
    match dataCount (decodeCommand cc c) after with
    | none => none
    | some n =>
      if after.length < n then none
      else some (decodeCommand cc c :: (after.take n).map (dataInstr (decodeCommand cc c)), after.drop n)

/-- `CMDMAP[i]` (R86): bit `k mod 8` of byte `k div 8` is set for every supported code `k`. -/
def cmdMapByte (codes : List Byte) (i : Nat) : Byte :=
  codes.foldl (fun acc k => if k.toNat / 8 = i then acc ||| (1#8 <<< (k.toNat % 8)) else acc) 0#8

/-- `CMDMAP[0..32)` (R86), from the same table the decoder reads (R78). -/
def cmdMap (cc : CmdCodes) : List Byte := (List.range 32).map (cmdMapByte cc.supported)

end Sys2Proof
end

