-- ==== Sys2Proof/Machine/Operands.lean ====
section
/-! DEFINITION. The operands the commands carry, read from the bytes that hold them (R79–R81), and the arithmetic on them. -/

namespace Sys2Proof.Machine

/-- `write_len` from the six header bytes: `LE(d0, d1, d2)` (R79, R141). -/
def headerWriteLen (header : List Byte) : U24 := BitVec.ofNat 24 (le (header.take 3))

/-- `read_len` from the six header bytes: `LE(d3, d4, d5)` (R79, R141). -/
def headerReadLen (header : List Byte) : U24 := BitVec.ofNat 24 (le ((header.drop 3).take 3))

/-- `f = LE(d0, d1, d2, d3)` (R80, R148). -/
def frequencyOf (d : List Byte) : U32 := BitVec.ofNat 32 (le (d.take 4))

/-- `t = BUSTYPE_SPI`, exact equality (R81, R139). -/
def busTypeMatches (cfg : Config) (t : Byte) : Bool := t == cfg.bustypeSpi

/-- `min(hz, FMAX)` (R158). -/
def clampFrequency (hz fmax : U32) : U32 := if hz.toNat ≤ fmax.toNat then hz else fmax

/-- The index of the payload byte that arrives at a byte count (R142): payload byte `j` lands in `WB[j]`. -/
def payloadIndex (byteCnt : U32) : Nat := byteCnt.toNat - 6

end Sys2Proof.Machine
end

