-- ==== Sys2Proof/Machine/Spi.lean ====
section
/-! DEFINITION. Unit 3, the SPI master controller: the steps of `transfer` up to its release of chip-select, and `set_frequency`
(R153–R163). -/

namespace Sys2Proof.Machine

/-- `CsAssert()`, then the first phase the lengths ask for (R155). -/
def csAssertStep (s : State) : State :=
  let s := spiEvent .csAssert (setCs true s)
  if 0 < s.ses.writeLen.toNat then { s with eng := .run .spiWrite }
  else if 0 < s.ses.readLen.toNat then { s with eng := .run .spiRead }
  else { s with eng := .run (.csRelease true) }

/-- `SpiWrite(WB[0..write_len))` with the drawn result (R154, R155): bytes shifted in are discarded; a failed write skips the read
(R156). -/
def spiWriteStep (ok : Bool) (s : State) : Res :=
  loadWB 0 s.ses.writeLen.toNat s fun bs =>
    let s := spiEvent (.write bs) s
    if ok = true ∧ 0 < s.ses.readLen.toNat then .next { s with eng := .run .spiRead }
    else .next { s with eng := .run (.csRelease ok) }

/-- `SpiRead(read_len)` with the drawn result and data (R154, R155). The data lands in `WB[0..read_len)`; after a failed read that
range holds "any value", which the draw gives too. An answer of another length is no answer (log entry 18). -/
def spiReadStep (ok : Bool) (data : List Byte) (s : State) : Res :=
  if data.length = s.ses.readLen.toNat then
    storeWB 0 data (spiEvent (.read s.ses.readLen.toNat s.cfg.spiFill) s) fun s =>
      .next { s with eng := .run (.csRelease ok) }
  else .next s

/-- SPI_DEV answers (R154): it moves the engine only where an SPI phase runs. -/
def spiAnswer (ok : Bool) (data : List Byte) (s : State) : Res :=
  match s.eng with
  | .run .spiWrite => spiWriteStep ok s
  | .run .spiRead => spiReadStep ok data s
  | .wait | .run (.onByte _) | .run .csAssert | .run (.csRelease _) | .send _ => .next s

/-- `set_frequency(hz)` (R158): clamps, stores, always succeeds (R159). -/
def setFrequency (hz : U32) (s : State) : SpiResult × State :=
  (.ok, { s with spi.freq := clampFrequency hz s.spi.fmax })

end Sys2Proof.Machine
end

