-- ==== Sys2Proof/Machine/Deferred.lean ====
section
/-! DEFINITION. The deferred commands: dispatch (R119, R130–R132), the data phases (R136–R149) and the end of a transfer (R143,
R155). -/

namespace Sys2Proof.Machine

/-- `DeferredDispatch(c, now)` (R119), with `BYTE_CNT <- 0` and no response. `Now()` is the clock (R181). -/
def deferredDispatch (c : Byte) (s : State) : Res :=
  .next (finish [] { s with ses.phase := .awaitData, ses.activeCmd := c, ses.byteCnt := 0#32, ses.lastAct := s.clk })

/-- `Data(c, now)` (R136): the activity stamp (R137), the guard (R138), then the command's handler. -/
def dataByte (handler : State → Res) (s : State) : Res :=
  let s := { s with ses.lastAct := s.clk }
  if guardTrips s then .next (raise .overflowGuard s) else handler s

/-- `BYTE_CNT <- BYTE_CNT + 1` (R137). -/
def countByte (s : State) : State := { s with ses.byteCnt := s.ses.byteCnt + 1#32 }

/-! S_BUSTYPE -/

/-- `BusTypeData(t)` (R139). -/
def busTypeData (t : Byte) (s : State) : Res :=
  let s := sessionReset s
  if busTypeMatches s.cfg t then .next (finish [s.cfg.ack] s) else .next (raise .protocolViolation s)

/-! O_SPIOP -/

/-- What follows `transfer` in `Execute` (R143): session reset, then ACK and the read data, or a BusFailure. -/
def afterTransfer (ok : Bool) (s : State) : Res :=
  let s := sessionReset s
  if ok then loadWB 0 s.ses.readLen.toNat s fun data => .next (finish (s.cfg.ack :: data) s)
  else .next (raise .busFailure s)

/-- The start of `transfer` (R155): with both lengths zero it fails before any event (R156); otherwise chip-select is next. -/
def transferStart (s : State) : Res :=
  if s.ses.writeLen.toNat = 0 ∧ s.ses.readLen.toNat = 0 then afterTransfer false s
  else .next { s with eng := .run .csAssert }

/-- `Execute()` (R143): the read-length guard, then `transfer`. -/
def execute (s : State) : Res :=
  if s.cfg.wCap < s.ses.readLen.toNat then .next (raise .overflowGuard s) else transferStart s

/-- `HeaderComplete()` (R141). -/
def headerComplete (s : State) : Res :=
  loadWB 0 6 s fun header =>
    let s := { s with ses.writeLen := headerWriteLen header, ses.readLen := headerReadLen header }
    if s.ses.writeLen.toNat = 0 then execute s else .next (finish [] s)

/-- A header byte (R140). -/
def headerByte (c : Byte) (s : State) : Res :=
  storeWB s.ses.byteCnt.toNat [c] s fun s =>
    let s := countByte s
    if s.ses.byteCnt.toNat = 6 then headerComplete s else .next (finish [] s)

/-- `PayloadByte(c)` (R142). -/
def payloadByte (c : Byte) (s : State) : Res :=
  storeWB (payloadIndex s.ses.byteCnt) [c] s fun s =>
    let s := countByte s
    if payloadIndex s.ses.byteCnt = s.ses.writeLen.toNat then execute s else .next (finish [] s)

/-- `SpiOpData(c)` (R140). -/
def spiOpData (c : Byte) (s : State) : Res :=
  if s.ses.byteCnt.toNat < 6 then headerByte c s else payloadByte c s

/-- `CsRelease()`, unconditional, and the return of `transfer` (R155). -/
def csReleaseStep (ok : Bool) (s : State) : Res := afterTransfer ok (spiEvent .csRelease (setCs false s))

/-! S_SPI_FREQ -/

/-- `FreqComplete()` (R148). The FAIL branch is kept and never taken (R159; log entry 25). -/
def freqComplete (s : State) : Res :=
  loadWB 0 4 s fun d =>
    let s := sessionReset s
    if frequencyOf d = 0#32 then .next (raise .protocolViolation s)
    else
      match setFrequency (frequencyOf d) s with
      | (.ok, s) => .next (finish (s.cfg.ack :: d) s)
      | (.fail, s) => .next (raise .busFailure s)

/-- `FreqData(c)` (R147). -/
def freqData (c : Byte) (s : State) : Res :=
  storeWB s.ses.byteCnt.toNat [c] s fun s =>
    let s := countByte s
    if s.ses.byteCnt.toNat = 4 then freqComplete s else .next (finish [] s)

/-! The three commands -/

/-- S_BUSTYPE (R130, R139). -/
def execSBustype (part : FramePart) (s : State) : Res :=
  match part with
  | .code => deferredDispatch s.cfg.codes.sBustype s
  | .data t => dataByte (busTypeData t) s

/-- O_SPIOP (R131, R140–R144): the byte that completes the frame starts the transfer, whose later steps are the engine's own (R155). -/
def execOSpiop (part : FramePart) (s : State) : Res :=
  match part with
  | .code => deferredDispatch s.cfg.codes.oSpiop s
  | .data c => dataByte (spiOpData c) s

/-- S_SPI_FREQ (R132, R147–R149). -/
def execSSpiFreq (part : FramePart) (s : State) : Res :=
  match part with
  | .code => deferredDispatch s.cfg.codes.sSpiFreq s
  | .data c => dataByte (freqData c) s

end Sys2Proof.Machine
end

