-- ==== Sys2Proof/Machine/Immediate.lean ====
section
/-! DEFINITION. The immediate commands and the unrecognized codes (R116–R118, R120–R129, R133). -/

namespace Sys2Proof.Machine

/-- An immediate command whose response is `resp` (R116–R118): `BYTE_CNT <- 0`, the response is built into `WB[0..|resp|)`, and goes to
`Send` whole. -/
def immediate (resp : List Byte) (s : State) : Res :=
  storeWB 0 resp { s with ses.byteCnt := 0#32 } fun s => .next (finish resp s)

/-- R120. -/
def execNop (s : State) : Res := immediate [s.cfg.ack] s

/-- R121. -/
def execQIface (s : State) : Res := immediate (s.cfg.ack :: le16 s.cfg.pIface) s

/-- R122. -/
def execQCmdmap (s : State) : Res := immediate (s.cfg.ack :: cmdMap s.cfg.codes) s

/-- R123. -/
def execQPgmname (s : State) : Res := immediate (s.cfg.ack :: s.cfg.pPgmname.toList) s

/-- R124. -/
def execQSerbuf (s : State) : Res := immediate (s.cfg.ack :: le16 s.cfg.pSerbuf) s

/-- R125. -/
def execQBustype (s : State) : Res := immediate [s.cfg.ack, s.cfg.bustypeSpi] s

/-- R126. -/
def execQOpbuf (s : State) : Res := immediate (s.cfg.ack :: le16 s.cfg.pOpbuf) s

/-- R127, R83. -/
def execQWrnmaxlen (s : State) : Res := immediate (s.cfg.ack :: (le16 s.cfg.pWrmax ++ [0x00#8])) s

/-- R128: the one response that does not begin with its status byte (R87). -/
def execSyncnop (s : State) : Res := immediate [s.cfg.nak, s.cfg.ack] s

/-- R129, R83. -/
def execQRdnmaxlen (s : State) : Res := immediate (s.cfg.ack :: (le16 s.cfg.pRdmax ++ [0x00#8])) s

/-- R133, with R116's `BYTE_CNT <- 0`: `WB[0] <- NAK`, and a ProtocolViolation, whose action sends `[NAK]` (R167). The code's value
plays no further part. -/
def execUnrecognized (_code : Byte) (s : State) : Res :=
  storeWB 0 [s.cfg.nak] { s with ses.byteCnt := 0#32 } fun s => .next (raise .protocolViolation s)

end Sys2Proof.Machine
end

