-- ==== Sys2Proof/Machine/Dispatch.lean ====
section
/-! DEFINITION. One arm per instruction. -/

namespace Sys2Proof.Machine

def exec (i : Instr) (s : State) : Host.Outcome State Fault Refusal :=
  match i with
  | .nop => Sys2Proof.Machine.execNop s
  | .qIface => Sys2Proof.Machine.execQIface s
  | .qCmdmap => Sys2Proof.Machine.execQCmdmap s
  | .qPgmname => Sys2Proof.Machine.execQPgmname s
  | .qSerbuf => Sys2Proof.Machine.execQSerbuf s
  | .qBustype => Sys2Proof.Machine.execQBustype s
  | .qOpbuf => Sys2Proof.Machine.execQOpbuf s
  | .qWrnmaxlen => Sys2Proof.Machine.execQWrnmaxlen s
  | .syncnop => Sys2Proof.Machine.execSyncnop s
  | .qRdnmaxlen => Sys2Proof.Machine.execQRdnmaxlen s
  | .sBustype part => Sys2Proof.Machine.execSBustype part s
  | .oSpiop part => Sys2Proof.Machine.execOSpiop part s
  | .sSpiFreq part => Sys2Proof.Machine.execSSpiFreq part s
  | .unrecognized code => Sys2Proof.Machine.execUnrecognized code s

end Sys2Proof.Machine
end

