-- ==== Sys2Proof/Machine/Fifo.lean ====
section
/-! DEFINITION. Unit 1, the async FIFO: the receive path, the engine's pop, `Send`'s steps and the drain (R93–R106). Each is one
atomic step (R61). -/

namespace Sys2Proof.Machine

/-! Receive path (RXA) -/

/-- `rx_ready(bs)` starts a pass of `RX_DRAIN` over the non-empty `bs` (R93). Bytes that come while a pass runs belong to the next
event, so the event is enabled only between passes (log entry 22). -/
def rxReady (bs : List Byte) (s : State) : State :=
  if s.fifo.rxPass = [] then { s with fifo.rxPass := bs } else s

/-- `RX_PUSH(b)` (R94): never blocks, drops the incoming byte when full. -/
def rxPush (b : Byte) (s : State) : State :=
  if s.fifo.rxq.length < s.cfg.cRx then
    { s with fifo.rxq := s.fifo.rxq ++ [b], obs.accepted := s.obs.accepted ++ [b] }
  else raise .transportOverflow s

/-- RXA's step: pushes the next byte of its pass (R93). With no pass running it has no step. -/
def rxDrainStep (s : State) : State :=
  match s.fifo.rxPass with
  | [] => s
  | b :: rest => rxPush b { s with fifo.rxPass := rest }

/-! Engine consumption (ENG) -/

/-- `RX_POP` (R97), up to the call of `on_byte`: enabled when `ENG = WAIT` and `RXQ` is not empty. -/
def rxPop (s : State) : Option (Byte × State) :=
  match s.eng, s.fifo.rxq with
  | .wait, c :: rest =>
    some (c, { s with fifo.rxq := rest, eng := .run (.onByte c), obs.taken := s.obs.taken ++ [c] })
  | _, _ => none

/-! Transmit path, producer side (ENG) -/

/-- `k` of `TX_PUT` (R100). -/
def putCount (s : State) : Nat := min s.engOut.length (s.cfg.cTx - s.fifo.txCount)

/-- `TX_PUT` (R100). -/
def txPut (s : State) : State :=
  { s with
    fifo.txm := s.fifo.txm.ringWrite s.cfg.cTx (s.fifo.txRd + s.fifo.txCount) (s.engOut.take (putCount s)),
    fifo.txCount := s.fifo.txCount + putCount s,
    engOut := s.engOut.drop (putCount s),
    eng := .send .ie }

/-- `TX_IE <- 1`, and the return of `Send` when every byte is enqueued (R101). -/
def txEnable (s : State) : State := sendReturn (setTxIe s)

/-- `TX_WAIT` (R102): may end at any time; then `Send` retries. -/
def txWait (s : State) : State := { clearSpace s with eng := .send .put }

/-! Transmit path, drain side (TXA) -/

/-- `TX_CLAIM_OP` on `tx_irq` (R103): enabled when `TX_IE = 1`, `TX_CLAIM = 0` and no commit is outstanding (R105). -/
def txClaim (s : State) : State :=
  if s.fifo.txIe = true ∧ s.fifo.txClaim = 0 ∧ s.fifo.txOpen = false then
    { s with fifo.txClaim := min s.fifo.txCount (s.cfg.cTx - s.fifo.txRd), fifo.txOpen := true }
  else s

/-- `TX_COMMIT_OP` with the draw `k ∈ [0, TX_CLAIM]` (R104): enabled after the claim. -/
def txCommit (k : Nat) (s : State) : Res :=
  if s.fifo.txOpen = true ∧ k ≤ s.fifo.txClaim then
    if s.fifo.txRd + k ≤ s.cfg.cTx then
      .next { s with
        obs.wire := s.obs.wire ++ s.fifo.txm.readList s.fifo.txRd k,
        fifo.txRd := (s.fifo.txRd + k) % s.cfg.cTx,
        fifo.txCount := s.fifo.txCount - k,
        fifo.txClaim := 0,
        fifo.txSpace := spaceAfter k s.fifo.txSpace,
        fifo.txIe := ieAfter (s.fifo.txCount - k) s.fifo.txIe,
        fifo.txOpen := false }
    else .fault (.txmIndex s.fifo.txRd k)
  else .next s

end Sys2Proof.Machine
end

