-- ==== Sys2Proof/Machine/Agents.lean ====
section
/-! DEFINITION. The agents (R20): what each event does, and `on_byte`, which fetches, decodes and executes one byte (R113). -/

namespace Sys2Proof.Machine

/-- `TimeoutCheck(now)` (R114), on the clock (R181). -/
def timeoutCheck (s : State) : State := if timedOut s then raise .idleTimeout s else s

/-- The instruction that a byte is, in the mode the state gives (R75). -/
def decodeByte (c : Byte) (s : State) : Except DecodeReject Instr :=
  decode s.cfg.codes s.ses.phase s.ses.activeCmd c

/-- `on_byte(c)` (R113): the timeout check, then the byte in the phase that check leaves. -/
def onByte (c : Byte) (s : State) : Res :=
  match decodeByte c (timeoutCheck s) with
  | .ok i => exec i (timeoutCheck s)
  | .error why => .fault (.activeCmd why)

/-- ENG's next step. While an SPI phase runs it waits for SPI_DEV (R154), and in WAIT with `RXQ` empty it has no step (R98). -/
def engineStep (s : State) : Res :=
  match s.eng with
  | .wait =>
    match rxPop s with
    | some (c, s) => onByte c s
    | none => .next s
  | .run (.onByte c) => onByte c s
  | .run .csAssert => .next (csAssertStep s)
  | .run .spiWrite => .next s
  | .run .spiRead => .next s
  | .run (.csRelease ok) => csReleaseStep ok s
  | .send .put => .next (txPut s)
  | .send .ie => .next (txEnable s)
  | .send .wait => .next (txWait s)

/-- CLK reaches `t`: the clock never goes back (R181). -/
def clockStep (t : U64) (s : State) : State := if s.clk.toNat ≤ t.toNat then { s with clk := t } else s

/-- The power-on reset event (R187). The environment (clock, schedule) goes on. -/
def resetStep (u : PowerOn) (s : State) : State := State.powerOn s.cfg u s.clk s.turns s.drawn

/-- What one event does. An event that is not enabled is no event: nothing happens (log entry 2). -/
def fire (t : Turn) (s : State) : Res :=
  match t with
  | .hostRx bs => .next (rxReady bs s)
  | .rxa => .next (rxDrainStep s)
  | .hostTx => .next (txClaim s)
  | .txa k => txCommit k s
  | .spiDev ok data => spiAnswer ok data s
  | .clk t => .next (clockStep t s)
  | .eng => engineStep s
  | .reset u => .next (resetStep u s)

/-- The event that comes next, and the state without it: the head of the schedule, and past its end a free value (R20). -/
def nextTurn (s : State) : Turn × State :=
  match s.turns with
  | t :: ts => (t, { s with turns := ts })
  | [] => (Config.freeTurn s.drawn, { s with drawn := s.drawn + 1 })

/-- `s` with a command byte where the engine takes its next one: at the head of `RXQ`, the engine in WAIT, `PHASE` AwaitCommand, the
engine next to move. -/
def placeByte (c : Byte) (s : State) : State :=
  { s with
    fifo.rxq := c :: s.fifo.rxq.tail,
    obs.accepted := s.obs.taken ++ c :: s.fifo.rxq.tail,
    ses.phase := .awaitCommand,
    eng := .wait,
    engOut := [],
    turns := .eng :: s.turns }

end Sys2Proof.Machine
end

