-- ==== Sys2Proof/Machine/Step.lean ====
section
/-! DEFINITION. One step: one event (R20, R65). -/

namespace Sys2Proof.Machine

/-- One atomic step of one agent. -/
def step (s : State) : Host.Outcome State Fault Refusal := fire (nextTurn s).1 (nextTurn s).2

/-- The state whose very next step fetches and runs the command byte `w` (log entry 10). An instruction is one byte, so no bits lie
above `nbits`. -/
def State.withFetchWord (s : State) (_nbits w : Nat) : State := placeByte (BitVec.ofNat 8 w) s

end Sys2Proof.Machine
end

