-- ==== Sys2Proof/Safety.lean ====
section
/-! DEFINITION. What a good state is: R48's invariants, the stronger invariant that every step keeps, the laws of the queues and of
the SPI history, and runs of steps. -/

namespace Sys2Proof.Machine

/-- The invariants of R48, item by item. Item (vii) speaks of the indices the block writes into `WB`: what is stored lies in range,
and a store out of range is `Fault.wbIndex`, which no step from a good state raises. -/
structure State.R48 (s : State) : Prop where
  /-- (i) -/
  rxq_le : s.fifo.rxq.length ≤ s.cfg.cRx
  /-- (ii) -/
  claim_le_count : s.fifo.txClaim ≤ s.fifo.txCount
  /-- (ii) -/
  count_le : s.fifo.txCount ≤ s.cfg.cTx
  /-- (iii) -/
  byteCnt_le : s.ses.byteCnt.toNat ≤ s.cfg.wCap
  /-- (iv) -/
  active_deferred : s.ses.phase = .awaitData → s.ses.activeCmd ∈ s.cfg.codes.deferred
  /-- (v) -/
  cs_released : (∀ pos, s.eng ≠ .run pos) → s.spi.cs = false
  /-- (vi) -/
  out_empty : s.eng = .wait → s.engOut = []
  /-- (vii) -/
  wb_below : ∀ cell ∈ s.ses.wb, cell.1 < s.cfg.wCap

/-- How far a frame can have come when the engine waits for its next data byte (R139, R140, R142, R147). -/
def frameProgress (s : State) : Prop :=
  (s.ses.activeCmd = s.cfg.codes.sBustype → s.ses.byteCnt.toNat = 0) ∧
  (s.ses.activeCmd = s.cfg.codes.oSpiop →
    s.ses.byteCnt.toNat < 6 ∨ (6 ≤ s.ses.byteCnt.toNat ∧ s.ses.byteCnt.toNat - 6 < s.ses.writeLen.toNat)) ∧
  (s.ses.activeCmd = s.cfg.codes.sSpiFreq → s.ses.byteCnt.toNat < 4)

/-- A transfer that `Execute` let through (R143, R156): the frame is whole, its payload lies in `WB` and its read data will. -/
def transferReady (s : State) : Prop :=
  s.ses.phase = .awaitData ∧ s.ses.activeCmd = s.cfg.codes.oSpiop ∧
  s.ses.byteCnt.toNat = 6 + s.ses.writeLen.toNat ∧ s.ses.readLen.toNat ≤ s.cfg.wCap ∧
  ¬ (s.ses.writeLen.toNat = 0 ∧ s.ses.readLen.toNat = 0)

/-- What holds at each place of the engine. -/
def engineInv (s : State) : Prop :=
  match s.eng with
  | .wait => s.spi.cs = false ∧ s.engOut = [] ∧ (s.ses.phase = .awaitData → frameProgress s)
  | .run (.onByte _) => False
  | .run .csAssert => s.spi.cs = false ∧ s.engOut = [] ∧ transferReady s
  | .run .spiWrite => s.spi.cs = true ∧ s.engOut = [] ∧ transferReady s ∧ 0 < s.ses.writeLen.toNat
  | .run .spiRead => s.spi.cs = true ∧ s.engOut = [] ∧ transferReady s ∧ 0 < s.ses.readLen.toNat
  | .run (.csRelease _) => s.spi.cs = true ∧ s.engOut = [] ∧ transferReady s
  | .send .put => s.spi.cs = false ∧ s.engOut ≠ [] ∧ s.ses.phase = .awaitCommand
  | .send .ie => s.spi.cs = false ∧ s.ses.phase = .awaitCommand
  | .send .wait => s.spi.cs = false ∧ s.engOut ≠ [] ∧ s.ses.phase = .awaitCommand

/-- The invariant that every step keeps: R48 and what it rests on. -/
structure State.Inv (s : State) : Prop extends State.R48 s where
  /-- R7. -/
  cfg_wf : s.cfg.Wf
  wb_wf : Memory.wf s.ses.wb
  txm_wf : Memory.wf s.fifo.txm
  txm_below : ∀ cell ∈ s.fifo.txm, cell.1 < s.cfg.cTx
  /-- R25. -/
  rd_lt : s.fifo.txRd < s.cfg.cTx
  /-- R103: the claimed chunk does not pass the ring's end. -/
  claim_room : s.fifo.txRd + s.fifo.txClaim ≤ s.cfg.cTx
  /-- R26. -/
  claim_closed : s.fifo.txOpen = false → s.fifo.txClaim = 0
  /-- R134: in AwaitCommand the counter is 0. -/
  count_zero : s.ses.phase = .awaitCommand → s.ses.byteCnt.toNat = 0
  engine : engineInv s
  /-- R38. -/
  fmax_eq : s.spi.fmax = s.cfg.fMax
  /-- R158, R161. -/
  freq_le : s.spi.freq = s.cfg.fReset ∨ s.spi.freq.toNat ≤ s.spi.fmax.toNat
  /-- R181: the stamp is not ahead of the clock. -/
  stamp_le : s.ses.phase = .awaitData → s.ses.lastAct.toNat ≤ s.clk.toNat

/-- The receive order law as an invariant (R66): what was accepted is what was taken and then what waits. -/
def State.RxLaw (s : State) : Prop := s.obs.accepted = s.obs.taken ++ s.fifo.rxq

/-- The transmit order law as an invariant (R67): what was handed to `Send` is the wire output, then the ring's contents, then what
`Send` has not yet copied. -/
def State.TxLaw (s : State) : Prop := s.obs.sent = s.obs.wire ++ s.fifo.txContents s.cfg.cTx ++ s.engOut

/-- No stranded bytes (R107), as the step keeps it: with bytes in the ring the interrupt is on, or `Send` is about to set it. -/
def State.NotStranded (s : State) : Prop := 0 < s.fifo.txCount → s.fifo.txIe = true ∨ s.eng = .send .ie

/-! The SPI history (R155, R157) -/

/-- How far a transaction has come. -/
inductive BusPhase where
  | released
  | asserted
  | wrote
  | read
  deriving DecidableEq, Repr

/-- The events R155 allows at each point: assert, then a write or a read, a read after a write, and release after a phase. -/
def busStep : BusPhase → SpiEvent → Option BusPhase
  | .released, .csAssert => some .asserted
  | .asserted, .write _ => some .wrote
  | .asserted, .read _ _ => some .read
  | .wrote, .read _ _ => some .read
  | .wrote, .csRelease => some .released
  | .read, .csRelease => some .released
  | _, _ => none

/-- Where a history ends, if every event in it came where R155 allows it. -/
def busRun (h : List SpiRecord) : Option BusPhase :=
  h.foldl (fun p r => p.bind (fun p => busStep p r.event)) (some .released)

/-- The point of the transaction at which an engine place stands. -/
def busPlace (eng : Eng) (p : BusPhase) : Prop :=
  match eng with
  | .run .spiWrite => p = .asserted
  | .run .spiRead => p = .asserted ∨ p = .wrote
  | .run (.csRelease _) => p = .wrote ∨ p = .read
  | .wait | .run (.onByte _) | .run .csAssert | .send _ => p = .released

/-- The SPI history is a sequence of whole transactions, with one open exactly while the engine is inside `transfer` (R157). -/
def State.BusLaw (s : State) : Prop := ∃ p, busRun s.obs.spi = some p ∧ busPlace s.eng p

/-! Runs -/

/-- `n` steps. -/
def steps : Nat → State → Res
  | 0, s => .next s
  | n + 1, s =>
    match step s with
    | .next t => steps n t
    | .fault r => .fault r
    | .refused r => .refused r

/-- The states a power-on reset leads to, under any configuration of R7, any unspecified register values, any clock and any
schedule. -/
inductive Reachable : State → Prop where
  | powerOn {cfg : Config} (wf : cfg.Wf) (u : PowerOn) (clk : U64) (turns : List Turn) (drawn : Nat) :
      Reachable (State.powerOn cfg u clk turns drawn)
  | step {s t : State} (h : Reachable s) (e : Sys2Proof.Machine.step s = .next t) : Reachable t

/-! Quiescence (R204) -/

/-- The conditions R204 lists. -/
structure State.Settled (s : State) : Prop where
  rxq_empty : s.fifo.rxq = []
  engine_waits : s.eng = .wait
  count_zero : s.fifo.txCount = 0
  claim_zero : s.fifo.txClaim = 0
  /-- No `rx_ready` event is pending: RXA has pushed its whole pass. -/
  pass_empty : s.fifo.rxPass = []

/-- Quiescence, the end of a run: what R204 lists, and its sentence that no agent has a step. With the ring empty TXA still has one (R106)
while its interrupt is on or while it stands between a claim and its commit, so neither holds (log entry 27). -/
structure State.Quiescent (s : State) : Prop extends State.Settled s where
  interrupt_off : s.fifo.txIe = false
  no_claim_open : s.fifo.txOpen = false

end Sys2Proof.Machine
end

