-- ==== Sys2Proof/Certificates/Slice0/Obligations.lean ====
section
/-! DEFINITION. The statements for the provers, and the few predicates they are written with. -/

open Sys2Proof Sys2Proof.Machine

namespace Sys2Proof.Claims

/-! Vocabulary -/

/-- The least significant `n` bytes of a value, least significant first (R10), by division. -/
def split (n v : Nat) : List Byte := (List.range n).map (fun i => BitVec.ofNat 8 (v / 2 ^ (8 * i)))

/-- What `t` keeps of `s` outside the session, the engine and what they put on record: the parameters, every register of the queues and
of the SPI master, the environment, and every other history. -/
structure Outside (s t : State) : Prop where
  cfg : t.cfg = s.cfg
  fifo : t.fifo = s.fifo
  spi : t.spi = s.spi
  clk : t.clk = s.clk
  turns : t.turns = s.turns
  drawn : t.drawn = s.drawn
  wire : t.obs.wire = s.obs.wire
  history : t.obs.spi = s.obs.spi
  log : t.obs.log = s.obs.log
  accepted : t.obs.accepted = s.obs.accepted
  taken : t.obs.taken = s.obs.taken

/-- `t` has handed `resp` to `Send`, and raised `errs` on the way. -/
structure Answers (s t : State) (resp : List Byte) (errs : List ErrorClass) : Prop where
  eng : t.eng = .send .put
  out : t.engOut = resp
  sent : t.obs.sent = s.obs.sent ++ resp
  errors : t.obs.errors = s.obs.errors ++ errs

/-- `t` waits for the next byte, with nothing sent and nothing raised. -/
structure Waits (s t : State) : Prop where
  eng : t.eng = .wait
  out : t.engOut = s.engOut
  sent : t.obs.sent = s.obs.sent
  errors : t.obs.errors = s.obs.errors

/-- The work buffer of `t`: `bs` from index `i` on, and every other byte as in `s`. -/
def Stored (s t : State) (i : Nat) (bs : List Byte) : Prop :=
  ∀ a, t.ses.wb.read a = if i ≤ a ∧ a < i + bs.length then bs.getD (a - i) 0x00#8 else s.ses.wb.read a

/-- `WRITE_LEN` and `READ_LEN` are as they were. -/
def LengthsKept (s t : State) : Prop := t.ses.writeLen = s.ses.writeLen ∧ t.ses.readLen = s.ses.readLen

/-- What R116–R118 give an immediate command or an unrecognized code whose response is `resp`: the response, `BYTE_CNT = 0`,
`WB[0..|resp|)`, and no other change. -/
structure Immediate (s t : State) (resp : List Byte) (errs : List ErrorClass) : Prop where
  answers : Answers s t resp errs
  outside : Outside s t
  byteCnt : t.ses.byteCnt = 0#32
  phase : t.ses.phase = s.ses.phase
  activeCmd : t.ses.activeCmd = s.ses.activeCmd
  lastAct : t.ses.lastAct = s.ses.lastAct
  lengths : LengthsKept s t
  wb : Stored s t 0 resp

/-- The end of a data phase (R45, R137): the response handed to `Send`, the session back in AwaitCommand. -/
structure Completes (s t : State) (resp : List Byte) (errs : List ErrorClass) : Prop where
  answers : Answers s t resp errs
  phase : t.ses.phase = .awaitCommand
  byteCnt : t.ses.byteCnt = 0#32
  lastAct : t.ses.lastAct = s.clk
  activeCmd : t.ses.activeCmd = s.ses.activeCmd

/-- A data byte that does not complete its frame (R137): counted, stamped, nothing sent. -/
structure Accumulates (s t : State) : Prop where
  waits : Waits s t
  phase : t.ses.phase = s.ses.phase
  byteCnt : t.ses.byteCnt = s.ses.byteCnt + 1#32
  lastAct : t.ses.lastAct = s.clk
  activeCmd : t.ses.activeCmd = s.ses.activeCmd

/-- A data byte after which `transfer` begins (R143, R155): its first step is `CsAssert()`. -/
structure BeginsTransfer (s t : State) : Prop where
  eng : t.eng = .run .csAssert
  out : t.engOut = s.engOut
  sent : t.obs.sent = s.obs.sent
  errors : t.obs.errors = s.obs.errors
  phase : t.ses.phase = s.ses.phase
  byteCnt : t.ses.byteCnt = s.ses.byteCnt + 1#32
  lastAct : t.ses.lastAct = s.clk
  activeCmd : t.ses.activeCmd = s.ses.activeCmd

/-- `Execute()` (R143, R156): the read-length guard, the both-zero failure, or the transfer. -/
def Executes (s t : State) : Prop :=
  if s.cfg.wCap < t.ses.readLen.toNat then Completes s t [s.cfg.nak] [.overflowGuard]
  else if t.ses.writeLen.toNat = 0 ∧ t.ses.readLen.toNat = 0 then Completes s t [s.cfg.nak] [.busFailure]
  else BeginsTransfer s t

/-- Header byte `j` once the sixth data byte `c` is in (R140). -/
def headerByteAt (s : State) (c : Byte) (j : Nat) : Nat := if j = 5 then c.toNat else (s.ses.wb.read j).toNat

/-- Frequency byte `j` once the fourth data byte `c` is in (R147). -/
def freqByteAt (s : State) (c : Byte) (j : Nat) : Byte := if j = 3 then c else s.ses.wb.read j

/-- The value of the four frequency bytes (R10, R148). -/
def freqValue (s : State) (c : Byte) : Nat :=
  (freqByteAt s c 0).toNat + 2 ^ 8 * (freqByteAt s c 1).toNat + 2 ^ 16 * (freqByteAt s c 2).toNat +
    2 ^ 24 * (freqByteAt s c 3).toNat

/-- `s` stands at a command byte with the frame `frame` next in `RXQ`, the engine idle. -/
structure AtFrame (s : State) (frame rest : List Byte) (sched : List Turn) (ts : List Turn) : Prop where
  cfg : s.cfg.Wf
  eng : s.eng = .wait
  phase : s.ses.phase = .awaitCommand
  rxq : s.fifo.rxq = frame ++ rest
  turns : s.turns = sched ++ ts

/-- What whole-frame statements say of the end: the frame consumed, the schedule used up, the response on its way, the session in
AwaitCommand, the queues and the clock untouched but for the pops. -/
structure FrameDone (s t : State) (frame rest : List Byte) (ts : List Turn) (resp : List Byte) (errs : List ErrorClass) :
    Prop where
  answers : Answers s t resp errs
  phase : t.ses.phase = .awaitCommand
  byteCnt : t.ses.byteCnt = 0#32
  rxq : t.fifo.rxq = rest
  taken : t.obs.taken = s.obs.taken ++ frame
  turns : t.turns = ts
  cs : t.spi.cs = s.spi.cs

/-- The events SPI_DEV and the engine take for one `transfer` of the given lengths (R155): assert, the write's answer, the read's answer
unless the write failed, release. -/
def transferTurns (w r : Nat) (okW okR : Bool) (x data : List Byte) : List Turn :=
  [.eng] ++ (if 0 < w then [.spiDev okW x] else []) ++
    (if (w = 0 ∨ okW = true) ∧ 0 < r then [.spiDev okR data] else []) ++ [.eng]

/-- The SPI events of that transfer (R155, R156). -/
def transferEvents (d : List Byte) (r : Nat) (okW : Bool) (fill : Option Byte) : List SpiEvent :=
  [.csAssert] ++ (if 0 < d.length then [.write d] else []) ++
    (if (d.length = 0 ∨ okW = true) ∧ 0 < r then [.read r fill] else []) ++ [.csRelease]

/-- Its result (R155): the first failure, or success. -/
def transferOk (w r : Nat) (okW okR : Bool) : Bool := (w == 0 || okW) && (r == 0 || okR)

end Sys2Proof.Claims

open Sys2Proof.Claims

/-! Encoding -/

/-- R74, R75, R84, R85: the byte of every well-formed instruction, read in the instruction's own mode, is that instruction, with every
data byte and every unrecognized code. -/
def Obligations.EncodeThenDecodeGivesInstruction : Prop :=
  ∀ (cc : CmdCodes) (any : Byte) (i : Instr), cc.supported.Nodup → i.wf cc = true →
    decode cc i.phase (i.active cc any) (encode cc i) = .ok i

/-- The other direction: whatever the decoder reads, in either mode, is well-formed, belongs to that mode, and encodes back to the byte
read. -/
def Obligations.DecodeThenEncodeGivesByte : Prop :=
  ∀ (cc : CmdCodes) (ph : Phase) (active c : Byte) (i : Instr), cc.supported.Nodup → decode cc ph active c = .ok i →
    encode cc i = c ∧ i.wf cc = true ∧ i.phase = ph

/-- R75, R32: in AwaitData every byte of a deferred command decodes as its data byte, and the decoder stops only where `ACTIVE_CMD` is no
deferred command's code. -/
def Obligations.DataPhaseNeverDecodesACommand : Prop :=
  ∀ (cc : CmdCodes) (active c : Byte), cc.supported.Nodup →
    (active = cc.sBustype → decode cc .awaitData active c = .ok (.sBustype (.data c))) ∧
    (active = cc.oSpiop → decode cc .awaitData active c = .ok (.oSpiop (.data c))) ∧
    (active = cc.sSpiFreq → decode cc .awaitData active c = .ok (.sSpiFreq (.data c))) ∧
    (active ∉ cc.deferred → decode cc .awaitData active c = .error (.activeCmdNotDeferred active))

/-- R77, R84 under the default codes (PRESUMED, log entry 5): all thirteen rows of the table, and that exactly 0x06, 0x09–0x0F and 0x15–0xFF
are unrecognized. -/
def Obligations.DefaultCodesDecodeAsTabled : Prop :=
  [0x00#8, 0x01#8, 0x02#8, 0x03#8, 0x04#8, 0x05#8, 0x07#8, 0x08#8, 0x10#8, 0x11#8, 0x12#8, 0x13#8, 0x14#8].map
      (decodeCommand CmdCodes.serprog) =
    [.nop, .qIface, .qCmdmap, .qPgmname, .qSerbuf, .qBustype, .qOpbuf, .qWrnmaxlen, .syncnop, .qRdnmaxlen, .sBustype .code,
      .oSpiop .code, .sSpiFreq .code] ∧
  ∀ c : Byte, decodeCommand CmdCodes.serprog c = .unrecognized c ↔
    (c = 0x06#8 ∨ (0x09 ≤ c.toNat ∧ c.toNat ≤ 0x0F) ∨ 0x15 ≤ c.toNat)

/-- R73, R76, R79–R81: each frame of R89's notation, followed by anything, is cut off the stream as the instructions its bytes are: the
one-byte frames of the immediate commands and of the unrecognized codes, and the three deferred frames. -/
def Obligations.FramesParseByteForByte : Prop :=
  ∀ (cc : CmdCodes) (t : Byte) (f : U32) (wl rl : U24) (d more : List Byte), cc.supported.Nodup →
    payloadWf wl d = true →
    (∀ i ∈ [Instr.nop, .qIface, .qCmdmap, .qPgmname, .qSerbuf, .qBustype, .qOpbuf, .qWrnmaxlen, .syncnop, .qRdnmaxlen],
      parseFrame cc (encode cc i :: more) = some ([i], more)) ∧
    (∀ code, code ∉ cc.supported → parseFrame cc (code :: more) = some ([.unrecognized code], more)) ∧
    parseFrame cc (frameBustype cc t ++ more) = some ([.sBustype .code, .sBustype (.data t)], more) ∧
    parseFrame cc (frameFreq cc f ++ more) =
      some (.sSpiFreq .code :: (split 4 f.toNat).map (fun b => .sSpiFreq (.data b)), more) ∧
    parseFrame cc (frameSpiop cc wl rl d ++ more) =
      some (.oSpiop .code :: (split 3 wl.toNat ++ split 3 rl.toNat ++ d).map (fun b => .oSpiop (.data b)), more)

/-- R10, R79, R80: the little-endian splits and assemblies are inverse, and the header and frequency fields read back what was put in. -/
def Obligations.LittleEndianFieldsReadBack : Prop :=
  (∀ v : U16, le16 v = split 2 v.toNat ∧ le (le16 v) = v.toNat) ∧
  (∀ v : U24, le24 v = split 3 v.toNat ∧ le (le24 v) = v.toNat) ∧
  (∀ v : U32, le32 v = split 4 v.toNat ∧ le (le32 v) = v.toNat ∧ frequencyOf (le32 v) = v) ∧
  (∀ w r : U24, headerWriteLen (le24 w ++ le24 r) = w ∧ headerReadLen (le24 w ++ le24 r) = r)

/-- R86, R78: the command bitmap has 32 bytes, and bit `k mod 8` of byte `k div 8` is set exactly for the codes `k` the decoder
supports. -/
def Obligations.CommandBitmapMatchesDecoder : Prop :=
  ∀ (cc : CmdCodes) (k : Byte), (cmdMap cc).length = 32 ∧
    (((cmdMap cc).getD (k.toNat / 8) 0x00#8).getLsbD (k.toNat % 8) = true ↔ decodeCommand cc k ≠ .unrecognized k)

/-! Reset -/

/-- R187: what the reset event leaves, whatever the state before it. The model's own choices in it: the registers R22 calls unspecified hold
what the event drew (log entry 8); an index of `WB` or `TXM` past the drawn bytes reads 0x00 (log entry 9), and a draw may be of any
length; the event may come in any state (log entry 21). -/
def Obligations.PowerOnResetValues : Prop :=
  ∀ (u : PowerOn) (s : State), ∃ t, fire (.reset u) s = .next t ∧
    t.ses.phase = .awaitCommand ∧ t.ses.byteCnt = 0#32 ∧ t.fifo.rxq = [] ∧ t.fifo.rxDrops = 0#32 ∧ t.fifo.txCount = 0 ∧
    t.fifo.txClaim = 0 ∧ t.fifo.txRd = 0 ∧ t.fifo.txIe = false ∧ t.fifo.txSpace = false ∧ t.spi.cs = false ∧
    t.spi.freq = s.cfg.fReset ∧ t.spi.fmax = s.cfg.fMax ∧ t.eng = .wait ∧ t.engOut = [] ∧ t.cfg = s.cfg ∧
    t.ses.activeCmd = u.activeCmd ∧ t.ses.lastAct = u.lastAct ∧ t.ses.writeLen = u.writeLen ∧ t.ses.readLen = u.readLen ∧
    (∀ i, i < s.cfg.wCap → t.ses.wb.read i = u.wb.getD i 0x00#8) ∧
    (∀ i, i < s.cfg.cTx → t.fifo.txm.read i = u.txm.getD i 0x00#8)

/-- R45, R189: a session reset writes `PHASE` and `BYTE_CNT` and nothing else. -/
def Obligations.SessionResetTouchesTwoRegisters : Prop :=
  ∀ s : State, sessionReset s = { s with ses := { s.ses with phase := .awaitCommand, byteCnt := 0#32 } }

/-- Every power-on state meets the invariant, and so does the model's reset state, which is what some reset event leaves. -/
def Obligations.PowerOnMeetsInvariant : Prop :=
  (∀ (cfg : Config) (u : PowerOn) (clk : U64) (ts : List Turn) (n : Nat), cfg.Wf → (State.powerOn cfg u clk ts n).Inv) ∧
  State.reset.Inv ∧ ∃ u : PowerOn, fire (.reset u) State.reset = .next State.reset

/-- R188: after power-on the first accepted byte is processed in AwaitCommand, with no timeout pending, whatever the clock and the
unspecified `LAST_ACT` say. -/
def Obligations.FirstByteAfterPowerOnIsACommand : Prop :=
  ∀ (cfg : Config) (u : PowerOn) (clk : U64) (ts : List Turn) (n : Nat) (b : Byte), cfg.Wf →
    steps 3 (State.powerOn cfg u clk (.hostRx [b] :: .rxa :: .eng :: ts) n) =
      exec (decodeCommand cfg.codes b)
        { State.powerOn cfg u clk ts n with
          eng := .run (.onByte b)
          obs := { wire := [], spi := [], log := [], errors := [], accepted := [b], taken := [b], sent := [] } }

/-! Invariants -/

/-- Every step keeps the invariant (R48 and what it rests on), from every state that meets it. -/
def Obligations.StepKeepsInvariant : Prop :=
  ∀ s t : State, s.Inv → step s = .next t → t.Inv

/-- "No behaviour of the block stops the model with an error": from every state that meets the invariant, every event leads to a next
state. -/
def Obligations.BlockNeverStops : Prop :=
  ∀ (s : State) (turn : Turn), s.Inv → ∃ t, fire turn s = .next t

/-- R48, all seven items: (i) to (vi) and the cells of the work buffer as `State.R48` has them, and (vii) that no event indexes `WB` outside
`[0, W_CAP)`, which the model says as: no event ends in `Fault.wbIndex` (the stop of such an access is the model's choice, log entry
12). -/
def Obligations.ReachableStatesMeetR48 : Prop :=
  ∀ s : State, Reachable s → s.R48 ∧ ∀ (turn : Turn) (i n : Nat), fire turn s ≠ .fault (.wbIndex i n)

/-- R66: every step keeps the receive order law, and in every reachable state the bytes passed to `on_byte` are a prefix of the accepted
ones. -/
def Obligations.ReceiveOrderLaw : Prop :=
  (∀ s t : State, s.RxLaw → step s = .next t → t.RxLaw) ∧
  ∀ s : State, Reachable s → ∃ waiting, s.obs.accepted = s.obs.taken ++ waiting

/-- R67: every step keeps the transmit order law, and in every reachable state the wire output is a prefix of what was handed to
`Send`. -/
def Obligations.TransmitOrderLaw : Prop :=
  (∀ s t : State, s.Inv → s.TxLaw → step s = .next t → t.TxLaw) ∧
  ∀ s : State, Reachable s → ∃ pending, s.obs.sent = s.obs.wire ++ pending

/-- R107: every step keeps it, and in every reachable state outside `SEND` with no open claim, bytes in the ring mean the interrupt is
on. -/
def Obligations.NoStrandedBytes : Prop :=
  (∀ s t : State, s.NotStranded → step s = .next t → t.NotStranded) ∧
  ∀ s : State, Reachable s → (∀ pos, s.eng ≠ .send pos) → s.fifo.txClaim = 0 → 0 < s.fifo.txCount → s.fifo.txIe = true

/-- R157: every step keeps the SPI history a sequence of whole transactions (one assert, its phases, one release), one of them open exactly
while the engine is inside `transfer`. -/
def Obligations.ChipSelectHoldLaw : Prop :=
  (∀ s t : State, s.Inv → s.BusLaw → step s = .next t → t.BusLaw) ∧
  ∀ s : State, Reachable s → s.BusLaw

/-! The agents -/

/-- R94: a push queues the byte, or, when `RXQ` is full, drops it, counts it and logs it; nothing else changes but the pass. -/
def Obligations.ReceivePushQueuesOrDrops : Prop :=
  ∀ (s : State) (b : Byte) (rest : List Byte), s.fifo.rxPass = b :: rest →
    (s.fifo.rxq.length < s.cfg.cRx → fire .rxa s = .next
      { s with
        fifo := { s.fifo with rxPass := rest, rxq := s.fifo.rxq ++ [b] }
        obs := { s.obs with accepted := s.obs.accepted ++ [b] } }) ∧
    (s.cfg.cRx ≤ s.fifo.rxq.length → fire .rxa s = .next
      { s with
        fifo := { s.fifo with
          rxPass := rest
          rxDrops := if s.fifo.rxDrops.toNat = 2 ^ 32 - 1 then s.fifo.rxDrops else s.fifo.rxDrops + 1#32 }
        obs := { s.obs with log := s.obs.log ++ [.rxDrop], errors := s.obs.errors ++ [.transportOverflow] } })

/-- R93, R94: a whole pass with no other step between its pushes takes the first bytes that fit, in order, counts and logs the others, and
changes nothing else. -/
def Obligations.ReceivePassTakesWhatFits : Prop :=
  ∀ (s : State) (bs : List Byte) (ts : List Turn), bs ≠ [] → s.fifo.rxPass = [] →
    s.turns = .hostRx bs :: (List.replicate bs.length .rxa ++ ts) →
    ∃ t, steps (1 + bs.length) s = .next t ∧
      t.fifo.rxDrops.toNat = min (2 ^ 32 - 1) (s.fifo.rxDrops.toNat + (bs.length - (s.cfg.cRx - s.fifo.rxq.length))) ∧
      t.fifo =
        { s.fifo with
          rxq := s.fifo.rxq ++ bs.take (s.cfg.cRx - s.fifo.rxq.length)
          rxDrops := t.fifo.rxDrops
          rxPass := [] } ∧
      t.obs =
        { s.obs with
          accepted := s.obs.accepted ++ bs.take (s.cfg.cRx - s.fifo.rxq.length)
          log := s.obs.log ++ List.replicate (bs.length - (s.cfg.cRx - s.fifo.rxq.length)) .rxDrop
          errors := s.obs.errors ++ List.replicate (bs.length - (s.cfg.cRx - s.fifo.rxq.length)) .transportOverflow } ∧
      t = { s with turns := ts, fifo := t.fifo, obs := t.obs }

/-- R110: but for a power-on reset, the drop counter grows by exactly one where RXA meets a full queue, until it saturates, and changes
nowhere else. -/
def Obligations.DropCounterIsMonotone : Prop :=
  ∀ (s t : State) (turn : Turn), (∀ u, turn ≠ .reset u) → fire turn s = .next t →
    t.fifo.rxDrops.toNat =
      if turn = .rxa ∧ s.fifo.rxPass ≠ [] ∧ s.cfg.cRx ≤ s.fifo.rxq.length then min (2 ^ 32 - 1) (s.fifo.rxDrops.toNat + 1)
      else s.fifo.rxDrops.toNat

/-- R95, R109, R178: the interrupt agents leave the parser, the SPI master and the engine alone, and each leaves the other queue alone. -/
def Obligations.InterruptAgentsTouchTheirQueueOnly : Prop :=
  ∀ (s t : State) (turn : Turn), fire turn s = .next t →
    ((turn = .rxa ∨ ∃ bs, turn = .hostRx bs) →
      t.cfg = s.cfg ∧ t.ses = s.ses ∧ t.spi = s.spi ∧ t.eng = s.eng ∧ t.engOut = s.engOut ∧ t.clk = s.clk ∧
      t.obs.wire = s.obs.wire ∧ t.obs.spi = s.obs.spi ∧ t.obs.sent = s.obs.sent ∧
      t.fifo = { s.fifo with rxq := t.fifo.rxq, rxDrops := t.fifo.rxDrops, rxPass := t.fifo.rxPass }) ∧
    ((turn = .hostTx ∨ ∃ k, turn = .txa k) →
      t.cfg = s.cfg ∧ t.ses = s.ses ∧ t.spi = s.spi ∧ t.eng = s.eng ∧ t.engOut = s.engOut ∧ t.clk = s.clk ∧
      t.obs = { s.obs with wire := t.obs.wire } ∧ t.fifo.txm = s.fifo.txm ∧ t.fifo.rxq = s.fifo.rxq ∧
      t.fifo.rxDrops = s.fifo.rxDrops ∧ t.fifo.rxPass = s.fifo.rxPass)

/-- R70, R97, R99: `RXQ` changes only by RXA appending a byte of its pass and by the engine, waiting, taking the head. -/
def Obligations.ReceiveQueueIsFifo : Prop :=
  ∀ (s t : State) (turn : Turn), (∀ u, turn ≠ .reset u) → fire turn s = .next t →
    (t.fifo.rxq = s.fifo.rxq ∧ t.obs.taken = s.obs.taken ∧ t.obs.accepted = s.obs.accepted) ∨
    (∃ b, turn = .rxa ∧ t.fifo.rxq = s.fifo.rxq ++ [b] ∧ t.obs.accepted = s.obs.accepted ++ [b] ∧
      s.fifo.rxPass = b :: t.fifo.rxPass ∧ t.obs.taken = s.obs.taken) ∨
    (∃ c, turn = .eng ∧ s.eng = .wait ∧ s.fifo.rxq = c :: t.fifo.rxq ∧ t.obs.taken = s.obs.taken ++ [c] ∧
      t.obs.accepted = s.obs.accepted)

/-- R100: the put copies what fits to the end of the ring's contents, moves nothing that was there, and changes nothing else. -/
def Obligations.PutAppendsWhatFits : Prop :=
  ∀ s : State, s.eng = .send .put → s.fifo.txCount ≤ s.cfg.cTx →
    ∃ t, fire .eng s = .next t ∧
      t.fifo.txContents s.cfg.cTx =
        s.fifo.txContents s.cfg.cTx ++ s.engOut.take (min s.engOut.length (s.cfg.cTx - s.fifo.txCount)) ∧
      t.engOut = s.engOut.drop (min s.engOut.length (s.cfg.cTx - s.fifo.txCount)) ∧
      t.fifo.txCount = s.fifo.txCount + min s.engOut.length (s.cfg.cTx - s.fifo.txCount) ∧
      (∀ a, (∀ j, j < min s.engOut.length (s.cfg.cTx - s.fifo.txCount) →
          (s.fifo.txRd + s.fifo.txCount + j) % s.cfg.cTx ≠ a) → t.fifo.txm.read a = s.fifo.txm.read a) ∧
      t.fifo = { s.fifo with txm := t.fifo.txm, txCount := t.fifo.txCount } ∧
      t = { s with fifo := t.fifo, engOut := t.engOut, eng := .send .ie }

/-- R101, R102: after the put the interrupt is enabled; with nothing left `Send` returns, otherwise it waits, and after the wait, which
clears the signal, it puts again. -/
def Obligations.SendLoopSteps : Prop :=
  ∀ s : State,
    (s.eng = .send .ie → fire .eng s = .next
      { s with fifo := { s.fifo with txIe := true }, eng := if s.engOut = [] then .wait else .send .wait }) ∧
    (s.eng = .send .wait → fire .eng s = .next
      { s with fifo := { s.fifo with txSpace := false }, eng := .send .put })

/-- R101: with room for all of it, a response is enqueued by the engine's next two steps, behind what the ring held. -/
def Obligations.SendReturnsWhenThereIsRoom : Prop :=
  ∀ (s : State) (ts : List Turn), s.eng = .send .put → s.turns = .eng :: .eng :: ts →
    s.fifo.txCount + s.engOut.length ≤ s.cfg.cTx →
    ∃ t, steps 2 s = .next t ∧ t.eng = .wait ∧ t.engOut = [] ∧ t.turns = ts ∧ t.fifo.txIe = true ∧
      t.fifo.txContents s.cfg.cTx = s.fifo.txContents s.cfg.cTx ++ s.engOut ∧
      t.fifo.rxq = s.fifo.rxq ∧ t.ses = s.ses ∧ t.spi = s.spi

/-- R103: the claim, where it is enabled, and that it is no step elsewhere. -/
def Obligations.ClaimTakesContiguousChunk : Prop :=
  ∀ s : State,
    (s.fifo.txIe = true → s.fifo.txClaim = 0 → s.fifo.txOpen = false → fire .hostTx s = .next
      { s with fifo := { s.fifo with txClaim := min s.fifo.txCount (s.cfg.cTx - s.fifo.txRd), txOpen := true } }) ∧
    (s.fifo.txIe = false ∨ s.fifo.txClaim ≠ 0 ∨ s.fifo.txOpen = true → fire .hostTx s = .next s)

/-- R104: the commit of `k` accepted bytes sends the ring's first `k` bytes and frees them, signals space when it freed any, and turns the
interrupt off when nothing is left, in one step. -/
def Obligations.CommitSendsAndFrees : Prop :=
  ∀ (s : State) (k : Nat), s.fifo.txOpen = true → k ≤ s.fifo.txClaim → s.fifo.txClaim ≤ s.fifo.txCount →
    s.fifo.txRd + s.fifo.txClaim ≤ s.cfg.cTx →
    ∃ t, fire (.txa k) s = .next t ∧
      t.obs = { s.obs with wire := s.obs.wire ++ (s.fifo.txContents s.cfg.cTx).take k } ∧
      t.fifo.txContents s.cfg.cTx = (s.fifo.txContents s.cfg.cTx).drop k ∧
      t.fifo =
        { s.fifo with
          txRd := (s.fifo.txRd + k) % s.cfg.cTx
          txCount := s.fifo.txCount - k
          txClaim := 0
          txSpace := if k = 0 then s.fifo.txSpace else true
          txIe := if s.fifo.txCount = k then false else s.fifo.txIe
          txOpen := false } ∧
      t = { s with fifo := t.fifo, obs := t.obs }

/-- R106: an interrupt on an empty ring claims nothing, sends nothing, and turns itself off. -/
def Obligations.EmptyInterruptTurnsItselfOff : Prop :=
  ∀ (s : State) (ts : List Turn), s.fifo.txIe = true → s.fifo.txCount = 0 → s.fifo.txClaim = 0 → s.fifo.txOpen = false →
    s.fifo.txRd < s.cfg.cTx → s.turns = .hostTx :: .txa 0 :: ts →
    steps 2 s = .next { s with turns := ts, fifo := { s.fifo with txIe := false } }

/-- R193: with the ring full and the host accepting nothing, the engine stays in `SEND` with the same bytes pending; no byte is processed
and nothing is sent, whatever else happens. -/
def Obligations.BackpressureHangIsKept : Prop :=
  ∀ (s t : State) (turn : Turn) (pos : SendPos), s.eng = .send pos → s.engOut ≠ [] → s.fifo.txCount = s.cfg.cTx →
    (∀ u, turn ≠ .reset u) → (∀ k, turn = .txa k → k = 0) → fire turn s = .next t →
    (∃ pos, t.eng = .send pos) ∧ t.engOut = s.engOut ∧ t.fifo.txCount = t.cfg.cTx ∧ t.obs.taken = s.obs.taken ∧
      t.obs.wire = s.obs.wire ∧ t.ses = s.ses

/-- R204, with R98, R103, R106 and R107: in a quiescent state no agent has a step. The other way round, a state that meets the invariants and
in which no agent has a step is quiescent. And where R204's listed conditions hold, the interrupt on the empty ring, if it is still to come,
leads to a quiescent state with nothing else changed. That quiescence includes `TX_IE = 0` and no open claim is read from R204's sentence,
log entry 27. -/
def Obligations.QuiescentAgentsHaveNoStep : Prop :=
  (∀ s : State, s.Quiescent →
    fire .rxa s = .next s ∧ fire .eng s = .next s ∧ (∀ ok data, fire (.spiDev ok data) s = .next s) ∧
    fire .hostTx s = .next s ∧ ∀ k, fire (.txa k) s = .next s) ∧
  (∀ s : State, s.Inv → s.NotStranded →
    fire .rxa s = .next s → fire .eng s = .next s → (∀ ok data, fire (.spiDev ok data) s = .next s) →
    fire .hostTx s = .next s → (∀ k, fire (.txa k) s = .next s) → s.Quiescent) ∧
  ∀ (s : State) (ts : List Turn), s.Settled → s.fifo.txRd < s.cfg.cTx → s.turns = .hostTx :: .txa 0 :: ts →
    ∃ t, steps 2 s = .next t ∧ t.Quiescent ∧
      t = { s with turns := ts, fifo := { s.fifo with txIe := false, txOpen := false } }

/-- R181: the clock never goes back; CLK's event sets it to any value that is not in the past and changes nothing else (a value in the past
is no event, log entry 2); and no other event moves it (that a power-on reset leaves it is log entry 21). -/
def Obligations.ClockNeverGoesBack : Prop :=
  (∀ s t : State, step s = .next t → s.clk.toNat ≤ t.clk.toNat) ∧
  (∀ (s : State) (v : U64),
    (s.clk.toNat ≤ v.toNat → fire (.clk v) s = .next { s with clk := v }) ∧
    (v.toNat < s.clk.toNat → fire (.clk v) s = .next s)) ∧
  ∀ (s t : State) (turn : Turn), (∀ v, turn ≠ .clk v) → fire turn s = .next t → t.clk = s.clk

/-! Bytes -/

/-- R97, R113: with the engine's turn next, the engine waiting and a byte in `RXQ`, the step pops the byte, makes the timeout check, and is
`exec` of the instruction the decoder reads in the phase that leaves. Where the decoder reads none, which R48 (iv) rules out and to which
the spec gives no effect, the step is a fault: that clause is the model's choice, log entry 13. -/
def Obligations.StepRunsTheDecodedInstruction : Prop :=
  ∀ (s : State) (ts : List Turn) (c : Byte) (rest : List Byte), s.turns = .eng :: ts → s.eng = .wait →
    s.fifo.rxq = c :: rest →
    ∀ popped checked : State,
      popped = { s with
        turns := ts
        fifo := { s.fifo with rxq := rest }
        eng := .run (.onByte c)
        obs := { s.obs with taken := s.obs.taken ++ [c] } } →
      checked = (if s.ses.phase = .awaitData ∧ s.cfg.tData.toNat < s.clk.toNat - s.ses.lastAct.toNat then
        { popped with
          ses := { s.ses with phase := .awaitCommand, byteCnt := 0#32 }
          obs := { popped.obs with log := s.obs.log ++ [.dataTimeout], errors := s.obs.errors ++ [.idleTimeout] } }
        else popped) →
      (∀ i, decode checked.cfg.codes checked.ses.phase checked.ses.activeCmd c = .ok i → step s = exec i checked) ∧
      (∀ why, decode checked.cfg.codes checked.ses.phase checked.ses.activeCmd c = .error why →
        step s = .fault (.activeCmd why))

/-- R98: with nothing received the waiting engine has no step. -/
def Obligations.IdleEngineWaits : Prop :=
  ∀ s : State, s.eng = .wait → s.fifo.rxq = [] → fire .eng s = .next s

/-- R114: a byte that comes more than `T_DATA` ms after the last stamp is read as a command of a reset session; at exactly `T_DATA` it is
still a data byte; in AwaitCommand the clock plays no part. The stamp is not ahead of the clock (an invariant, R181). -/
def Obligations.TimeoutReadsByteAsCommand : Prop :=
  ∀ (s : State) (c : Byte),
    (s.ses.phase = .awaitData → s.ses.lastAct.toNat ≤ s.clk.toNat →
      s.cfg.tData.toNat < s.clk.toNat - s.ses.lastAct.toNat →
      onByte c s = exec (decodeCommand s.cfg.codes c)
        { s with
          ses := { s.ses with phase := .awaitCommand, byteCnt := 0#32 }
          obs := { s.obs with log := s.obs.log ++ [.dataTimeout], errors := s.obs.errors ++ [.idleTimeout] } }) ∧
    (s.ses.phase = .awaitData → s.ses.lastAct.toNat ≤ s.clk.toNat →
      s.clk.toNat - s.ses.lastAct.toNat ≤ s.cfg.tData.toNat →
      ∀ i, decodeData s.cfg.codes s.ses.activeCmd c = .ok i → onByte c s = exec i s) ∧
    (s.ses.phase = .awaitCommand → onByte c s = exec (decodeCommand s.cfg.codes c) s)

/-- R172, R173: one byte raises at most a timeout, first, and one of the three classes that answer `[NAK]`; a transport overflow is never
the engine's. -/
def Obligations.OneErrorPerByte : Prop :=
  ∀ s t : State, fire .eng s = .next t →
    ∃ before after, t.obs.errors = s.obs.errors ++ before ++ after ∧
      (before = [] ∨ (before = [.idleTimeout] ∧ s.ses.phase = .awaitData)) ∧
      (after = [] ∨ ((after = [.overflowGuard] ∨ after = [.protocolViolation] ∨ after = [.busFailure]) ∧
        t.engOut = [s.cfg.nak] ∧ t.eng = .send .put))

/-- R134, R87, R101: a response is never empty; it is `[NAK]`, or begins with ACK, or is SYNCNOP's. -/
def Obligations.ResponsesBeginWithStatus : Prop :=
  ∀ (i : Instr) (s t : State), exec i s = .next t → t.eng = .send .put →
    t.engOut = [s.cfg.nak] ∨ (∃ payload, t.engOut = s.cfg.ack :: payload) ∨
      (i = .syncnop ∧ t.engOut = [s.cfg.nak, s.cfg.ack])

/-! Immediate commands -/

/-- R120, R125, R128, with R116–R118. -/
def Obligations.NopBustypeSyncnopAnswer : Prop :=
  ∀ s : State, s.cfg.Wf →
    (∃ t, exec .nop s = .next t ∧ Immediate s t [s.cfg.ack] []) ∧
    (∃ t, exec .qBustype s = .next t ∧ Immediate s t [s.cfg.ack, s.cfg.bustypeSpi] []) ∧
    (∃ t, exec .syncnop s = .next t ∧ Immediate s t [s.cfg.nak, s.cfg.ack] [])

/-- R121, R124, R126, with R116–R118: ACK and the 16-bit constant, least significant byte first. -/
def Obligations.SixteenBitQueriesAnswer : Prop :=
  ∀ s : State, s.cfg.Wf →
    (∃ t, exec .qIface s = .next t ∧ Immediate s t (s.cfg.ack :: split 2 s.cfg.pIface.toNat) []) ∧
    (∃ t, exec .qSerbuf s = .next t ∧ Immediate s t (s.cfg.ack :: split 2 s.cfg.pSerbuf.toNat) []) ∧
    (∃ t, exec .qOpbuf s = .next t ∧ Immediate s t (s.cfg.ack :: split 2 s.cfg.pOpbuf.toNat) [])

/-- R83, R127, R129, with R116–R118: ACK, the 16-bit constant, and a zero high byte; that is the constant as a 24-bit field. -/
def Obligations.MaxLengthQueriesAnswer : Prop :=
  ∀ s : State, s.cfg.Wf →
    (∃ t, exec .qWrnmaxlen s = .next t ∧ Immediate s t (s.cfg.ack :: split 3 s.cfg.pWrmax.toNat) []) ∧
    (∃ t, exec .qRdnmaxlen s = .next t ∧ Immediate s t (s.cfg.ack :: split 3 s.cfg.pRdmax.toNat) [])

/-- R122, R123, R86, with R116–R118: the bitmap in 33 bytes, the program name in 17. -/
def Obligations.CmdmapAndPgmnameAnswer : Prop :=
  ∀ s : State, s.cfg.Wf →
    (∃ t m, exec .qCmdmap s = .next t ∧ Immediate s t (s.cfg.ack :: m) [] ∧ m.length = 32 ∧
      ∀ k : Byte, (m.getD (k.toNat / 8) 0x00#8).getLsbD (k.toNat % 8) = true ↔ k ∈ s.cfg.codes.supported) ∧
    (∃ t name, exec .qPgmname s = .next t ∧ Immediate s t (s.cfg.ack :: name) [] ∧ name.length = 16 ∧
      ∀ j (h : j < 16), name[j]? = some s.cfg.pPgmname[j])

/-- R133, R167: an unrecognized code is answered `[NAK]`, as a protocol violation, and the session stays as it is. -/
def Obligations.UnrecognizedCodeAnswersNak : Prop :=
  ∀ (s : State) (code : Byte), s.cfg.Wf →
    ∃ t, exec (.unrecognized code) s = .next t ∧ Immediate s t [s.cfg.nak] [.protocolViolation]

/-- R135: the sync byte is answered `NAK, ACK` when it comes in AwaitCommand or after a timeout. -/
def Obligations.SyncAnswersInAwaitCommand : Prop :=
  ∀ s : State, s.cfg.Wf →
    (s.ses.phase = .awaitCommand ∨ s.cfg.tData.toNat < s.clk.toNat - s.ses.lastAct.toNat) →
    ∃ t, onByte s.cfg.codes.syncnop s = .next t ∧ t.eng = .send .put ∧ t.engOut = [s.cfg.nak, s.cfg.ack] ∧
      t.ses.phase = .awaitCommand ∧ t.ses.byteCnt = 0#32

/-! Deferred commands -/

/-- R119, R130–R132: dispatch enters AwaitData, stamps the clock, sends nothing, and changes nothing else. -/
def Obligations.DeferredDispatchEntersAwaitData : Prop :=
  ∀ s : State,
    exec (.sBustype .code) s = .next { s with
      eng := .wait
      ses := { s.ses with phase := .awaitData, activeCmd := s.cfg.codes.sBustype, byteCnt := 0#32, lastAct := s.clk } } ∧
    exec (.oSpiop .code) s = .next { s with
      eng := .wait
      ses := { s.ses with phase := .awaitData, activeCmd := s.cfg.codes.oSpiop, byteCnt := 0#32, lastAct := s.clk } } ∧
    exec (.sSpiFreq .code) s = .next { s with
      eng := .wait
      ses := { s.ses with phase := .awaitData, activeCmd := s.cfg.codes.sSpiFreq, byteCnt := 0#32, lastAct := s.clk } }

/-- R138, R137, R166: a data byte at `BYTE_CNT ≥ W_CAP` is consumed, not stored, answered `[NAK]`, and resets the session, whichever command
it belongs to. -/
def Obligations.OverflowGuardTrips : Prop :=
  ∀ (s : State) (c : Byte) (i : Instr), s.cfg.wCap ≤ s.ses.byteCnt.toNat →
    i ∈ [Instr.sBustype (.data c), Instr.oSpiop (.data c), Instr.sSpiFreq (.data c)] →
    ∃ t, exec i s = .next t ∧ Completes s t [s.cfg.nak] [.overflowGuard] ∧ Outside s t ∧ LengthsKept s t ∧
      t.ses.wb = s.ses.wb

/-- R139: the one data byte of S_BUSTYPE is compared for equality, and either way the session is reset; no memory changes. -/
def Obligations.BustypeDataByteCompletes : Prop :=
  ∀ (s : State) (b : Byte), s.ses.byteCnt.toNat < s.cfg.wCap →
    ∃ t, exec (.sBustype (.data b)) s = .next t ∧ Outside s t ∧ LengthsKept s t ∧ t.ses.wb = s.ses.wb ∧
      (b = s.cfg.bustypeSpi → Completes s t [s.cfg.ack] []) ∧
      (b ≠ s.cfg.bustypeSpi → Completes s t [s.cfg.nak] [.protocolViolation])

/-- R140, R142: an O_SPIOP data byte before the last is stored, a header byte at `WB[BYTE_CNT]` and a payload byte at `WB[BYTE_CNT - 6]`, and no
other byte of the buffer changes. -/
def Obligations.SpiopDataByteAccumulates : Prop :=
  ∀ (s : State) (c : Byte), s.cfg.Wf →
    (s.ses.byteCnt.toNat < 5 →
      ∃ t, exec (.oSpiop (.data c)) s = .next t ∧ Accumulates s t ∧ Outside s t ∧ LengthsKept s t ∧
        Stored s t s.ses.byteCnt.toNat [c]) ∧
    (6 ≤ s.ses.byteCnt.toNat → s.ses.byteCnt.toNat < s.cfg.wCap →
      (s.ses.byteCnt + 1#32).toNat - 6 ≠ s.ses.writeLen.toNat →
      ∃ t, exec (.oSpiop (.data c)) s = .next t ∧ Accumulates s t ∧ Outside s t ∧ LengthsKept s t ∧
        Stored s t (s.ses.byteCnt.toNat - 6) [c])

/-- R141, R143, R156: the sixth data byte completes the header; both lengths are its little-endian fields, and with no payload to come the
operation executes at once. -/
def Obligations.SpiopHeaderCompletes : Prop :=
  ∀ (s : State) (c : Byte), s.cfg.Wf → s.ses.byteCnt.toNat = 5 →
    ∃ t, exec (.oSpiop (.data c)) s = .next t ∧ Outside s t ∧ Stored s t 5 [c] ∧
      t.ses.writeLen.toNat = headerByteAt s c 0 + 2 ^ 8 * headerByteAt s c 1 + 2 ^ 16 * headerByteAt s c 2 ∧
      t.ses.readLen.toNat = headerByteAt s c 3 + 2 ^ 8 * headerByteAt s c 4 + 2 ^ 16 * headerByteAt s c 5 ∧
      (t.ses.writeLen.toNat ≠ 0 → Accumulates s t) ∧ (t.ses.writeLen.toNat = 0 → Executes s t)

/-- R142, R143: the last payload byte is stored and the operation executes: a read longer than the buffer is answered `[NAK]` with no
transfer, and otherwise the transfer begins. -/
def Obligations.SpiopLastPayloadByteExecutes : Prop :=
  ∀ (s : State) (c : Byte), s.cfg.Wf → 6 ≤ s.ses.byteCnt.toNat → s.ses.byteCnt.toNat < s.cfg.wCap →
    (s.ses.byteCnt + 1#32).toNat - 6 = s.ses.writeLen.toNat →
    ∃ t, exec (.oSpiop (.data c)) s = .next t ∧ Outside s t ∧ LengthsKept s t ∧
      Stored s t (s.ses.byteCnt.toNat - 6) [c] ∧ Executes s t

/-- R147: an S_SPI_FREQ data byte before the fourth is stored at `WB[BYTE_CNT]`. -/
def Obligations.FreqDataByteAccumulates : Prop :=
  ∀ (s : State) (c : Byte), s.ses.byteCnt.toNat < s.cfg.wCap → (s.ses.byteCnt + 1#32).toNat ≠ 4 →
    ∃ t, exec (.sSpiFreq (.data c)) s = .next t ∧ Accumulates s t ∧ Outside s t ∧ LengthsKept s t ∧
      Stored s t s.ses.byteCnt.toNat [c]

/-- R148, R158: the fourth byte completes the frequency. Zero is answered `[NAK]` and `FREQ` stays; any other value stores the smaller of it
and `FMAX`, and the answer echoes the four bytes received. -/
def Obligations.FreqCompletesClampsAndEchoes : Prop :=
  ∀ (s : State) (c : Byte), s.cfg.Wf → s.ses.byteCnt.toNat = 3 →
    ∃ t, exec (.sSpiFreq (.data c)) s = .next t ∧ LengthsKept s t ∧ Stored s t 3 [c] ∧
      Outside s { t with spi := s.spi } ∧ t.spi.fmax = s.spi.fmax ∧ t.spi.cs = s.spi.cs ∧
      (freqValue s c = 0 → t.spi.freq = s.spi.freq ∧ Completes s t [s.cfg.nak] [.protocolViolation]) ∧
      (freqValue s c ≠ 0 → t.spi.freq.toNat = min (freqValue s c) s.spi.fmax.toNat ∧
        Completes s t [s.cfg.ack, freqByteAt s c 0, freqByteAt s c 1, freqByteAt s c 2, freqByteAt s c 3] [])

/-! The SPI master -/

/-- R155, R154: each step of `transfer`: the assert; the write phase, which sends `WB[0..write_len)` and skips the read when it fails; the
read phase, which fills `WB[0..read_len)` and nothing else. Each event is on record at `FREQ`. After a failed read R155 and R156 leave any
value in that range: that it is the answer's own bytes, and that an answer has exactly `READ_LEN` of them, is the model's choice (DESIGN
CHOICE, log entry 18). -/
def Obligations.TransferSteps : Prop :=
  ∀ s : State,
    (s.eng = .run .csAssert → fire .eng s = .next
      { s with
        spi := { s.spi with cs := true }
        obs := { s.obs with spi := s.obs.spi ++ [⟨.csAssert, s.spi.freq, s.cfg.spiMode⟩] }
        eng := if 0 < s.ses.writeLen.toNat then .run .spiWrite
          else if 0 < s.ses.readLen.toNat then .run .spiRead else .run (.csRelease true) }) ∧
    (∀ (ok : Bool) (x : List Byte), s.eng = .run .spiWrite → s.ses.writeLen.toNat ≤ s.cfg.wCap →
      ∃ bs : List Byte, bs.length = s.ses.writeLen.toNat ∧ (∀ j, j < bs.length → bs[j]? = some (s.ses.wb.read j)) ∧
        fire (.spiDev ok x) s = .next
          { s with
            obs := { s.obs with spi := s.obs.spi ++ [⟨.write bs, s.spi.freq, s.cfg.spiMode⟩] }
            eng := if ok = true ∧ 0 < s.ses.readLen.toNat then .run .spiRead else .run (.csRelease ok) }) ∧
    (∀ (ok : Bool) (data : List Byte), s.eng = .run .spiRead → s.ses.readLen.toNat ≤ s.cfg.wCap →
      data.length = s.ses.readLen.toNat →
      ∃ t, fire (.spiDev ok data) s = .next t ∧ Stored s t 0 data ∧
        t = { s with
          ses := { s.ses with wb := t.ses.wb }
          obs := { s.obs with
            spi := s.obs.spi ++ [⟨.read data.length s.cfg.spiFill, s.spi.freq, s.cfg.spiMode⟩] }
          eng := .run (.csRelease ok) })

/-- R155, R143, R168: the release is unconditional; a good transfer is answered ACK and the read data, a failed one `[NAK]`; either resets the
session. -/
def Obligations.ReleaseEndsTransfer : Prop :=
  ∀ (s : State) (ok : Bool), s.eng = .run (.csRelease ok) → s.ses.readLen.toNat ≤ s.cfg.wCap →
    ∃ t, fire .eng s = .next t ∧ t.spi = { s.spi with cs := false } ∧ t.ses.wb = s.ses.wb ∧ LengthsKept s t ∧
      t.ses.phase = .awaitCommand ∧ t.ses.byteCnt = 0#32 ∧ t.ses.activeCmd = s.ses.activeCmd ∧
      t.ses.lastAct = s.ses.lastAct ∧
      t.obs.spi = s.obs.spi ++ [⟨.csRelease, s.spi.freq, s.cfg.spiMode⟩] ∧ t.fifo = s.fifo ∧
      (ok = true → ∃ data : List Byte, data.length = s.ses.readLen.toNat ∧
        (∀ j, j < data.length → data[j]? = some (s.ses.wb.read j)) ∧ Answers s t (s.cfg.ack :: data) []) ∧
      (ok = false → Answers s t [s.cfg.nak] [.busFailure])

/-- R37, R189, R160: `FREQ` changes only by a power-on reset and by an S_SPI_FREQ byte in its data phase, never inside a transfer, and what is
stored is at most `FMAX`. -/
def Obligations.OnlySetFrequencyChangesFreq : Prop :=
  ∀ (s t : State) (turn : Turn), (∀ u, turn ≠ .reset u) → fire turn s = .next t →
    t.spi.fmax = s.spi.fmax ∧
    (t.spi.freq = s.spi.freq ∨
      (turn = .eng ∧ s.ses.phase = .awaitData ∧ s.ses.activeCmd = s.cfg.codes.sSpiFreq ∧ t.ses.phase = .awaitCommand ∧
        t.spi.freq.toNat ≤ t.spi.fmax.toNat))

/-- R162, R160: an SPI event happens only inside an O_SPIOP's transfer, one a step, at the value of `FREQ`. -/
def Obligations.SpiEventsOnlyInsideSpiop : Prop :=
  ∀ (s t : State) (turn : Turn), s.Inv → (∀ u, turn ≠ .reset u) → fire turn s = .next t →
    t.obs.spi = s.obs.spi ∨
    (∃ ev, t.obs.spi = s.obs.spi ++ [⟨ev, s.spi.freq, s.cfg.spiMode⟩] ∧ s.ses.phase = .awaitData ∧
      s.ses.activeCmd = s.cfg.codes.oSpiop ∧ (turn = .eng ∨ ∃ ok data, turn = .spiDev ok data))

/-! Whole frames (R152) -/

/-- R152, first and second row: the frame `[S_BUSTYPE, t]`. -/
def Obligations.BustypeFrameOutcome : Prop :=
  ∀ (s : State) (b : Byte) (rest : List Byte) (ts : List Turn),
    AtFrame s (frameBustype s.cfg.codes b) rest [.eng, .eng] ts →
    ∃ t, steps 2 s = .next t ∧ t.spi = s.spi ∧ t.obs.spi = s.obs.spi ∧
      (b = s.cfg.bustypeSpi → FrameDone s t (frameBustype s.cfg.codes b) rest ts [s.cfg.ack] []) ∧
      (b ≠ s.cfg.bustypeSpi → FrameDone s t (frameBustype s.cfg.codes b) rest ts [s.cfg.nak] [.protocolViolation])

/-- R152, third and fourth row: the frame `S_SPI_FREQ f`, byte by byte. -/
def Obligations.FreqFrameOutcome : Prop :=
  ∀ (s : State) (f : U32) (rest : List Byte) (ts : List Turn),
    AtFrame s (frameFreq s.cfg.codes f) rest (List.replicate 5 .eng) ts →
    ∃ t, steps 5 s = .next t ∧ t.spi.fmax = s.spi.fmax ∧ t.obs.spi = s.obs.spi ∧
      (f.toNat = 0 → t.spi.freq = s.spi.freq ∧
        FrameDone s t (frameFreq s.cfg.codes f) rest ts [s.cfg.nak] [.protocolViolation]) ∧
      (f.toNat ≠ 0 → t.spi.freq.toNat = min f.toNat s.spi.fmax.toNat ∧
        FrameDone s t (frameFreq s.cfg.codes f) rest ts (s.cfg.ack :: split 4 f.toNat) [])

/-- R152, sixth and seventh row, with R155 and R156: an O_SPIOP whose payload fits and whose read fits, for every payload, every pair of
lengths but both zero, and every answer of the device: its SPI events, in order and at one frequency, and its response. -/
def Obligations.SpiopFrameOutcome : Prop :=
  ∀ (s : State) (wl rl : U24) (d x data rest : List Byte) (okW okR : Bool) (ts : List Turn),
    payloadWf wl d = true → 6 + d.length ≤ s.cfg.wCap → rl.toNat ≤ s.cfg.wCap → ¬ (wl.toNat = 0 ∧ rl.toNat = 0) →
    data.length = rl.toNat →
    AtFrame s (frameSpiop s.cfg.codes wl rl d) rest
      (List.replicate (7 + d.length) .eng ++ transferTurns wl.toNat rl.toNat okW okR x data) ts →
    ∃ t, steps (7 + d.length + (transferTurns wl.toNat rl.toNat okW okR x data).length) s = .next t ∧
      t.obs.spi = s.obs.spi ++
        (transferEvents d rl.toNat okW s.cfg.spiFill).map (fun ev => ⟨ev, s.spi.freq, s.cfg.spiMode⟩) ∧
      t.spi = { s.spi with cs := false } ∧ t.ses.writeLen = wl ∧ t.ses.readLen = rl ∧
      Answers s t (if transferOk wl.toNat rl.toNat okW okR then s.cfg.ack :: data else [s.cfg.nak])
        (if transferOk wl.toNat rl.toNat okW okR then [] else [.busFailure]) ∧
      t.ses.phase = .awaitCommand ∧ t.ses.byteCnt = 0#32 ∧ t.fifo.rxq = rest ∧
      t.obs.taken = s.obs.taken ++ frameSpiop s.cfg.codes wl rl d ∧ t.turns = ts

/-- R152, fifth and eighth row: with both lengths zero, or with `read_len > W_CAP` and a payload that fits, the answer is `[NAK]` at the
frame's last byte, and no SPI event happens. -/
def Obligations.SpiopFrameRefusedWithoutTransfer : Prop :=
  ∀ (s : State) (wl rl : U24) (d rest : List Byte) (ts : List Turn),
    payloadWf wl d = true → 6 + d.length ≤ s.cfg.wCap →
    (wl.toNat = 0 ∧ rl.toNat = 0) ∨ s.cfg.wCap < rl.toNat →
    AtFrame s (frameSpiop s.cfg.codes wl rl d) rest (List.replicate (7 + d.length) .eng) ts →
    ∃ t, steps (7 + d.length) s = .next t ∧ t.obs.spi = s.obs.spi ∧ t.spi = s.spi ∧
      FrameDone s t (frameSpiop s.cfg.codes wl rl d) rest ts [s.cfg.nak]
        [if s.cfg.wCap < rl.toNat then .overflowGuard else .busFailure]

/-- R145, R152's last row: with `6 + write_len > W_CAP` the guard trips at data byte `W_CAP + 1`: `[NAK]`, no SPI event, and what the host sent
after that byte is still in `RXQ`, to be read as commands (R195). The whole frame stands in `RXQ` at once, which a run shows where `C_RX`
is large enough for it. -/
def Obligations.OversizedSpiopTripsTheGuard : Prop :=
  ∀ (s : State) (wl rl : U24) (d rest : List Byte) (ts : List Turn),
    payloadWf wl d = true → s.cfg.wCap < 6 + d.length →
    AtFrame s (frameSpiop s.cfg.codes wl rl d) rest (List.replicate (2 + s.cfg.wCap) .eng) ts →
    ∃ t, steps (2 + s.cfg.wCap) s = .next t ∧ t.obs.spi = s.obs.spi ∧ t.spi = s.spi ∧
      FrameDone s t ((frameSpiop s.cfg.codes wl rl d).take (2 + s.cfg.wCap))
        ((frameSpiop s.cfg.codes wl rl d).drop (2 + s.cfg.wCap) ++ rest) ts [s.cfg.nak] [.overflowGuard]
end

