-- ==== Sys2Proof/Laws/Decode.lean ====
section
/-! SUPPORT. What the decoder can answer, and the lengths and values of the little-endian splits. -/

namespace Sys2Proof

/-- The first row with the code, or the fall-back (R77, R84): the decoder's search, over any rows. -/
def searchRows (rows : List (Byte × Instr)) (c : Byte) : Instr :=
  match rows.find? (fun row => row.1 == c) with
  | some row => row.2
  | none => .unrecognized c

theorem decodeCommand_eq (cc : CmdCodes) (c : Byte) : decodeCommand cc c = searchRows (commandRows cc) c := rfl

@[simp] theorem searchRows_nil (c : Byte) : searchRows [] c = .unrecognized c := rfl

theorem searchRows_cons (a : Byte) (i : Instr) (rows : List (Byte × Instr)) (c : Byte) :
    searchRows ((a, i) :: rows) c = if a = c then i else searchRows rows c := by
  unfold searchRows
  by_cases h : a = c
  · simp [h]
  · have : (a == c) = false := by simpa using h
    simp [this, h]

/-- The search answers a row with the code, or the fall-back where no row has it. -/
theorem searchRows_cases (rows : List (Byte × Instr)) (c : Byte) :
    (c, searchRows rows c) ∈ rows ∨ (searchRows rows c = .unrecognized c ∧ c ∉ rows.map Prod.fst) := by
  induction rows with
  | nil => exact .inr ⟨rfl, by simp⟩
  | cons row rows ih =>
    obtain ⟨a, i⟩ := row
    rw [searchRows_cons]
    by_cases h : a = c
    · subst h; simp
    · simp only [if_neg h]
      rcases ih with ih | ih
      · exact .inl (List.mem_cons_of_mem _ ih)
      · exact .inr ⟨ih.1, by simpa using ⟨fun e => h e.symm, by simpa using ih.2⟩⟩

/-- Under distinct codes, the search answers the row it is given. -/
theorem searchRows_mem {rows : List (Byte × Instr)} (h : (rows.map Prod.fst).Nodup) {c : Byte} {i : Instr}
    (hm : (c, i) ∈ rows) : searchRows rows c = i := by
  induction rows with
  | nil => simp at hm
  | cons row rows ih =>
    obtain ⟨a, j⟩ := row
    simp only [List.map_cons, List.nodup_cons] at h
    rw [searchRows_cons]
    rcases List.mem_cons.mp hm with e | hm
    · simp only [Prod.mk.injEq] at e
      rw [if_pos e.1.symm, e.2]
    · have : a ≠ c := by
        rintro rfl
        exact h.1 (List.mem_map.mpr ⟨_, hm, rfl⟩)
      rw [if_neg this, ih h.2 hm]

/-- The table's codes are the supported set (R78). -/
@[simp] theorem commandRows_codes (cc : CmdCodes) : (commandRows cc).map Prod.fst = cc.supported := rfl

/-- Every row pairs an instruction with its own code byte, in AwaitCommand, and is well-formed. -/
theorem commandRows_sound (cc : CmdCodes) : ∀ row ∈ commandRows cc,
    encode cc row.2 = row.1 ∧ row.2.wf cc = true ∧ row.2.phase = .awaitCommand ∧ ∀ b, row.2 ≠ .unrecognized b := by
  simp [commandRows, encode, Instr.wf, Instr.phase]

/-- The same of one row, by its two entries. -/
theorem commandRows_encode {cc : CmdCodes} {c : Byte} {i : Instr} (h : (c, i) ∈ commandRows cc) :
    encode cc i = c ∧ i.wf cc = true ∧ i.phase = .awaitCommand ∧ ∀ b, i ≠ .unrecognized b :=
  commandRows_sound cc (c, i) h

/-- What a command byte decodes to: a row of the table, or an unrecognized code outside it. -/
theorem decodeCommand_cases (cc : CmdCodes) (c : Byte) :
    (c, decodeCommand cc c) ∈ commandRows cc ∨ (decodeCommand cc c = .unrecognized c ∧ c ∉ cc.supported) :=
  searchRows_cases (commandRows cc) c

/-- Under distinct codes a table row is what its code decodes to. -/
theorem decodeCommand_row {cc : CmdCodes} (hn : cc.supported.Nodup) {c : Byte} {i : Instr}
    (h : (c, i) ∈ commandRows cc) : decodeCommand cc c = i :=
  searchRows_mem (rows := commandRows cc) hn h

/-- A row's code is supported (R78). -/
theorem commandRows_supported {cc : CmdCodes} {c : Byte} {i : Instr} (h : (c, i) ∈ commandRows cc) :
    c ∈ cc.supported := by
  rw [← commandRows_codes]
  exact List.mem_map.mpr ⟨(c, i), h, rfl⟩

/-- The three deferred codes differ where the codes do. -/
theorem deferred_distinct {cc : CmdCodes} (hn : cc.supported.Nodup) :
    cc.oSpiop ≠ cc.sBustype ∧ cc.sSpiFreq ≠ cc.sBustype ∧ cc.sSpiFreq ≠ cc.oSpiop := by
  refine ⟨?_, ?_, ?_⟩ <;> intro e <;> simp [CmdCodes.supported, e] at hn

/-- What a data byte decodes to (R75, R136). -/
theorem decodeData_ok {cc : CmdCodes} {active c : Byte} {i : Instr} (h : decodeData cc active c = .ok i) :
    (active = cc.sBustype ∧ i = .sBustype (.data c)) ∨ (active = cc.oSpiop ∧ i = .oSpiop (.data c)) ∨
      (active = cc.sSpiFreq ∧ i = .sSpiFreq (.data c)) := by
  unfold decodeData at h
  split at h
  · exact .inl ⟨‹_›, by simpa using h.symm⟩
  · split at h
    · exact .inr (.inl ⟨‹_›, by simpa using h.symm⟩)
    · split at h
      · exact .inr (.inr ⟨‹_›, by simpa using h.symm⟩)
      · cases h

@[simp] theorem le16_length (v : U16) : (le16 v).length = 2 := rfl
@[simp] theorem le24_length (v : U24) : (le24 v).length = 3 := rfl
@[simp] theorem le32_length (v : U32) : (le32 v).length = 4 := rfl
@[simp] theorem cmdMap_length (cc : CmdCodes) : (cmdMap cc).length = 32 := by simp [cmdMap]

end Sys2Proof
end

