-- ==== Sys2Proof/Laws/Memory.lean ====
section
/-! SUPPORT. The laws of the byte stores: read after write, frames, and that every operation keeps the canonical form and the
index bound. -/

namespace Sys2Proof.Machine

namespace Memory

@[simp] theorem read_nil (i : Nat) : read [] i = blank := rfl

theorem read_cons (cell : Host.Cell) (m : Memory) (i : Nat) :
    read (cell :: m) i = if cell.1 = i then cell.2 else read m i := rfl

theorem read_filter_other (m : Memory) {i j : Nat} (h : j ≠ i) :
    read (m.filter (fun cell => cell.1 != i)) j = read m j := by
  induction m with
  | nil => rfl
  | cons cell m ih =>
    by_cases hc : cell.1 = i
    · have : cell.1 ≠ j := fun e => h (e ▸ hc)
      simp [hc, read_cons, ih]
      intro e; exact absurd e.symm h
    · simp [hc, read_cons, ih]

theorem read_filter_same (m : Memory) (i : Nat) :
    read (m.filter (fun cell => cell.1 != i)) i = blank := by
  induction m with
  | nil => rfl
  | cons cell m ih =>
    by_cases hc : cell.1 = i
    · simp [hc, ih]
    · simp [hc, read_cons, ih]

theorem read_insertCell (m : Memory) (i : Nat) (v : Byte) (h : ∀ cell ∈ m, cell.1 ≠ i) (j : Nat) :
    read (insertCell i v m) j = if i = j then v else read m j := by
  induction m with
  | nil => simp [insertCell, read_cons]
  | cons cell m ih =>
    have hc : cell.1 ≠ i := h cell (by simp)
    have ih := ih (fun c hm => h c (by simp [hm]))
    unfold insertCell
    split
    · simp [read_cons]
    · rw [read_cons, ih, read_cons]
      by_cases e : i = j
      · subst e; simp [hc]
      · simp [e]

theorem filter_ne (m : Memory) (i : Nat) : ∀ cell ∈ m.filter (fun cell => cell.1 != i), cell.1 ≠ i := by
  intro cell hm
  simpa using (List.mem_filter.mp hm).2

/-- Read after write, at every index. -/
theorem read_write (m : Memory) (i : Nat) (v : Byte) (j : Nat) :
    read (write m i v) j = if i = j then v else read m j := by
  unfold write
  split
  · rename_i hv
    by_cases e : i = j
    · subst e; simp [read_filter_same, hv]
    · simp [e, read_filter_other m (Ne.symm e)]
  · rw [read_insertCell _ _ _ (filter_ne m i)]
    by_cases e : i = j
    · simp [e]
    · simp [e, read_filter_other m (Ne.symm e)]

@[simp] theorem read_write_same (m : Memory) (i : Nat) (v : Byte) : read (write m i v) i = v := by simp [read_write]

theorem read_write_other (m : Memory) {i j : Nat} (v : Byte) (h : i ≠ j) : read (write m i v) j = read m j := by
  simp [read_write, h]

/-- Read after a block write: inside the block its byte, outside it what was there. -/
theorem read_writeList (bs : List Byte) (m : Memory) (i a : Nat) :
    read (writeList m i bs) a = if i ≤ a ∧ a < i + bs.length then bs.getD (a - i) blank else read m a := by
  induction bs generalizing m i with
  | nil => simp [writeList]
  | cons b bs ih =>
    rw [writeList, ih, read_write]
    by_cases h1 : i = a
    · subst h1; simp
    · by_cases h2 : i + 1 ≤ a ∧ a < i + 1 + bs.length
      · have : i ≤ a ∧ a < i + (b :: bs).length := by simp; omega
        have hd : a - i = (a - (i + 1)) + 1 := by omega
        simp only [h2, this, and_self, if_true, hd, List.getD_cons_succ]
      · have : ¬ (i ≤ a ∧ a < i + (b :: bs).length) := by simp; omega
        simp only [if_neg h2, if_neg this, if_neg h1]

@[simp] theorem readList_length (m : Memory) (i n : Nat) : (readList m i n).length = n := by
  induction n generalizing i with
  | zero => rfl
  | succ n ih => simp [readList, ih]

theorem readList_append (m : Memory) (i n k : Nat) :
    readList m i (n + k) = readList m i n ++ readList m (i + n) k := by
  induction n generalizing i with
  | zero => simp [readList]
  | succ n ih =>
    rw [show n + 1 + k = (n + k) + 1 by omega, readList, ih, readList]
    simp [Nat.add_assoc, Nat.add_comm 1 n]

/-- A block read depends on its own bytes alone. -/
theorem readList_congr {m m' : Memory} {i n : Nat} (h : ∀ a, i ≤ a → a < i + n → read m a = read m' a) :
    readList m i n = readList m' i n := by
  induction n generalizing i with
  | zero => rfl
  | succ n ih =>
    rw [readList, readList, h i (by omega) (by omega), ih (fun a h1 h2 => h a (by omega) (by omega))]

/-- A block reads back as it was written. -/
theorem readList_writeList (bs : List Byte) (m : Memory) (i : Nat) :
    readList (writeList m i bs) i bs.length = bs := by
  apply List.ext_getElem (by simp)
  intro n h1 h2
  have key : ∀ (m : Memory) (i k n : Nat) (h : n < (readList m i k).length), (readList m i k)[n] = read m (i + n) := by
    intro m i k
    induction k generalizing i with
    | zero => intro n h; simp [readList] at h
    | succ k ih =>
      intro n h
      cases n with
      | zero => simp [readList]
      | succ n => simp only [readList, List.getElem_cons_succ]; rw [ih]; congr 1; omega
  rw [key, read_writeList]
  simp [h2, List.getD_eq_getElem?_getD]

@[simp] theorem ringRead_length (m : Memory) (cap pos n : Nat) : (ringRead m cap pos n).length = n := by
  induction n generalizing pos with
  | zero => rfl
  | succ n ih => simp [ringRead, ih]

theorem ringRead_append (m : Memory) (cap pos n k : Nat) :
    ringRead m cap pos (n + k) = ringRead m cap pos n ++ ringRead m cap (pos + n) k := by
  induction n generalizing pos with
  | zero => simp [ringRead]
  | succ n ih =>
    rw [show n + 1 + k = (n + k) + 1 by omega, ringRead, ih, ringRead]
    simp [Nat.add_assoc, Nat.add_comm 1 n]

/-- The ring is read modulo its size. -/
theorem ringRead_mod (m : Memory) (cap pos n : Nat) : ringRead m cap (pos % cap) n = ringRead m cap pos n := by
  induction n generalizing pos with
  | zero => rfl
  | succ n ih =>
    rw [ringRead, ringRead, Nat.mod_mod, ← ih (pos % cap + 1), ← ih (pos + 1), Nat.mod_add_mod]

/-- A chunk that does not pass the ring's end is a plain block (R103). -/
theorem ringRead_eq_readList (m : Memory) {cap pos n : Nat} (h : pos + n ≤ cap) :
    ringRead m cap pos n = readList m pos n := by
  induction n generalizing pos with
  | zero => rfl
  | succ n ih => rw [ringRead, readList, Nat.mod_eq_of_lt (by omega), ih (by omega)]

theorem ringRead_congr {m m' : Memory} {cap pos n : Nat} (h : ∀ j, j < n → read m ((pos + j) % cap) = read m' ((pos + j) % cap)) :
    ringRead m cap pos n = ringRead m' cap pos n := by
  induction n generalizing pos with
  | zero => rfl
  | succ n ih =>
    rw [ringRead, ringRead, show pos % cap = (pos + 0) % cap by simp, h 0 (by omega)]
    rw [ih (fun j hj => by have := h (j + 1) (by omega); rwa [show pos + (j + 1) = pos + 1 + j by omega] at this)]

theorem ring_distinct {cap pos i j : Nat} (hij : i < j) (hj : j < i + cap) : (pos + i) % cap ≠ (pos + j) % cap := by
  intro h
  have h1 : (pos + j) - (pos + i) = j - i := by omega
  have h2 := Nat.sub_mod_eq_zero_of_mod_eq h.symm
  rw [h1, Nat.mod_eq_of_lt (by omega)] at h2
  omega

/-- A ring write leaves every slot outside its run alone. -/
theorem read_ringWrite_other (bs : List Byte) (m : Memory) (cap pos a : Nat)
    (h : ∀ j, j < bs.length → (pos + j) % cap ≠ a) : read (ringWrite m cap pos bs) a = read m a := by
  induction bs generalizing m pos with
  | nil => rfl
  | cons b bs ih =>
    rw [ringWrite, ih _ _ (fun j hj => by
      have := h (j + 1) (by simpa using hj)
      rwa [show pos + (j + 1) = pos + 1 + j by omega] at this)]
    exact read_write_other m b (by simpa using h 0 (by simp))

/-- What a ring write puts in, a ring read takes out. -/
theorem ringRead_ringWrite (bs : List Byte) (m : Memory) (cap pos : Nat) (h : bs.length ≤ cap) :
    ringRead (ringWrite m cap pos bs) cap pos bs.length = bs := by
  induction bs generalizing m pos with
  | nil => rfl
  | cons b bs ih =>
    simp only [List.length_cons] at h
    rw [List.length_cons, ringRead, ringWrite, ih _ _ (by omega)]
    congr 1
    rw [read_ringWrite_other]
    · simp
    · intro j hj
      have := ring_distinct (cap := cap) (pos := pos) (i := 0) (j := j + 1) (by omega) (by omega)
      rw [show pos + 1 + j = pos + (j + 1) by omega]
      simpa using this.symm

/-! The canonical form -/

theorem wf_filter {m : Memory} (h : wf m) (i : Nat) : wf (m.filter (fun cell => cell.1 != i)) :=
  ⟨h.1.filter _, fun cell hm => h.2 cell (List.mem_filter.mp hm).1⟩

theorem mem_insertCell {m : Memory} {i : Nat} {v : Byte} {cell : Host.Cell} :
    cell ∈ insertCell i v m ↔ cell = (i, v) ∨ cell ∈ m := by
  induction m with
  | nil => simp [insertCell]
  | cons c m ih =>
    unfold insertCell
    split
    · simp
    · simp [ih]; tauto

theorem wf_insertCell {m : Memory} (h : wf m) {i : Nat} {v : Byte} (hv : v ≠ blank) (hi : ∀ cell ∈ m, cell.1 ≠ i) :
    wf (insertCell i v m) := by
  refine ⟨?_, fun cell hm => ?_⟩
  · induction m with
    | nil => simp [insertCell]
    | cons c m ih =>
      have hp := List.pairwise_cons.mp h.1
      have hrest : wf m := ⟨hp.2, fun d hd => h.2 d (by simp [hd])⟩
      unfold insertCell
      split
      · rename_i hlt
        refine List.pairwise_cons.mpr ⟨fun d hd => ?_, h.1⟩
        rcases List.mem_cons.mp hd with rfl | hd
        · exact hlt
        · exact Nat.lt_trans hlt (hp.1 d hd)
      · rename_i hle
        refine List.pairwise_cons.mpr ⟨fun d hd => ?_, ih hrest (fun d hd => hi d (by simp [hd]))⟩
        rcases mem_insertCell.mp hd with rfl | hd
        · have := hi c (by simp)
          show c.1 < i
          omega
        · exact hp.1 d hd
  · rcases mem_insertCell.mp hm with rfl | hm
    · exact hv
    · exact h.2 cell hm

/-- A write keeps the canonical form. -/
theorem wf_write {m : Memory} (h : wf m) (i : Nat) (v : Byte) : wf (write m i v) := by
  unfold write
  split
  · exact wf_filter h i
  · rename_i hv
    exact wf_insertCell (wf_filter h i) hv (filter_ne m i)

theorem wf_writeList {m : Memory} (h : wf m) (i : Nat) (bs : List Byte) : wf (writeList m i bs) := by
  induction bs generalizing m i with
  | nil => exact h
  | cons b bs ih => exact ih (wf_write h i b) (i + 1)

theorem wf_ringWrite {m : Memory} (h : wf m) (cap pos : Nat) (bs : List Byte) : wf (ringWrite m cap pos bs) := by
  induction bs generalizing m pos with
  | nil => exact h
  | cons b bs ih => exact ih (wf_write h _ b) (pos + 1)

theorem mem_write {m : Memory} {i : Nat} {v : Byte} {cell : Host.Cell} (h : cell ∈ write m i v) :
    cell.1 = i ∨ cell ∈ m := by
  unfold write at h
  split at h
  · exact .inr (List.mem_filter.mp h).1
  · rcases mem_insertCell.mp h with rfl | h
    · exact .inl rfl
    · exact .inr (List.mem_filter.mp h).1

/-- Every listed index lies below `n`. -/
abbrev Below (n : Nat) (m : Memory) : Prop := ∀ cell ∈ m, cell.1 < n

theorem below_write {n : Nat} {m : Memory} (h : Below n m) {i : Nat} (hi : i < n) (v : Byte) : Below n (write m i v) := by
  intro cell hm
  rcases mem_write hm with e | hm
  · omega
  · exact h cell hm

theorem below_writeList {n : Nat} (bs : List Byte) {m : Memory} (h : Below n m) {i : Nat} (hi : i + bs.length ≤ n) :
    Below n (writeList m i bs) := by
  induction bs generalizing m i with
  | nil => exact h
  | cons b bs ih =>
    simp only [List.length_cons] at hi
    exact ih (below_write h (by omega) b) (by omega)

theorem below_ringWrite {n : Nat} (bs : List Byte) {m : Memory} (h : Below n m) (hn : 0 < n) (pos : Nat) :
    Below n (ringWrite m n pos bs) := by
  induction bs generalizing m pos with
  | nil => exact h
  | cons b bs ih => exact ih (below_write h (Nat.mod_lt _ hn) b) (pos + 1)

/-- The image of a byte list is canonical, starts at its base and ends with the list. -/
theorem mem_image {bs : List Byte} {base : Nat} {cell : Host.Cell} (h : cell ∈ image base bs) :
    base ≤ cell.1 ∧ cell.1 < base + bs.length ∧ cell.2 ≠ blank := by
  induction bs generalizing base with
  | nil => simp [image] at h
  | cons b bs ih =>
    unfold image at h
    split at h
    · have := ih h
      exact ⟨by omega, by simp only [List.length_cons]; omega, this.2.2⟩
    · rcases List.mem_cons.mp h with rfl | h
      · simp; assumption
      · have := ih h
        exact ⟨by omega, by simp only [List.length_cons]; omega, this.2.2⟩

/-- An image reads as the list from its base on, and as blank elsewhere. -/
theorem read_image (bs : List Byte) (base i : Nat) :
    read (image base bs) i = if base ≤ i ∧ i < base + bs.length then bs.getD (i - base) blank else blank := by
  induction bs generalizing base with
  | nil => simp [image]
  | cons b bs ih =>
    by_cases hi : i = base
    · subst hi
      rw [if_pos (by simp)]
      unfold image
      split
      · rw [ih, if_neg (by omega)]
        simp_all
      · simp [read]
    · have tail : read (image (base + 1) bs) i =
          if base ≤ i ∧ i < base + (b :: bs).length then (b :: bs).getD (i - base) blank else blank := by
        rw [ih]
        by_cases hr : base + 1 ≤ i ∧ i < base + 1 + bs.length
        · rw [if_pos hr, if_pos (by simp only [List.length_cons]; omega), show i - base = (i - (base + 1)) + 1 by omega,
            List.getD_cons_succ]
        · rw [if_neg hr, if_neg (by simp only [List.length_cons]; omega)]
      unfold image
      split
      · exact tail
      · rw [read_cons, if_neg (by simpa using Ne.symm hi)]
        exact tail

theorem wf_image (bs : List Byte) (base : Nat) : wf (image base bs) := by
  refine ⟨?_, fun cell h => (mem_image h).2.2⟩
  induction bs generalizing base with
  | nil => simp [image]
  | cons b bs ih =>
    unfold image
    split
    · exact ih _
    · exact List.pairwise_cons.mpr ⟨fun d hd => by have := (mem_image hd).1; show base < d.1; omega, ih _⟩

theorem below_image {bs : List Byte} {n : Nat} (h : bs.length ≤ n) : Below n (image 0 bs) := by
  intro cell hm
  have := mem_image hm
  omega

end Memory

end Sys2Proof.Machine
end

