-- ==== Sys2Proof/Laws/State.lean ====
section
/-! SUPPORT. One lemma for each field of State under each named update: what the update writes, and that it leaves the rest. -/

namespace Sys2Proof.Machine

/-! sessionReset -/

@[simp] theorem sessionReset_cfg (s : State) : (sessionReset s).cfg = s.cfg := rfl
@[simp] theorem sessionReset_fifo (s : State) : (sessionReset s).fifo = s.fifo := rfl
@[simp] theorem sessionReset_ses_phase (s : State) : (sessionReset s).ses.phase = .awaitCommand := rfl
@[simp] theorem sessionReset_ses_activeCmd (s : State) : (sessionReset s).ses.activeCmd = s.ses.activeCmd := rfl
@[simp] theorem sessionReset_ses_byteCnt (s : State) : (sessionReset s).ses.byteCnt = 0#32 := rfl
@[simp] theorem sessionReset_ses_lastAct (s : State) : (sessionReset s).ses.lastAct = s.ses.lastAct := rfl
@[simp] theorem sessionReset_ses_wb (s : State) : (sessionReset s).ses.wb = s.ses.wb := rfl
@[simp] theorem sessionReset_ses_writeLen (s : State) : (sessionReset s).ses.writeLen = s.ses.writeLen := rfl
@[simp] theorem sessionReset_ses_readLen (s : State) : (sessionReset s).ses.readLen = s.ses.readLen := rfl
@[simp] theorem sessionReset_spi (s : State) : (sessionReset s).spi = s.spi := rfl
@[simp] theorem sessionReset_eng (s : State) : (sessionReset s).eng = s.eng := rfl
@[simp] theorem sessionReset_engOut (s : State) : (sessionReset s).engOut = s.engOut := rfl
@[simp] theorem sessionReset_clk (s : State) : (sessionReset s).clk = s.clk := rfl
@[simp] theorem sessionReset_turns (s : State) : (sessionReset s).turns = s.turns := rfl
@[simp] theorem sessionReset_drawn (s : State) : (sessionReset s).drawn = s.drawn := rfl
@[simp] theorem sessionReset_obs (s : State) : (sessionReset s).obs = s.obs := rfl

/-! sendStart -/

@[simp] theorem sendStart_cfg (bs : List Byte) (s : State) : (sendStart bs s).cfg = s.cfg := rfl
@[simp] theorem sendStart_fifo (bs : List Byte) (s : State) : (sendStart bs s).fifo = s.fifo := rfl
@[simp] theorem sendStart_ses (bs : List Byte) (s : State) : (sendStart bs s).ses = s.ses := rfl
@[simp] theorem sendStart_spi (bs : List Byte) (s : State) : (sendStart bs s).spi = s.spi := rfl
@[simp] theorem sendStart_eng (bs : List Byte) (s : State) : (sendStart bs s).eng = .send .put := rfl
@[simp] theorem sendStart_engOut (bs : List Byte) (s : State) : (sendStart bs s).engOut = bs := rfl
@[simp] theorem sendStart_clk (bs : List Byte) (s : State) : (sendStart bs s).clk = s.clk := rfl
@[simp] theorem sendStart_turns (bs : List Byte) (s : State) : (sendStart bs s).turns = s.turns := rfl
@[simp] theorem sendStart_drawn (bs : List Byte) (s : State) : (sendStart bs s).drawn = s.drawn := rfl
@[simp] theorem sendStart_obs_wire (bs : List Byte) (s : State) : (sendStart bs s).obs.wire = s.obs.wire := rfl
@[simp] theorem sendStart_obs_spi (bs : List Byte) (s : State) : (sendStart bs s).obs.spi = s.obs.spi := rfl
@[simp] theorem sendStart_obs_log (bs : List Byte) (s : State) : (sendStart bs s).obs.log = s.obs.log := rfl
@[simp] theorem sendStart_obs_errors (bs : List Byte) (s : State) : (sendStart bs s).obs.errors = s.obs.errors := rfl
@[simp] theorem sendStart_obs_accepted (bs : List Byte) (s : State) : (sendStart bs s).obs.accepted = s.obs.accepted := rfl
@[simp] theorem sendStart_obs_taken (bs : List Byte) (s : State) : (sendStart bs s).obs.taken = s.obs.taken := rfl
@[simp] theorem sendStart_obs_sent (bs : List Byte) (s : State) : (sendStart bs s).obs.sent = s.obs.sent ++ bs := rfl

/-! logEvent -/

@[simp] theorem logEvent_cfg (ev : LogEvent) (s : State) : (logEvent ev s).cfg = s.cfg := rfl
@[simp] theorem logEvent_fifo (ev : LogEvent) (s : State) : (logEvent ev s).fifo = s.fifo := rfl
@[simp] theorem logEvent_ses (ev : LogEvent) (s : State) : (logEvent ev s).ses = s.ses := rfl
@[simp] theorem logEvent_spi (ev : LogEvent) (s : State) : (logEvent ev s).spi = s.spi := rfl
@[simp] theorem logEvent_eng (ev : LogEvent) (s : State) : (logEvent ev s).eng = s.eng := rfl
@[simp] theorem logEvent_engOut (ev : LogEvent) (s : State) : (logEvent ev s).engOut = s.engOut := rfl
@[simp] theorem logEvent_clk (ev : LogEvent) (s : State) : (logEvent ev s).clk = s.clk := rfl
@[simp] theorem logEvent_turns (ev : LogEvent) (s : State) : (logEvent ev s).turns = s.turns := rfl
@[simp] theorem logEvent_drawn (ev : LogEvent) (s : State) : (logEvent ev s).drawn = s.drawn := rfl
@[simp] theorem logEvent_obs_wire (ev : LogEvent) (s : State) : (logEvent ev s).obs.wire = s.obs.wire := rfl
@[simp] theorem logEvent_obs_spi (ev : LogEvent) (s : State) : (logEvent ev s).obs.spi = s.obs.spi := rfl
@[simp] theorem logEvent_obs_log (ev : LogEvent) (s : State) : (logEvent ev s).obs.log = s.obs.log ++ [ev] := rfl
@[simp] theorem logEvent_obs_errors (ev : LogEvent) (s : State) : (logEvent ev s).obs.errors = s.obs.errors := rfl
@[simp] theorem logEvent_obs_accepted (ev : LogEvent) (s : State) : (logEvent ev s).obs.accepted = s.obs.accepted := rfl
@[simp] theorem logEvent_obs_taken (ev : LogEvent) (s : State) : (logEvent ev s).obs.taken = s.obs.taken := rfl
@[simp] theorem logEvent_obs_sent (ev : LogEvent) (s : State) : (logEvent ev s).obs.sent = s.obs.sent := rfl

/-! spiEvent -/

@[simp] theorem spiEvent_cfg (ev : SpiEvent) (s : State) : (spiEvent ev s).cfg = s.cfg := rfl
@[simp] theorem spiEvent_fifo (ev : SpiEvent) (s : State) : (spiEvent ev s).fifo = s.fifo := rfl
@[simp] theorem spiEvent_ses (ev : SpiEvent) (s : State) : (spiEvent ev s).ses = s.ses := rfl
@[simp] theorem spiEvent_spi (ev : SpiEvent) (s : State) : (spiEvent ev s).spi = s.spi := rfl
@[simp] theorem spiEvent_eng (ev : SpiEvent) (s : State) : (spiEvent ev s).eng = s.eng := rfl
@[simp] theorem spiEvent_engOut (ev : SpiEvent) (s : State) : (spiEvent ev s).engOut = s.engOut := rfl
@[simp] theorem spiEvent_clk (ev : SpiEvent) (s : State) : (spiEvent ev s).clk = s.clk := rfl
@[simp] theorem spiEvent_turns (ev : SpiEvent) (s : State) : (spiEvent ev s).turns = s.turns := rfl
@[simp] theorem spiEvent_drawn (ev : SpiEvent) (s : State) : (spiEvent ev s).drawn = s.drawn := rfl
@[simp] theorem spiEvent_obs_wire (ev : SpiEvent) (s : State) : (spiEvent ev s).obs.wire = s.obs.wire := rfl
@[simp] theorem spiEvent_obs_spi (ev : SpiEvent) (s : State) : (spiEvent ev s).obs.spi = s.obs.spi ++ [⟨ev, s.spi.freq, s.cfg.spiMode⟩] := rfl
@[simp] theorem spiEvent_obs_log (ev : SpiEvent) (s : State) : (spiEvent ev s).obs.log = s.obs.log := rfl
@[simp] theorem spiEvent_obs_errors (ev : SpiEvent) (s : State) : (spiEvent ev s).obs.errors = s.obs.errors := rfl
@[simp] theorem spiEvent_obs_accepted (ev : SpiEvent) (s : State) : (spiEvent ev s).obs.accepted = s.obs.accepted := rfl
@[simp] theorem spiEvent_obs_taken (ev : SpiEvent) (s : State) : (spiEvent ev s).obs.taken = s.obs.taken := rfl
@[simp] theorem spiEvent_obs_sent (ev : SpiEvent) (s : State) : (spiEvent ev s).obs.sent = s.obs.sent := rfl

/-! setTxIe -/

@[simp] theorem setTxIe_cfg (s : State) : (setTxIe s).cfg = s.cfg := rfl
@[simp] theorem setTxIe_fifo_rxq (s : State) : (setTxIe s).fifo.rxq = s.fifo.rxq := rfl
@[simp] theorem setTxIe_fifo_rxDrops (s : State) : (setTxIe s).fifo.rxDrops = s.fifo.rxDrops := rfl
@[simp] theorem setTxIe_fifo_txm (s : State) : (setTxIe s).fifo.txm = s.fifo.txm := rfl
@[simp] theorem setTxIe_fifo_txRd (s : State) : (setTxIe s).fifo.txRd = s.fifo.txRd := rfl
@[simp] theorem setTxIe_fifo_txCount (s : State) : (setTxIe s).fifo.txCount = s.fifo.txCount := rfl
@[simp] theorem setTxIe_fifo_txClaim (s : State) : (setTxIe s).fifo.txClaim = s.fifo.txClaim := rfl
@[simp] theorem setTxIe_fifo_txIe (s : State) : (setTxIe s).fifo.txIe = true := rfl
@[simp] theorem setTxIe_fifo_txSpace (s : State) : (setTxIe s).fifo.txSpace = s.fifo.txSpace := rfl
@[simp] theorem setTxIe_fifo_rxPass (s : State) : (setTxIe s).fifo.rxPass = s.fifo.rxPass := rfl
@[simp] theorem setTxIe_fifo_txOpen (s : State) : (setTxIe s).fifo.txOpen = s.fifo.txOpen := rfl
@[simp] theorem setTxIe_ses (s : State) : (setTxIe s).ses = s.ses := rfl
@[simp] theorem setTxIe_spi (s : State) : (setTxIe s).spi = s.spi := rfl
@[simp] theorem setTxIe_eng (s : State) : (setTxIe s).eng = s.eng := rfl
@[simp] theorem setTxIe_engOut (s : State) : (setTxIe s).engOut = s.engOut := rfl
@[simp] theorem setTxIe_clk (s : State) : (setTxIe s).clk = s.clk := rfl
@[simp] theorem setTxIe_turns (s : State) : (setTxIe s).turns = s.turns := rfl
@[simp] theorem setTxIe_drawn (s : State) : (setTxIe s).drawn = s.drawn := rfl
@[simp] theorem setTxIe_obs (s : State) : (setTxIe s).obs = s.obs := rfl

/-! setCs -/

@[simp] theorem setCs_cfg (v : Bool) (s : State) : (setCs v s).cfg = s.cfg := rfl
@[simp] theorem setCs_fifo (v : Bool) (s : State) : (setCs v s).fifo = s.fifo := rfl
@[simp] theorem setCs_ses (v : Bool) (s : State) : (setCs v s).ses = s.ses := rfl
@[simp] theorem setCs_spi_freq (v : Bool) (s : State) : (setCs v s).spi.freq = s.spi.freq := rfl
@[simp] theorem setCs_spi_fmax (v : Bool) (s : State) : (setCs v s).spi.fmax = s.spi.fmax := rfl
@[simp] theorem setCs_spi_cs (v : Bool) (s : State) : (setCs v s).spi.cs = v := rfl
@[simp] theorem setCs_eng (v : Bool) (s : State) : (setCs v s).eng = s.eng := rfl
@[simp] theorem setCs_engOut (v : Bool) (s : State) : (setCs v s).engOut = s.engOut := rfl
@[simp] theorem setCs_clk (v : Bool) (s : State) : (setCs v s).clk = s.clk := rfl
@[simp] theorem setCs_turns (v : Bool) (s : State) : (setCs v s).turns = s.turns := rfl
@[simp] theorem setCs_drawn (v : Bool) (s : State) : (setCs v s).drawn = s.drawn := rfl
@[simp] theorem setCs_obs (v : Bool) (s : State) : (setCs v s).obs = s.obs := rfl

/-! countByte -/

@[simp] theorem countByte_cfg (s : State) : (countByte s).cfg = s.cfg := rfl
@[simp] theorem countByte_fifo (s : State) : (countByte s).fifo = s.fifo := rfl
@[simp] theorem countByte_ses_phase (s : State) : (countByte s).ses.phase = s.ses.phase := rfl
@[simp] theorem countByte_ses_activeCmd (s : State) : (countByte s).ses.activeCmd = s.ses.activeCmd := rfl
@[simp] theorem countByte_ses_byteCnt (s : State) : (countByte s).ses.byteCnt = s.ses.byteCnt + 1#32 := rfl
@[simp] theorem countByte_ses_lastAct (s : State) : (countByte s).ses.lastAct = s.ses.lastAct := rfl
@[simp] theorem countByte_ses_wb (s : State) : (countByte s).ses.wb = s.ses.wb := rfl
@[simp] theorem countByte_ses_writeLen (s : State) : (countByte s).ses.writeLen = s.ses.writeLen := rfl
@[simp] theorem countByte_ses_readLen (s : State) : (countByte s).ses.readLen = s.ses.readLen := rfl
@[simp] theorem countByte_spi (s : State) : (countByte s).spi = s.spi := rfl
@[simp] theorem countByte_eng (s : State) : (countByte s).eng = s.eng := rfl
@[simp] theorem countByte_engOut (s : State) : (countByte s).engOut = s.engOut := rfl
@[simp] theorem countByte_clk (s : State) : (countByte s).clk = s.clk := rfl
@[simp] theorem countByte_turns (s : State) : (countByte s).turns = s.turns := rfl
@[simp] theorem countByte_drawn (s : State) : (countByte s).drawn = s.drawn := rfl
@[simp] theorem countByte_obs (s : State) : (countByte s).obs = s.obs := rfl

end Sys2Proof.Machine
end

