-- ==== Sys2Proof/Laws/Ops.lean ====
section
/-! SUPPORT. One lemma for each shared operation that says once what it can do. -/

namespace Sys2Proof.Machine

/-! Outcomes -/

theorem next_inj {s t : State} (h : (Host.Outcome.next s : Res) = .next t) : s = t := by cases h; rfl

/-! The work buffer's two accessors -/

/-- A store that answers stayed in range, and went on with the bytes in place. -/
theorem storeWB_next {i : Nat} {bs : List Byte} {s t : State} {k : State → Res} (h : storeWB i bs s k = .next t) :
    i + bs.length ≤ s.cfg.wCap ∧ k { s with ses.wb := s.ses.wb.writeList i bs } = .next t := by
  unfold storeWB at h
  split at h
  · exact ⟨‹_›, h⟩
  · cases h

theorem storeWB_eq {i : Nat} {bs : List Byte} {s : State} (k : State → Res) (h : i + bs.length ≤ s.cfg.wCap) :
    storeWB i bs s k = k { s with ses.wb := s.ses.wb.writeList i bs } := if_pos h

/-- A load that answers stayed in range, and went on with the bytes. -/
theorem loadWB_next {i n : Nat} {s t : State} {k : List Byte → Res} (h : loadWB i n s k = .next t) :
    i + n ≤ s.cfg.wCap ∧ k (s.ses.wb.readList i n) = .next t := by
  unfold loadWB at h
  split at h
  · exact ⟨‹_›, h⟩
  · cases h

theorem loadWB_eq {i n : Nat} {s : State} (k : List Byte → Res) (h : i + n ≤ s.cfg.wCap) :
    loadWB i n s k = k (s.ses.wb.readList i n) := if_pos h

/-! The end of a byte, and errors -/

@[simp] theorem finish_nil (s : State) : finish [] s = { s with eng := .wait } := rfl

@[simp] theorem finish_cons (b : Byte) (bs : List Byte) (s : State) : finish (b :: bs) s = sendStart (b :: bs) s := rfl

theorem raise_transportOverflow (s : State) : raise .transportOverflow s =
    { s with
      fifo.rxDrops := satInc32 s.fifo.rxDrops
      obs.errors := s.obs.errors ++ [.transportOverflow]
      obs.log := s.obs.log ++ [.rxDrop] } := rfl

theorem raise_overflowGuard (s : State) : raise .overflowGuard s =
    sendStart [s.cfg.nak] (sessionReset { s with obs.errors := s.obs.errors ++ [.overflowGuard] }) := rfl

theorem raise_protocolViolation (s : State) : raise .protocolViolation s =
    sendStart [s.cfg.nak] { s with obs.errors := s.obs.errors ++ [.protocolViolation] } := rfl

theorem raise_busFailure (s : State) : raise .busFailure s =
    sendStart [s.cfg.nak] (sessionReset { s with obs.errors := s.obs.errors ++ [.busFailure] }) := rfl

theorem raise_idleTimeout (s : State) : raise .idleTimeout s =
    { s with
      ses.phase := .awaitCommand
      ses.byteCnt := 0#32
      obs.errors := s.obs.errors ++ [.idleTimeout]
      obs.log := s.obs.log ++ [.dataTimeout] } := rfl

/-- `sat_inc_32` stays, or rises by one below its top. -/
theorem satInc32_cases (v : U32) : (v.toNat = 2 ^ 32 - 1 ∧ satInc32 v = v) ∨
    (v.toNat < 2 ^ 32 - 1 ∧ satInc32 v = v + 1#32 ∧ (satInc32 v).toNat = v.toNat + 1) := by
  unfold satInc32
  have := v.isLt
  split
  · rename_i h
    refine .inr ⟨h, rfl, ?_⟩
    rw [BitVec.toNat_add]
    simp
    omega
  · exact .inl ⟨by omega, rfl⟩

/-! Bytes in order -/

theorem le_cons (b : Byte) (bs : List Byte) : le (b :: bs) = b.toNat + 256 * le bs := rfl

theorem le_lt (bs : List Byte) : le bs < 256 ^ bs.length := by
  induction bs with
  | nil => simp [le]
  | cons b bs ih =>
    have := b.isLt
    simp only [le, List.length_cons, Nat.pow_succ]
    omega

/-! The schedule -/

theorem nextTurn_cons {s : State} {t : Turn} {ts : List Turn} (h : s.turns = t :: ts) :
    nextTurn s = (t, { s with turns := ts }) := by simp [nextTurn, h]

/-- A step with a schedule fires its head. -/
theorem step_cons {s : State} {t : Turn} {ts : List Turn} (h : s.turns = t :: ts) :
    step s = fire t { s with turns := ts } := by simp [step, nextTurn_cons h]

/-- Whatever comes next, the state it comes to differs in the schedule and the draw counter alone. -/
theorem nextTurn_frame (s : State) : ∃ ts n, (nextTurn s).2 = { s with turns := ts, drawn := n } := by
  unfold nextTurn
  split
  · exact ⟨_, _, rfl⟩
  · exact ⟨_, _, rfl⟩

/-- A step is some event, at a state that differs in the schedule and the draw counter alone. -/
theorem step_next_fire {s t : State} (h : step s = .next t) :
    ∃ turn ts n, fire turn { s with turns := ts, drawn := n } = .next t := by
  obtain ⟨ts, n, e⟩ := nextTurn_frame s
  exact ⟨(nextTurn s).1, ts, n, by rw [← e]; exact h⟩

end Sys2Proof.Machine
end

