-- ==== Sys2Proof/Laws/Agents.lean ====
section
/-! SUPPORT. What each agent's operation does, said once. -/

namespace Sys2Proof.Machine

/-! The queues -/

/-- The commit, where it is enabled and the chunk lies in the ring (R104). -/
theorem txCommit_eq {k : Nat} {s : State} (ho : s.fifo.txOpen = true) (hk : k ≤ s.fifo.txClaim)
    (hr : s.fifo.txRd + k ≤ s.cfg.cTx) : txCommit k s = .next { s with
      obs.wire := s.obs.wire ++ s.fifo.txm.readList s.fifo.txRd k
      fifo.txRd := (s.fifo.txRd + k) % s.cfg.cTx
      fifo.txCount := s.fifo.txCount - k
      fifo.txClaim := 0
      fifo.txSpace := spaceAfter k s.fifo.txSpace
      fifo.txIe := ieAfter (s.fifo.txCount - k) s.fifo.txIe
      fifo.txOpen := false } := by
  rw [txCommit, if_pos ⟨ho, hk⟩, if_pos hr]

/-- What a commit can do: nothing where it is not enabled, else what R104 says. -/
theorem txCommit_next {k : Nat} {s t : State} (h : txCommit k s = .next t) :
    (¬ (s.fifo.txOpen = true ∧ k ≤ s.fifo.txClaim) ∧ t = s) ∨
    (s.fifo.txOpen = true ∧ k ≤ s.fifo.txClaim ∧ s.fifo.txRd + k ≤ s.cfg.cTx ∧ t = { s with
      obs.wire := s.obs.wire ++ s.fifo.txm.readList s.fifo.txRd k
      fifo.txRd := (s.fifo.txRd + k) % s.cfg.cTx
      fifo.txCount := s.fifo.txCount - k
      fifo.txClaim := 0
      fifo.txSpace := spaceAfter k s.fifo.txSpace
      fifo.txIe := ieAfter (s.fifo.txCount - k) s.fifo.txIe
      fifo.txOpen := false }) := by
  by_cases hc : s.fifo.txOpen = true ∧ k ≤ s.fifo.txClaim
  · by_cases hr : s.fifo.txRd + k ≤ s.cfg.cTx
    · rw [txCommit_eq hc.1 hc.2 hr] at h
      exact .inr ⟨hc.1, hc.2, hr, (next_inj h).symm⟩
    · rw [txCommit, if_pos hc, if_neg hr] at h
      cases h
  · rw [txCommit, if_neg hc] at h
    exact .inl ⟨hc, (next_inj h).symm⟩

/-- The claim: nothing where it is not enabled, else the contiguous chunk (R103). -/
theorem txClaim_cases (s : State) : txClaim s = s ∨
    (s.fifo.txIe = true ∧ s.fifo.txClaim = 0 ∧ s.fifo.txOpen = false ∧ txClaim s =
      { s with fifo.txClaim := min s.fifo.txCount (s.cfg.cTx - s.fifo.txRd), fifo.txOpen := true }) := by
  unfold txClaim
  split
  · rename_i h
    exact .inr ⟨h.1, h.2.1, h.2.2, rfl⟩
  · exact .inl rfl

/-- With the interrupt off there is no claim (R103). -/
theorem txClaim_off {s : State} (h : s.fifo.txIe = false) : txClaim s = s := by simp [txClaim, h]

/-- With no claim made there is no commit (R104). -/
theorem txCommit_closed {s : State} (h : s.fifo.txOpen = false) (k : Nat) : txCommit k s = .next s := by simp [txCommit, h]

/-- RXA's step: none without a pass, else one byte queued or dropped (R93, R94). -/
theorem rxDrainStep_cases (s : State) : (s.fifo.rxPass = [] ∧ rxDrainStep s = s) ∨
    (∃ b rest, s.fifo.rxPass = b :: rest ∧ s.fifo.rxq.length < s.cfg.cRx ∧ rxDrainStep s =
      { s with
        fifo.rxPass := rest
        fifo.rxq := s.fifo.rxq ++ [b]
        obs.accepted := s.obs.accepted ++ [b] }) ∨
    (∃ b rest, s.fifo.rxPass = b :: rest ∧ s.cfg.cRx ≤ s.fifo.rxq.length ∧ rxDrainStep s =
      { s with
        fifo.rxPass := rest
        fifo.rxDrops := satInc32 s.fifo.rxDrops
        obs.log := s.obs.log ++ [.rxDrop]
        obs.errors := s.obs.errors ++ [.transportOverflow] }) := by
  unfold rxDrainStep
  split
  · rename_i h
    exact .inl ⟨h, rfl⟩
  · rename_i b rest h
    by_cases hl : s.fifo.rxq.length < s.cfg.cRx
    · exact .inr (.inl ⟨b, rest, h, hl, by simp [rxPush, hl]⟩)
    · exact .inr (.inr ⟨b, rest, h, by omega, by simp [rxPush, hl, raise_transportOverflow]⟩)

/-- `rx_ready`: a new pass, or no event while one runs (R93). -/
theorem rxReady_cases (bs : List Byte) (s : State) :
    rxReady bs s = s ∨ (s.fifo.rxPass = [] ∧ rxReady bs s = { s with fifo.rxPass := bs }) := by
  unfold rxReady
  split
  · exact .inr ⟨‹_›, rfl⟩
  · exact .inl rfl

/-- `RX_POP` (R97): enabled only in WAIT with a byte queued. -/
theorem rxPop_some {s u : State} {c : Byte} (h : rxPop s = some (c, u)) :
    s.eng = .wait ∧ ∃ rest, s.fifo.rxq = c :: rest ∧
      u = { s with fifo.rxq := rest, eng := .run (.onByte c), obs.taken := s.obs.taken ++ [c] } := by
  unfold rxPop at h
  split at h
  · rename_i c' rest he hq
    simp only [Option.some.injEq, Prod.mk.injEq] at h
    exact ⟨he, rest, by rw [hq, h.1], by rw [← h.2, h.1]⟩
  · cases h

/-- The clock moves forward or stays (R181). -/
theorem clockStep_cases (t : U64) (s : State) :
    clockStep t s = s ∨ (s.clk.toNat ≤ t.toNat ∧ clockStep t s = { s with clk := t }) := by
  unfold clockStep
  split
  · exact .inr ⟨‹_›, rfl⟩
  · exact .inl rfl

/-! One byte -/

/-- The timeout check, in one of its two ways (R114). -/
theorem timeoutCheck_cases (s : State) :
    (s.ses.phase = .awaitData ∧ s.cfg.tData.toNat < s.clk.toNat - s.ses.lastAct.toNat ∧
      timeoutCheck s = { s with
        ses.phase := .awaitCommand
        ses.byteCnt := 0#32
        obs.errors := s.obs.errors ++ [.idleTimeout]
        obs.log := s.obs.log ++ [.dataTimeout] }) ∨
    (¬ (s.ses.phase = .awaitData ∧ s.cfg.tData.toNat < s.clk.toNat - s.ses.lastAct.toNat) ∧ timeoutCheck s = s) := by
  by_cases h : s.ses.phase = .awaitData ∧ s.cfg.tData.toNat < s.clk.toNat - s.ses.lastAct.toNat
  · refine .inl ⟨h.1, h.2, ?_⟩
    rw [timeoutCheck, if_pos (by simp [timedOut, h.1, h.2]), raise_idleTimeout]
  · refine .inr ⟨h, ?_⟩
    rw [timeoutCheck, if_neg]
    simpa [timedOut] using h

theorem timeoutCheck_of {s : State} (h : ¬ (s.ses.phase = .awaitData ∧
    s.cfg.tData.toNat < s.clk.toNat - s.ses.lastAct.toNat)) : timeoutCheck s = s := by
  rcases timeoutCheck_cases s with h' | h'
  · exact absurd ⟨h'.1, h'.2.1⟩ h
  · exact h'.2

/-- What a byte becomes once it answers: some instruction, well read, executed on the checked state (R113). -/
theorem onByte_next {c : Byte} {s t : State} (h : onByte c s = .next t) :
    ∃ i, decodeByte c (timeoutCheck s) = .ok i ∧ exec i (timeoutCheck s) = .next t := by
  unfold onByte at h
  split at h
  · exact ⟨_, ‹_›, h⟩
  · cases h

/-- A decoded byte runs (R113). -/
theorem onByte_eq {c : Byte} {s : State} {i : Instr} (h : decodeByte c (timeoutCheck s) = .ok i) :
    onByte c s = exec i (timeoutCheck s) := by
  unfold onByte
  rw [h]

/-! Runs -/

/-- A run goes on from what the head of the schedule does. -/
theorem steps_cons {s u : State} {t : Turn} {ts : List Turn} {n : Nat} (h : s.turns = t :: ts)
    (e : fire t { s with turns := ts } = .next u) : steps (n + 1) s = steps n u := by
  rw [steps, step_cons h, e]

theorem steps_add (m n : Nat) (s t : State) (h : steps m s = .next t) : steps (m + n) s = steps n t := by
  induction m generalizing s with
  | zero => cases h; rw [Nat.zero_add]
  | succ m ih =>
    rw [show m + 1 + n = (m + n) + 1 by omega]
    rw [steps] at h ⊢
    split at h
    · exact ih _ h
    · cases h
    · cases h

end Sys2Proof.Machine
end

