-- ==== Sys2Proof/Laws/Exec.lean ====
section
/-! SUPPORT. What each shared part of a meaning answers, said once: equations where it runs, and what a next state can be. -/

namespace Sys2Proof.Machine

/-! Immediate commands -/

/-- An immediate response that fits (R116–R118). -/
theorem immediate_eq {resp : List Byte} {s : State} (hne : resp ≠ []) (h : resp.length ≤ s.cfg.wCap) :
    immediate resp s =
      .next (sendStart resp { s with ses.byteCnt := 0#32, ses.wb := s.ses.wb.writeList 0 resp }) := by
  unfold immediate
  rw [storeWB_eq _ (by simpa using h)]
  simp [finish, hne]

/-- An immediate that answers does what R116–R118 say. -/
theorem immediate_next {resp : List Byte} {s t : State} (hne : resp ≠ []) (h : immediate resp s = .next t) :
    resp.length ≤ s.cfg.wCap ∧
      t = sendStart resp { s with ses.byteCnt := 0#32, ses.wb := s.ses.wb.writeList 0 resp } := by
  have hl : resp.length ≤ s.cfg.wCap := by
    unfold immediate at h
    simpa using (storeWB_next h).1
  rw [immediate_eq hne hl] at h
  exact ⟨hl, (next_inj h).symm⟩

theorem execUnrecognized_eq {code : Byte} {s : State} (h : 1 ≤ s.cfg.wCap) : execUnrecognized code s =
    .next (sendStart [s.cfg.nak] { s with
      ses.byteCnt := 0#32
      ses.wb := s.ses.wb.writeList 0 [s.cfg.nak]
      obs.errors := s.obs.errors ++ [.protocolViolation] }) := by
  unfold execUnrecognized
  rw [storeWB_eq _ (by simpa using h)]
  rfl

/-! Data bytes -/

/-- A data byte at the guard (R138). -/
theorem dataByte_guard {handler : State → Res} {s : State} (h : s.cfg.wCap ≤ s.ses.byteCnt.toNat) :
    dataByte handler s = .next (raise .overflowGuard { s with ses.lastAct := s.clk }) := by
  unfold dataByte
  rw [if_pos (by simpa [guardTrips] using h)]

/-- A data byte below it goes to its handler, with the stamp made (R137). -/
theorem dataByte_eq {handler : State → Res} {s : State} (h : s.ses.byteCnt.toNat < s.cfg.wCap) :
    dataByte handler s = handler { s with ses.lastAct := s.clk } := by
  unfold dataByte
  rw [if_neg (by simpa [guardTrips] using h)]

/-- What `Execute` comes to (R143, R156). -/
theorem execute_cases (s : State) :
    (s.cfg.wCap < s.ses.readLen.toNat ∧ execute s = .next (raise .overflowGuard s)) ∨
    (s.ses.readLen.toNat ≤ s.cfg.wCap ∧ s.ses.writeLen.toNat = 0 ∧ s.ses.readLen.toNat = 0 ∧
      execute s = .next (raise .busFailure (sessionReset s))) ∨
    (s.ses.readLen.toNat ≤ s.cfg.wCap ∧ ¬ (s.ses.writeLen.toNat = 0 ∧ s.ses.readLen.toNat = 0) ∧
      execute s = .next { s with eng := .run .csAssert }) := by
  unfold execute
  split
  · exact .inl ⟨‹_›, rfl⟩
  · rename_i h
    unfold transferStart
    split
    · rename_i h2
      exact .inr (.inl ⟨by omega, h2.1, h2.2, rfl⟩)
    · exact .inr (.inr ⟨by omega, ‹_›, rfl⟩)

/-- `Execute` always answers, and one of three ways. -/
theorem execute_next {s t : State} (h : execute s = .next t) :
    (s.cfg.wCap < s.ses.readLen.toNat ∧ t = raise .overflowGuard s) ∨
    (s.ses.writeLen.toNat = 0 ∧ s.ses.readLen.toNat = 0 ∧ t = raise .busFailure (sessionReset s)) ∨
    (s.ses.readLen.toNat ≤ s.cfg.wCap ∧ ¬ (s.ses.writeLen.toNat = 0 ∧ s.ses.readLen.toNat = 0) ∧
      t = { s with eng := .run .csAssert }) := by
  rcases execute_cases s with ⟨a, e⟩ | ⟨_, b, c, e⟩ | ⟨a, b, e⟩ <;> rw [e] at h <;> cases h
  · exact .inl ⟨a, rfl⟩
  · exact .inr (.inl ⟨b, c, rfl⟩)
  · exact .inr (.inr ⟨a, b, rfl⟩)

/-- A header byte that does not complete the header (R140). -/
theorem headerByte_eq {c : Byte} {s : State} (h : s.ses.byteCnt.toNat < s.cfg.wCap)
    (h6 : (s.ses.byteCnt + 1#32).toNat ≠ 6) : headerByte c s = .next { s with
      ses.wb := s.ses.wb.writeList s.ses.byteCnt.toNat [c]
      ses.byteCnt := s.ses.byteCnt + 1#32
      eng := .wait } := by
  unfold headerByte
  rw [storeWB_eq _ (by simpa using h)]
  exact (if_neg h6).trans rfl

/-- The state in which a complete header is acted on (R141). -/
def headerDone (c : Byte) (s : State) : State :=
  { s with
    ses.wb := s.ses.wb.writeList s.ses.byteCnt.toNat [c]
    ses.byteCnt := s.ses.byteCnt + 1#32
    ses.writeLen := headerWriteLen ((s.ses.wb.writeList s.ses.byteCnt.toNat [c]).readList 0 6)
    ses.readLen := headerReadLen ((s.ses.wb.writeList s.ses.byteCnt.toNat [c]).readList 0 6) }

/-- The byte that completes the header (R141). -/
theorem headerByte_done {c : Byte} {s : State} (h : s.ses.byteCnt.toNat < s.cfg.wCap) (hw : 6 ≤ s.cfg.wCap)
    (h6 : (s.ses.byteCnt + 1#32).toNat = 6) : headerByte c s =
      if (headerDone c s).ses.writeLen.toNat = 0 then execute (headerDone c s)
      else .next { headerDone c s with eng := .wait } := by
  unfold headerByte
  rw [storeWB_eq _ (by simpa using h)]
  refine (if_pos h6).trans ?_
  rw [headerComplete, loadWB_eq _ (by simpa [countByte] using hw)]
  rfl

/-- The state after a payload byte is stored and counted (R142). -/
def payloadStored (c : Byte) (s : State) : State :=
  { s with
    ses.wb := s.ses.wb.writeList (s.ses.byteCnt.toNat - 6) [c]
    ses.byteCnt := s.ses.byteCnt + 1#32 }

/-- A payload byte (R142). -/
theorem payloadByte_eq {c : Byte} {s : State} (h : s.ses.byteCnt.toNat - 6 + 1 ≤ s.cfg.wCap) : payloadByte c s =
    if (s.ses.byteCnt + 1#32).toNat - 6 = s.ses.writeLen.toNat then execute (payloadStored c s)
    else .next { payloadStored c s with eng := .wait } := by
  unfold payloadByte
  rw [storeWB_eq _ (by simpa [payloadIndex] using h)]
  rfl

/-- The state after a frequency byte is stored and counted (R147). -/
def freqStored (c : Byte) (s : State) : State :=
  { s with
    ses.wb := s.ses.wb.writeList s.ses.byteCnt.toNat [c]
    ses.byteCnt := s.ses.byteCnt + 1#32 }

/-- A frequency byte that does not complete the frequency (R147). -/
theorem freqData_eq {c : Byte} {s : State} (h : s.ses.byteCnt.toNat < s.cfg.wCap)
    (h4 : (s.ses.byteCnt + 1#32).toNat ≠ 4) : freqData c s = .next { freqStored c s with eng := .wait } := by
  unfold freqData
  rw [storeWB_eq _ (by simpa using h)]
  exact (if_neg h4).trans rfl

/-- The byte that completes it (R148). -/
theorem freqData_done {c : Byte} {s : State} (h : s.ses.byteCnt.toNat < s.cfg.wCap) (hw : 4 ≤ s.cfg.wCap)
    (h4 : (s.ses.byteCnt + 1#32).toNat = 4) : freqData c s =
      if frequencyOf ((freqStored c s).ses.wb.readList 0 4) = 0#32 then
        .next (raise .protocolViolation (sessionReset (freqStored c s)))
      else .next (sendStart (s.cfg.ack :: (freqStored c s).ses.wb.readList 0 4)
        { sessionReset (freqStored c s) with
          spi.freq := clampFrequency (frequencyOf ((freqStored c s).ses.wb.readList 0 4)) s.spi.fmax }) := by
  unfold freqData
  rw [storeWB_eq _ (by simpa using h)]
  refine (if_pos h4).trans ?_
  rw [freqComplete, loadWB_eq _ (by simpa [countByte] using hw)]
  rfl

/-- The end of a transfer (R143). -/
theorem afterTransfer_ok {s : State} (h : s.ses.readLen.toNat ≤ s.cfg.wCap) : afterTransfer true s =
    .next (sendStart (s.cfg.ack :: s.ses.wb.readList 0 s.ses.readLen.toNat) (sessionReset s)) := by
  simp only [afterTransfer, if_true]
  rw [loadWB_eq _ (by simpa using h)]
  rfl

theorem afterTransfer_fail (s : State) : afterTransfer false s = .next (raise .busFailure (sessionReset s)) := rfl

/-- The assert, and the phase that follows it (R155). -/
theorem csAssertStep_eq (s : State) : csAssertStep s = { spiEvent .csAssert (setCs true s) with
    eng := if 0 < s.ses.writeLen.toNat then .run .spiWrite
      else if 0 < s.ses.readLen.toNat then .run .spiRead else .run (.csRelease true) } := by
  by_cases hw : 0 < s.ses.writeLen.toNat
  · exact (if_pos hw).trans (by rw [if_pos hw])
  · refine (if_neg hw).trans ?_
    rw [if_neg hw]
    by_cases hr : 0 < s.ses.readLen.toNat
    · exact (if_pos hr).trans (by rw [if_pos hr])
    · exact (if_neg hr).trans (by rw [if_neg hr])

/-- `TX_IE <- 1` and the end of `Send`'s round (R101). -/
theorem txEnable_eq (s : State) : txEnable s =
    { s with fifo.txIe := true, eng := if s.engOut = [] then .wait else .send .wait } := by
  by_cases h : s.engOut = []
  · exact (if_pos h).trans (by rw [if_pos h]; rfl)
  · exact (if_neg h).trans (by rw [if_neg h]; rfl)

/-- The wait leaves the signal clear either way (R102). -/
theorem txWait_eq (s : State) : txWait s = { s with fifo.txSpace := false, eng := .send .put } := by
  unfold txWait clearSpace
  split
  · rfl
  · rename_i h
    have : s.fifo.txSpace = false := by simpa using h
    rw [← this]

/-- The write phase (R155, R156). -/
theorem spiWriteStep_eq {ok : Bool} {s : State} (h : s.ses.writeLen.toNat ≤ s.cfg.wCap) : spiWriteStep ok s =
    .next { spiEvent (.write (s.ses.wb.readList 0 s.ses.writeLen.toNat)) s with
      eng := if ok = true ∧ 0 < s.ses.readLen.toNat then .run .spiRead else .run (.csRelease ok) } := by
  unfold spiWriteStep
  rw [loadWB_eq _ (by simpa using h)]
  by_cases hc : ok = true ∧ 0 < s.ses.readLen.toNat
  · exact (if_pos hc).trans (by rw [if_pos hc])
  · exact (if_neg hc).trans (by rw [if_neg hc])

/-- The read phase (R155). -/
theorem spiReadStep_eq {ok : Bool} {data : List Byte} {s : State} (hd : data.length = s.ses.readLen.toNat)
    (h : s.ses.readLen.toNat ≤ s.cfg.wCap) : spiReadStep ok data s =
    .next { spiEvent (.read s.ses.readLen.toNat s.cfg.spiFill) s with
      ses.wb := s.ses.wb.writeList 0 data
      eng := .run (.csRelease ok) } := by
  unfold spiReadStep
  rw [if_pos hd, storeWB_eq _ (by simpa [hd] using h)]
  rfl

/-! What a meaning that answers did -/

/-- S_BUSTYPE's data byte, below the guard (R139). -/
theorem busTypeData_next {b : Byte} {s t : State} (h : busTypeData b s = .next t) :
    (b = s.cfg.bustypeSpi ∧ t = sendStart [s.cfg.ack] (sessionReset s)) ∨
    (b ≠ s.cfg.bustypeSpi ∧ t = raise .protocolViolation (sessionReset s)) := by
  by_cases hb : b = s.cfg.bustypeSpi
  · refine .inl ⟨hb, ?_⟩
    have e : busTypeData b s = .next (finish [s.cfg.ack] (sessionReset s)) :=
      if_pos (by simp [busTypeMatches, hb])
    rw [e] at h
    exact (next_inj h).symm
  · refine .inr ⟨hb, ?_⟩
    have e : busTypeData b s = .next (raise .protocolViolation (sessionReset s)) :=
      if_neg (by simp [busTypeMatches, hb])
    rw [e] at h
    exact (next_inj h).symm

/-- A header byte: stored and counted, or the header complete and acted on (R140, R141). -/
theorem headerByte_next {c : Byte} {s t : State} (h : headerByte c s = .next t) :
    s.ses.byteCnt.toNat < s.cfg.wCap ∧
    (((s.ses.byteCnt + 1#32).toNat ≠ 6 ∧ t = { s with
        ses.wb := s.ses.wb.writeList s.ses.byteCnt.toNat [c]
        ses.byteCnt := s.ses.byteCnt + 1#32
        eng := .wait }) ∨
     ((s.ses.byteCnt + 1#32).toNat = 6 ∧ (headerDone c s).ses.writeLen.toNat ≠ 0 ∧
        t = { headerDone c s with eng := .wait }) ∨
     ((s.ses.byteCnt + 1#32).toNat = 6 ∧ (headerDone c s).ses.writeLen.toNat = 0 ∧
        execute (headerDone c s) = .next t)) := by
  have hl : s.ses.byteCnt.toNat < s.cfg.wCap := by
    unfold headerByte at h
    simpa using (storeWB_next h).1
  refine ⟨hl, ?_⟩
  by_cases h6 : (s.ses.byteCnt + 1#32).toNat = 6
  · have hw : 6 ≤ s.cfg.wCap := by
      unfold headerByte at h
      have h2 := (if_pos h6 : (if (s.ses.byteCnt + 1#32).toNat = 6 then _ else _) = _).symm.trans (storeWB_next h).2
      unfold headerComplete at h2
      simpa using (loadWB_next h2).1
    rw [headerByte_done hl hw h6] at h
    split at h
    · exact .inr (.inr ⟨h6, ‹_›, h⟩)
    · exact .inr (.inl ⟨h6, ‹_›, (next_inj h).symm⟩)
  · rw [headerByte_eq hl h6] at h
    exact .inl ⟨h6, (next_inj h).symm⟩

/-- A payload byte: stored and counted, or the operation executed (R142). -/
theorem payloadByte_next {c : Byte} {s t : State} (h : payloadByte c s = .next t) :
    s.ses.byteCnt.toNat - 6 + 1 ≤ s.cfg.wCap ∧
    (((s.ses.byteCnt + 1#32).toNat - 6 ≠ s.ses.writeLen.toNat ∧ t = { payloadStored c s with eng := .wait }) ∨
     ((s.ses.byteCnt + 1#32).toNat - 6 = s.ses.writeLen.toNat ∧ execute (payloadStored c s) = .next t)) := by
  have hl : s.ses.byteCnt.toNat - 6 + 1 ≤ s.cfg.wCap := by
    unfold payloadByte at h
    simpa [payloadIndex] using (storeWB_next h).1
  rw [payloadByte_eq hl] at h
  refine ⟨hl, ?_⟩
  split at h
  · exact .inr ⟨‹_›, h⟩
  · exact .inl ⟨‹_›, (next_inj h).symm⟩

/-- A frequency byte: stored and counted, or the frequency complete (R147, R148). -/
theorem freqData_next {c : Byte} {s t : State} (h : freqData c s = .next t) :
    s.ses.byteCnt.toNat < s.cfg.wCap ∧
    (((s.ses.byteCnt + 1#32).toNat ≠ 4 ∧ t = { freqStored c s with eng := .wait }) ∨
     ((s.ses.byteCnt + 1#32).toNat = 4 ∧ t = raise .protocolViolation (sessionReset (freqStored c s))) ∨
     ((s.ses.byteCnt + 1#32).toNat = 4 ∧ t = sendStart (s.cfg.ack :: (freqStored c s).ses.wb.readList 0 4)
        { sessionReset (freqStored c s) with
          spi.freq := clampFrequency (frequencyOf ((freqStored c s).ses.wb.readList 0 4)) s.spi.fmax })) := by
  have hl : s.ses.byteCnt.toNat < s.cfg.wCap := by
    unfold freqData at h
    simpa using (storeWB_next h).1
  refine ⟨hl, ?_⟩
  by_cases h4 : (s.ses.byteCnt + 1#32).toNat = 4
  · have hw : 4 ≤ s.cfg.wCap := by
      unfold freqData at h
      have h2 := (if_pos h4 : (if (s.ses.byteCnt + 1#32).toNat = 4 then _ else _) = _).symm.trans (storeWB_next h).2
      unfold freqComplete at h2
      simpa using (loadWB_next h2).1
    rw [freqData_done hl hw h4] at h
    split at h
    · exact .inr (.inl ⟨h4, (next_inj h).symm⟩)
    · exact .inr (.inr ⟨h4, (next_inj h).symm⟩)
  · rw [freqData_eq hl h4] at h
    exact .inl ⟨h4, (next_inj h).symm⟩

/-- A data byte that answers: the guard, or its handler on the stamped state (R136–R138). -/
theorem dataByte_next {handler : State → Res} {s t : State} (h : dataByte handler s = .next t) :
    (s.cfg.wCap ≤ s.ses.byteCnt.toNat ∧ t = raise .overflowGuard { s with ses.lastAct := s.clk }) ∨
    (s.ses.byteCnt.toNat < s.cfg.wCap ∧ handler { s with ses.lastAct := s.clk } = .next t) := by
  by_cases hg : s.cfg.wCap ≤ s.ses.byteCnt.toNat
  · rw [dataByte_guard hg] at h
    exact .inl ⟨hg, (next_inj h).symm⟩
  · rw [dataByte_eq (by omega)] at h
    exact .inr ⟨by omega, h⟩

/-- An unrecognized code that answers (R133). -/
theorem execUnrecognized_next {code : Byte} {s t : State} (h : execUnrecognized code s = .next t) :
    1 ≤ s.cfg.wCap ∧ t = sendStart [s.cfg.nak] { s with
      ses.byteCnt := 0#32
      ses.wb := s.ses.wb.writeList 0 [s.cfg.nak]
      obs.errors := s.obs.errors ++ [.protocolViolation] } := by
  have hl : 1 ≤ s.cfg.wCap := by
    unfold execUnrecognized at h
    simpa using (storeWB_next h).1
  rw [execUnrecognized_eq hl] at h
  exact ⟨hl, (next_inj h).symm⟩

/-- A command byte that answers: an immediate's response, an unrecognized code's, or a dispatch (R116–R119, R133). -/
theorem exec_command_next {i : Instr} {s t : State} (hp : i.phase = .awaitCommand) (h : exec i s = .next t) :
    (∃ resp, resp ≠ [] ∧ ((∃ payload, resp = s.cfg.ack :: payload) ∨ (i = .syncnop ∧ resp = [s.cfg.nak, s.cfg.ack])) ∧
      resp.length ≤ s.cfg.wCap ∧
      t = sendStart resp { s with ses.byteCnt := 0#32, ses.wb := s.ses.wb.writeList 0 resp }) ∨
    (1 ≤ s.cfg.wCap ∧ t = sendStart [s.cfg.nak] { s with
      ses.byteCnt := 0#32
      ses.wb := s.ses.wb.writeList 0 [s.cfg.nak]
      obs.errors := s.obs.errors ++ [.protocolViolation] }) ∨
    (∃ c ∈ s.cfg.codes.deferred, t =
      { s with eng := .wait, ses.phase := .awaitData, ses.activeCmd := c, ses.byteCnt := 0#32, ses.lastAct := s.clk }) := by
  have imm : ∀ resp : List Byte, resp ≠ [] →
      ((∃ payload, resp = s.cfg.ack :: payload) ∨ (i = .syncnop ∧ resp = [s.cfg.nak, s.cfg.ack])) →
      immediate resp s = .next t → ∃ resp, resp ≠ [] ∧
        ((∃ payload, resp = s.cfg.ack :: payload) ∨ (i = .syncnop ∧ resp = [s.cfg.nak, s.cfg.ack])) ∧
        resp.length ≤ s.cfg.wCap ∧
        t = sendStart resp { s with ses.byteCnt := 0#32, ses.wb := s.ses.wb.writeList 0 resp } :=
    fun resp hne hs h => ⟨resp, hne, hs, immediate_next hne h⟩
  cases i with
  | nop => exact .inl <| imm _ (by simp) (.inl ⟨_, rfl⟩) h
  | qIface => exact .inl <| imm _ (by simp) (.inl ⟨_, rfl⟩) h
  | qCmdmap => exact .inl <| imm _ (by simp) (.inl ⟨_, rfl⟩) h
  | qPgmname => exact .inl <| imm _ (by simp) (.inl ⟨_, rfl⟩) h
  | qSerbuf => exact .inl <| imm _ (by simp) (.inl ⟨_, rfl⟩) h
  | qBustype => exact .inl <| imm _ (by simp) (.inl ⟨_, rfl⟩) h
  | qOpbuf => exact .inl <| imm _ (by simp) (.inl ⟨_, rfl⟩) h
  | qWrnmaxlen => exact .inl <| imm _ (by simp) (.inl ⟨_, rfl⟩) h
  | syncnop => exact .inl <| imm _ (by simp) (.inr ⟨rfl, rfl⟩) h
  | qRdnmaxlen => exact .inl <| imm _ (by simp) (.inl ⟨_, rfl⟩) h
  | sBustype part =>
    cases part with
    | code => exact .inr (.inr ⟨_, by simp [CmdCodes.deferred], (next_inj h).symm⟩)
    | data b => cases hp
  | oSpiop part =>
    cases part with
    | code => exact .inr (.inr ⟨_, by simp [CmdCodes.deferred], (next_inj h).symm⟩)
    | data b => cases hp
  | sSpiFreq part =>
    cases part with
    | code => exact .inr (.inr ⟨_, by simp [CmdCodes.deferred], (next_inj h).symm⟩)
    | data b => cases hp
  | unrecognized code => exact .inr (.inl (execUnrecognized_next (code := code) h))

/-! What every byte leaves alone, and how it can end -/

/-- How `on_byte` can end after its timeout check: waiting for the next byte or before a transfer, with nothing sent; or with a
response in `Send`, raised as an error or not. -/
inductive Ending (s t : State) : Prop where
  | quiet (eng : t.eng = .wait ∨ t.eng = .run .csAssert) (out : t.engOut = s.engOut) (sent : t.obs.sent = s.obs.sent)
      (errors : t.obs.errors = s.obs.errors)
  | answer (eng : t.eng = .send .put) (out : t.engOut ≠ []) (sent : t.obs.sent = s.obs.sent ++ t.engOut)
      (errors : t.obs.errors = s.obs.errors)
  | error (e : ErrorClass) (which : e = .overflowGuard ∨ e = .protocolViolation ∨ e = .busFailure)
      (eng : t.eng = .send .put) (out : t.engOut = [s.cfg.nak]) (sent : t.obs.sent = s.obs.sent ++ t.engOut)
      (errors : t.obs.errors = s.obs.errors ++ [e])

/-- What one executed byte leaves alone, and its ending. -/
structure ByteDone (s t : State) : Prop where
  cfg : t.cfg = s.cfg
  fifo : t.fifo = s.fifo
  fmax : t.spi.fmax = s.spi.fmax
  cs : t.spi.cs = s.spi.cs
  clk : t.clk = s.clk
  turns : t.turns = s.turns
  drawn : t.drawn = s.drawn
  wire : t.obs.wire = s.obs.wire
  history : t.obs.spi = s.obs.spi
  log : t.obs.log = s.obs.log
  accepted : t.obs.accepted = s.obs.accepted
  taken : t.obs.taken = s.obs.taken
  ending : Ending s t

/-- The session plays no part in it. -/
theorem Ending.of_ses {s t : State} {ses : Session} (h : Ending { s with ses := ses } t) : Ending s t := by
  cases h with
  | quiet eng out sent errors => exact .quiet eng out sent errors
  | answer eng out sent errors => exact .answer eng out sent errors
  | error e which eng out sent errors => exact .error e which eng out sent errors

theorem ByteDone.of_ses {s t : State} {ses : Session} (h : ByteDone { s with ses := ses } t) : ByteDone s t :=
  ⟨h.cfg, h.fifo, h.fmax, h.cs, h.clk, h.turns, h.drawn, h.wire, h.history, h.log, h.accepted, h.taken, h.ending.of_ses⟩

theorem byteDone_send {s : State} {resp : List Byte} (hne : resp ≠ []) : ByteDone s (sendStart resp s) :=
  ⟨rfl, rfl, rfl, rfl, rfl, rfl, rfl, rfl, rfl, rfl, rfl, rfl, .answer rfl hne rfl rfl⟩

theorem byteDone_raise {s : State} {e : ErrorClass} (h : e = .overflowGuard ∨ e = .protocolViolation ∨ e = .busFailure) :
    ByteDone s (raise e s) := by
  rcases h with rfl | rfl | rfl
  · exact ⟨rfl, rfl, rfl, rfl, rfl, rfl, rfl, rfl, rfl, rfl, rfl, rfl, .error _ (.inl rfl) rfl rfl rfl rfl⟩
  · exact ⟨rfl, rfl, rfl, rfl, rfl, rfl, rfl, rfl, rfl, rfl, rfl, rfl, .error _ (.inr (.inl rfl)) rfl rfl rfl rfl⟩
  · exact ⟨rfl, rfl, rfl, rfl, rfl, rfl, rfl, rfl, rfl, rfl, rfl, rfl, .error _ (.inr (.inr rfl)) rfl rfl rfl rfl⟩

theorem byteDone_wait (s : State) : ByteDone s { s with eng := .wait } :=
  ⟨rfl, rfl, rfl, rfl, rfl, rfl, rfl, rfl, rfl, rfl, rfl, rfl, .quiet (.inl rfl) rfl rfl rfl⟩

theorem execute_done {s t : State} (h : execute s = .next t) : ByteDone s t := by
  rcases execute_next h with ⟨_, rfl⟩ | ⟨_, _, rfl⟩ | ⟨_, _, rfl⟩
  · exact byteDone_raise (.inl rfl)
  · exact (byteDone_raise (s := sessionReset s) (.inr (.inr rfl))).of_ses
  · exact ⟨rfl, rfl, rfl, rfl, rfl, rfl, rfl, rfl, rfl, rfl, rfl, rfl, .quiet (.inr rfl) rfl rfl rfl⟩

theorem spiOpData_done {c : Byte} {s t : State} (h : spiOpData c s = .next t) : ByteDone s t := by
  unfold spiOpData at h
  split at h
  · rcases (headerByte_next h).2 with ⟨_, rfl⟩ | ⟨_, _, rfl⟩ | ⟨_, _, h⟩
    · exact ByteDone.of_ses (byteDone_wait { s with
        ses.wb := s.ses.wb.writeList s.ses.byteCnt.toNat [c], ses.byteCnt := s.ses.byteCnt + 1#32 })
    · exact ByteDone.of_ses (byteDone_wait (headerDone c s))
    · exact ByteDone.of_ses (execute_done h)
  · rcases (payloadByte_next h).2 with ⟨_, rfl⟩ | ⟨_, h⟩
    · exact ByteDone.of_ses (byteDone_wait (payloadStored c s))
    · exact ByteDone.of_ses (execute_done h)

theorem freqData_done_frame {c : Byte} {s t : State} (h : freqData c s = .next t) : ByteDone s t := by
  rcases (freqData_next h).2 with ⟨_, rfl⟩ | ⟨_, rfl⟩ | ⟨_, rfl⟩
  · exact ByteDone.of_ses (byteDone_wait (freqStored c s))
  · exact ByteDone.of_ses (byteDone_raise (s := sessionReset (freqStored c s)) (.inr (.inl rfl)))
  · exact ⟨rfl, rfl, rfl, rfl, rfl, rfl, rfl, rfl, rfl, rfl, rfl, rfl, .answer rfl (by simp) rfl rfl⟩

theorem busTypeData_done {b : Byte} {s t : State} (h : busTypeData b s = .next t) : ByteDone s t := by
  rcases busTypeData_next h with ⟨_, rfl⟩ | ⟨_, rfl⟩
  · exact (byteDone_send (s := sessionReset s) (by simp)).of_ses
  · exact (byteDone_raise (s := sessionReset s) (.inr (.inl rfl))).of_ses

theorem dataByte_done {handler : State → Res} (hh : ∀ u t, handler u = .next t → ByteDone u t) {s t : State}
    (h : dataByte handler s = .next t) : ByteDone s t := by
  rcases dataByte_next h with ⟨_, rfl⟩ | ⟨_, h⟩
  · exact (byteDone_raise (s := { s with ses.lastAct := s.clk }) (.inl rfl)).of_ses
  · exact (hh _ _ h).of_ses

/-- What one executed byte leaves alone, whichever instruction it is: the parameters, the queues, `FMAX` and `CS`, the environment,
and the histories of wire, SPI and log. -/
theorem exec_done {i : Instr} {s t : State} (h : exec i s = .next t) : ByteDone s t := by
  have cmd : ∀ j : Instr, j.phase = .awaitCommand → exec j s = .next t → ByteDone s t := by
    intro j hj h
    rcases exec_command_next hj h with ⟨resp, hne, _, _, rfl⟩ | ⟨_, rfl⟩ | ⟨c, _, rfl⟩
    · exact ⟨rfl, rfl, rfl, rfl, rfl, rfl, rfl, rfl, rfl, rfl, rfl, rfl, .answer rfl hne rfl rfl⟩
    · exact ⟨rfl, rfl, rfl, rfl, rfl, rfl, rfl, rfl, rfl, rfl, rfl, rfl, .error _ (.inr (.inl rfl)) rfl rfl rfl rfl⟩
    · exact ⟨rfl, rfl, rfl, rfl, rfl, rfl, rfl, rfl, rfl, rfl, rfl, rfl, .quiet (.inl rfl) rfl rfl rfl⟩
  cases i with
  | sBustype part =>
    cases part with
    | code => exact cmd _ rfl h
    | data b => exact dataByte_done (fun _ _ => busTypeData_done) h
  | oSpiop part =>
    cases part with
    | code => exact cmd _ rfl h
    | data b => exact dataByte_done (fun _ _ => spiOpData_done) h
  | sSpiFreq part =>
    cases part with
    | code => exact cmd _ rfl h
    | data b => exact dataByte_done (fun _ _ => freqData_done_frame) h
  | nop => exact cmd _ rfl h
  | qIface => exact cmd _ rfl h
  | qCmdmap => exact cmd _ rfl h
  | qPgmname => exact cmd _ rfl h
  | qSerbuf => exact cmd _ rfl h
  | qBustype => exact cmd _ rfl h
  | qOpbuf => exact cmd _ rfl h
  | qWrnmaxlen => exact cmd _ rfl h
  | syncnop => exact cmd _ rfl h
  | qRdnmaxlen => exact cmd _ rfl h
  | unrecognized code => exact cmd _ rfl h

theorem clampFrequency_le (hz fmax : U32) : (clampFrequency hz fmax).toNat ≤ fmax.toNat := by
  unfold clampFrequency
  split <;> omega

theorem execute_freq {s t : State} (h : execute s = .next t) : t.spi = s.spi := by
  rcases execute_next h with ⟨_, rfl⟩ | ⟨_, _, rfl⟩ | ⟨_, _, rfl⟩ <;> rfl

theorem spiOpData_freq {c : Byte} {s t : State} (h : spiOpData c s = .next t) : t.spi = s.spi := by
  unfold spiOpData at h
  split at h
  · rcases (headerByte_next h).2 with ⟨_, rfl⟩ | ⟨_, _, rfl⟩ | ⟨_, _, h⟩
    · rfl
    · rfl
    · exact (execute_freq h).trans rfl
  · rcases (payloadByte_next h).2 with ⟨_, rfl⟩ | ⟨_, h⟩
    · rfl
    · exact (execute_freq h).trans rfl

/-- Which instruction can write the SPI master's registers: only a data byte of S_SPI_FREQ, `FREQ` alone, and at most `FMAX`
(R37, R158). -/
theorem exec_spi {i : Instr} {s t : State} (h : exec i s = .next t) : t.spi = s.spi ∨
    ((∃ c, i = .sSpiFreq (.data c)) ∧ t.ses.phase = .awaitCommand ∧ t.spi.freq.toNat ≤ s.spi.fmax.toNat) := by
  have cmd : ∀ j : Instr, j.phase = .awaitCommand → exec j s = .next t → t.spi = s.spi := by
    intro j hj h
    rcases exec_command_next hj h with ⟨resp, hne, _, _, rfl⟩ | ⟨_, rfl⟩ | ⟨c, _, rfl⟩ <;> rfl
  have dat : ∀ handler : State → Res, (∀ u t, handler u = .next t → t.spi = u.spi) → dataByte handler s = .next t →
      t.spi = s.spi := by
    intro handler hh h
    rcases dataByte_next h with ⟨_, rfl⟩ | ⟨_, h⟩
    · rfl
    · exact (hh _ _ h).trans rfl
  cases i with
  | sBustype part =>
    cases part with
    | code => exact .inl (cmd _ rfl h)
    | data b =>
      refine .inl (dat _ ?_ h)
      intro u t h
      rcases busTypeData_next h with ⟨_, rfl⟩ | ⟨_, rfl⟩ <;> rfl
  | oSpiop part =>
    cases part with
    | code => exact .inl (cmd _ rfl h)
    | data b => exact .inl (dat _ (fun _ _ => spiOpData_freq) h)
  | sSpiFreq part =>
    cases part with
    | code => exact .inl (cmd _ rfl h)
    | data b =>
      rcases dataByte_next h with ⟨_, rfl⟩ | ⟨_, h⟩
      · exact .inl rfl
      · rcases (freqData_next h).2 with ⟨_, rfl⟩ | ⟨_, rfl⟩ | ⟨_, rfl⟩
        · exact .inl rfl
        · exact .inl rfl
        · exact .inr ⟨⟨_, rfl⟩, rfl, clampFrequency_le _ _⟩
  | nop => exact .inl (cmd _ rfl h)
  | qIface => exact .inl (cmd _ rfl h)
  | qCmdmap => exact .inl (cmd _ rfl h)
  | qPgmname => exact .inl (cmd _ rfl h)
  | qSerbuf => exact .inl (cmd _ rfl h)
  | qBustype => exact .inl (cmd _ rfl h)
  | qOpbuf => exact .inl (cmd _ rfl h)
  | qWrnmaxlen => exact .inl (cmd _ rfl h)
  | syncnop => exact .inl (cmd _ rfl h)
  | qRdnmaxlen => exact .inl (cmd _ rfl h)
  | unrecognized code => exact .inl (cmd _ rfl h)

end Sys2Proof.Machine
end

