-- ==== Sys2Proof/Laws/Engine.lean ====
section
/-! SUPPORT. Every way an engine step or an SPI answer can go, said once: what the invariants, the order laws and the frames are read off
from. -/

namespace Sys2Proof.Machine

/-- The release, and what follows it (R155, R143). -/
theorem csReleaseStep_next {ok : Bool} {s t : State} (h : csReleaseStep ok s = .next t) :
    (ok = true ∧ s.ses.readLen.toNat ≤ s.cfg.wCap ∧
      t = sendStart (s.cfg.ack :: s.ses.wb.readList 0 s.ses.readLen.toNat)
        (sessionReset (spiEvent .csRelease (setCs false s)))) ∨
    (ok = false ∧ t = raise .busFailure (sessionReset (spiEvent .csRelease (setCs false s)))) := by
  cases ok with
  | true =>
    have hl : s.ses.readLen.toNat ≤ s.cfg.wCap := by
      have h' : loadWB 0 s.ses.readLen.toNat (sessionReset (spiEvent .csRelease (setCs false s)))
        (fun data => .next (finish (s.cfg.ack :: data) (sessionReset (spiEvent .csRelease (setCs false s))))) = .next t := h
      simpa using (loadWB_next h').1
    have e : csReleaseStep true s = _ := afterTransfer_ok (s := spiEvent .csRelease (setCs false s)) hl
    rw [e] at h
    exact .inl ⟨rfl, hl, (next_inj h).symm⟩
  | false => exact .inr ⟨rfl, (next_inj h).symm⟩

/-- SPI_DEV's answer: none where no phase runs or the length is wrong, else the end of the phase (R154, R155). -/
theorem spiAnswer_next {ok : Bool} {data : List Byte} {s t : State} (h : spiAnswer ok data s = .next t) :
    t = s ∨
    (s.eng = .run .spiWrite ∧ s.ses.writeLen.toNat ≤ s.cfg.wCap ∧
      t = { spiEvent (.write (s.ses.wb.readList 0 s.ses.writeLen.toNat)) s with
        eng := if ok = true ∧ 0 < s.ses.readLen.toNat then .run .spiRead else .run (.csRelease ok) }) ∨
    (s.eng = .run .spiRead ∧ s.ses.readLen.toNat ≤ s.cfg.wCap ∧ data.length = s.ses.readLen.toNat ∧
      t = { spiEvent (.read s.ses.readLen.toNat s.cfg.spiFill) s with
        ses.wb := s.ses.wb.writeList 0 data
        eng := .run (.csRelease ok) }) := by
  unfold spiAnswer at h
  split at h
  · rename_i he
    have hl : s.ses.writeLen.toNat ≤ s.cfg.wCap := by
      unfold spiWriteStep at h
      simpa using (loadWB_next h).1
    rw [spiWriteStep_eq hl] at h
    exact .inr (.inl ⟨he, hl, (next_inj h).symm⟩)
  · rename_i he
    by_cases hd : data.length = s.ses.readLen.toNat
    · have hl : s.ses.readLen.toNat ≤ s.cfg.wCap := by
        unfold spiReadStep at h
        rw [if_pos hd] at h
        simpa [hd] using (storeWB_next h).1
      rw [spiReadStep_eq hd hl] at h
      exact .inr (.inr ⟨he, hl, hd, (next_inj h).symm⟩)
    · unfold spiReadStep at h
      rw [if_neg hd] at h
      exact .inl (next_inj h).symm
  all_goals exact .inl (next_inj h).symm

/-- `RX_POP`'s step, the byte not yet processed (R97). -/
def popped (c : Byte) (rest : List Byte) (s : State) : State :=
  { s with fifo.rxq := rest, eng := .run (.onByte c), obs.taken := s.obs.taken ++ [c] }

/-- Every way an engine step can go. -/
inductive EngineStep (s t : State) : Prop where
  /-- No step: nothing received (R98), or an SPI phase runs (R154). -/
  | idle (eng : (s.eng = .wait ∧ s.fifo.rxq = []) ∨ s.eng = .run .spiWrite ∨ s.eng = .run .spiRead) (same : t = s)
  /-- A byte is popped and executed (R97, R113). -/
  | pop (c : Byte) (rest : List Byte) (i : Instr) (eng : s.eng = .wait) (rxq : s.fifo.rxq = c :: rest)
      (read : decodeByte c (timeoutCheck (popped c rest s)) = .ok i)
      (run : exec i (timeoutCheck (popped c rest s)) = .next t)
  /-- A byte in hand is executed. -/
  | byte (c : Byte) (i : Instr) (eng : s.eng = .run (.onByte c)) (read : decodeByte c (timeoutCheck s) = .ok i)
      (run : exec i (timeoutCheck s) = .next t)
  | csAssert (eng : s.eng = .run .csAssert) (result : t = { spiEvent .csAssert (setCs true s) with
      eng := if 0 < s.ses.writeLen.toNat then .run .spiWrite
        else if 0 < s.ses.readLen.toNat then .run .spiRead else .run (.csRelease true) })
  | released (eng : s.eng = .run (.csRelease true)) (fits : s.ses.readLen.toNat ≤ s.cfg.wCap)
      (result : t = sendStart (s.cfg.ack :: s.ses.wb.readList 0 s.ses.readLen.toNat)
        (sessionReset (spiEvent .csRelease (setCs false s))))
  | failed (eng : s.eng = .run (.csRelease false))
      (result : t = raise .busFailure (sessionReset (spiEvent .csRelease (setCs false s))))
  | put (eng : s.eng = .send .put) (result : t = txPut s)
  | enable (eng : s.eng = .send .ie)
      (result : t = { s with fifo.txIe := true, eng := if s.engOut = [] then .wait else .send .wait })
  | retry (eng : s.eng = .send .wait) (result : t = { s with fifo.txSpace := false, eng := .send .put })

theorem engineStep_next {s t : State} (h : engineStep s = .next t) : EngineStep s t := by
  unfold engineStep at h
  split at h
  · rename_i he
    split at h
    · rename_i c u hp
      obtain ⟨_, rest, hq, rfl⟩ := rxPop_some hp
      obtain ⟨i, hi, hx⟩ := onByte_next h
      exact .pop c rest i he hq hi hx
    · rename_i hp
      refine .idle (.inl ⟨he, ?_⟩) (next_inj h).symm
      cases hq : s.fifo.rxq with
      | nil => rfl
      | cons c rest => simp [rxPop, he, hq] at hp
  · rename_i c he
    obtain ⟨i, hi, hx⟩ := onByte_next h
    exact .byte c i he hi hx
  · rename_i he
    rw [csAssertStep_eq] at h
    exact .csAssert he (next_inj h).symm
  · exact .idle (.inr (.inl ‹_›)) (next_inj h).symm
  · exact .idle (.inr (.inr ‹_›)) (next_inj h).symm
  · rename_i ok he
    rcases csReleaseStep_next h with ⟨rfl, hl, e⟩ | ⟨rfl, e⟩
    · exact .released he hl e
    · exact .failed he e
  · exact .put ‹_› (next_inj h).symm
  · rw [txEnable_eq] at h
    exact .enable ‹_› (next_inj h).symm
  · rw [txWait_eq] at h
    exact .retry ‹_› (next_inj h).symm

end Sys2Proof.Machine
end

