-- ==== Sys2Proof/Tests/Slice0.lean ====
section
/-! SUPPORT. Small tests, each about one step, with results taken from spec/95_test_vectors.md or worked out by hand from the rule
named, and a concrete instance of every hypothesis the obligations use. -/

open Sys2Proof Sys2Proof.Machine Sys2Proof.Claims

namespace Sys2Proof.Tests

/-! The configuration of 95_test_vectors.md section 0, and states built on it -/

def vec : Config where
  cRx := 1024
  cTx := 1024
  wCap := 4096
  tData := 300#64
  tTxWait := 10#64
  fMax := 8000000#32
  fReset := 1000000#32
  ack := 0x06#8
  nak := 0x15#8
  pIface := 0x0001#16
  pPgmname := #v[0x7A#8, 0x65#8, 0x70#8, 0x68#8, 0x79#8, 0x72#8, 0x2D#8, 0x73#8, 0x65#8, 0x72#8, 0x70#8, 0x72#8, 0x6F#8,
    0x67#8, 0x00#8, 0x00#8]
  pSerbuf := 0x0400#16
  pOpbuf := 0x1000#16
  pWrmax := 0x0400#16
  pRdmax := 0x0400#16
  bustypeSpi := 0x08#8
  codes := CmdCodes.serprog
  spiMode := { cpol := false, cpha := false, msbFirst := true, wordBits := 8 }
  spiFill := none

/-- The power-on state, with the engine next to move. -/
def base : State := State.powerOn vec PowerOn.zeros 0#64 [.eng] 0

/-- A command byte at the head of `RXQ`. -/
def cmd (c : Byte) : State := { base with fifo.rxq := [c], obs.accepted := [c] }

/-- A data byte at the head of `RXQ`: the command, how many data bytes came before, what they left in `WB`. -/
def dat (active : Byte) (n : U32) (wb : List Byte) (c : Byte) : State :=
  { cmd c with ses.phase := .awaitData, ses.activeCmd := active, ses.byteCnt := n, ses.wb := Memory.image 0 wb }

/-- The engine inside a transfer of the given lengths. -/
def xfer (pos : RunPos) (wl rl : U24) (wb : List Byte) : State :=
  { dat 0x13#8 7#32 wb 0x00#8 with eng := .run pos, ses.writeLen := wl, ses.readLen := rl, spi.cs := true }

/-- The ring of four of section 2.2. -/
def ring (eng : Eng) (rd count claim : Nat) (ie : Bool) (m out : List Byte) : State :=
  { base with
    cfg.cTx := 4, eng := eng, engOut := out, fifo.txm := Memory.image 0 m, fifo.txRd := rd, fifo.txCount := count,
    fifo.txClaim := claim, fifo.txIe := ie, fifo.txOpen := decide (0 < claim) }

/-- What holds of the state a step comes to; nothing where it stops. -/
def after {α : Type} (r : Res) (f : State → α) : Option α :=
  match r with
  | .next t => some (f t)
  | .fault _ => none
  | .refused _ => none

/-- What a byte hands to `Send`. -/
def answer (s : State) : Option (List Byte) := after (step s) State.engOut

/-! Well-formedness refuses what is ill-formed -/

/-- R84: a supported code is not an unrecognized one. -/
theorem test_wf_refuses_supported_code : (Instr.unrecognized 0x00#8).wf CmdCodes.serprog = false := by decide
theorem test_wf_takes_other_code : (Instr.unrecognized 0x06#8).wf CmdCodes.serprog = true := by decide
/-- R79: a payload of another length than `write_len` is no frame. -/
theorem test_payloadWf_refuses_length : payloadWf 2#24 [0x9F#8] = false := by decide
theorem test_payloadWf_takes_length : payloadWf 1#24 [0x9F#8] = true := by decide

/-! Decoding: every constructor by a word written out from R77's table -/

theorem test_decode_nop : decodeTableWord 8 0b00000000 = some .nop := by decide
theorem test_decode_qIface : decodeTableWord 8 0b00000001 = some .qIface := by decide
theorem test_decode_qCmdmap : decodeTableWord 8 0b00000010 = some .qCmdmap := by decide
theorem test_decode_qPgmname : decodeTableWord 8 0b00000011 = some .qPgmname := by decide
theorem test_decode_qSerbuf : decodeTableWord 8 0b00000100 = some .qSerbuf := by decide
theorem test_decode_qBustype : decodeTableWord 8 0b00000101 = some .qBustype := by decide
theorem test_decode_qOpbuf : decodeTableWord 8 0b00000111 = some .qOpbuf := by decide
theorem test_decode_qWrnmaxlen : decodeTableWord 8 0b00001000 = some .qWrnmaxlen := by decide
theorem test_decode_syncnop : decodeTableWord 8 0b00010000 = some .syncnop := by decide
theorem test_decode_qRdnmaxlen : decodeTableWord 8 0b00010001 = some .qRdnmaxlen := by decide
theorem test_decode_sBustype : decodeTableWord 8 0b00010010 = some (.sBustype .code) := by decide
theorem test_decode_oSpiop : decodeTableWord 8 0b00010011 = some (.oSpiop .code) := by decide
theorem test_decode_sSpiFreq : decodeTableWord 8 0b00010100 = some (.sSpiFreq .code) := by decide
/-- V-UNK-1, V-UNK-4. -/
theorem test_decode_unrecognized : decodeTableWord 8 0b00000110 = some (.unrecognized 0x06#8) ∧
    decodeTableWord 8 0b00010101 = some (.unrecognized 0x15#8) := by decide
/-- More than one byte is no command byte. -/
theorem test_decode_refuses_wide_word : decodeTableWord 8 0x112 = none := by decide
/-- R75: in AwaitData the same bytes are data (V-SYN-3, V-SYN-4, V-SYN-5). -/
theorem test_decode_data : decode CmdCodes.serprog .awaitData 0x12#8 0b00010000#8 = .ok (.sBustype (.data 0x10#8)) ∧
    decode CmdCodes.serprog .awaitData 0x13#8 0b00010000#8 = .ok (.oSpiop (.data 0x10#8)) ∧
    decode CmdCodes.serprog .awaitData 0x14#8 0b00010000#8 = .ok (.sSpiFreq (.data 0x10#8)) := ⟨rfl, rfl, rfl⟩
/-- R48 (iv): the mode the decoder rejects, by name. -/
theorem test_decode_rejects_mode : decode CmdCodes.serprog .awaitData 0x00#8 0x12#8 =
    .error (.activeCmdNotDeferred 0x00#8) := rfl
/-- The frame of X5. -/
theorem test_frame_spiop : frameSpiop CmdCodes.serprog 3#24 2#24 [0x9F#8, 0x00#8, 0x00#8] =
    [0x13#8, 0x03#8, 0x00#8, 0x00#8, 0x02#8, 0x00#8, 0x00#8, 0x9F#8, 0x00#8, 0x00#8] := by decide
/-- The frame of X7, and R55's order. -/
theorem test_frame_freq : frameFreq CmdCodes.serprog 50000000#32 = [0x14#8, 0x80#8, 0xF0#8, 0xFA#8, 0x02#8] := by decide
/-- X2: the set bits. -/
theorem test_cmdmap : cmdMap CmdCodes.serprog = [0xBF#8, 0x01#8, 0x1F#8] ++ List.replicate 29 0x00#8 := by decide

/-! Immediate commands (V-IMM) -/

theorem test_nop : answer (cmd 0x00#8) = some [0x06#8] := by decide
theorem test_qIface : answer (cmd 0x01#8) = some [0x06#8, 0x01#8, 0x00#8] := by decide
/-- V-IMM-12. -/
theorem test_qIface_order : answer { cmd 0x01#8 with cfg.pIface := 0x1234#16 } = some [0x06#8, 0x34#8, 0x12#8] := by decide
theorem test_qCmdmap : answer (cmd 0x02#8) = some ([0x06#8, 0xBF#8, 0x01#8, 0x1F#8] ++ List.replicate 29 0x00#8) := by
  decide
theorem test_qPgmname : answer (cmd 0x03#8) = some [0x06#8, 0x7A#8, 0x65#8, 0x70#8, 0x68#8, 0x79#8, 0x72#8, 0x2D#8, 0x73#8,
    0x65#8, 0x72#8, 0x70#8, 0x72#8, 0x6F#8, 0x67#8, 0x00#8, 0x00#8] := by decide
theorem test_qSerbuf : answer (cmd 0x04#8) = some [0x06#8, 0x00#8, 0x04#8] := by decide
theorem test_qBustype : answer (cmd 0x05#8) = some [0x06#8, 0x08#8] := by decide
theorem test_qOpbuf : answer (cmd 0x07#8) = some [0x06#8, 0x00#8, 0x10#8] := by decide
theorem test_qWrnmaxlen : answer (cmd 0x08#8) = some [0x06#8, 0x00#8, 0x04#8, 0x00#8] := by decide
theorem test_syncnop : answer (cmd 0x10#8) = some [0x15#8, 0x06#8] := by decide
theorem test_qRdnmaxlen : answer (cmd 0x11#8) = some [0x06#8, 0x00#8, 0x04#8, 0x00#8] := by decide
/-- V-IMM-14: the response comes from the parameters. -/
theorem test_syncnop_other_bytes : answer { cmd 0x10#8 with cfg.ack := 0xAA#8, cfg.nak := 0x55#8 } =
    some [0x55#8, 0xAA#8] := by decide
/-- Section 2.3: `WB[0..n)` holds the response. -/
theorem test_qSerbuf_work_buffer : after (step (cmd 0x04#8)) (fun t => t.ses.wb.readList 0 3) =
    some [0x06#8, 0x00#8, 0x04#8] := by decide
/-- V-UNK-1. -/
theorem test_unrecognized : after (step (cmd 0x06#8)) (fun t => (t.engOut, t.ses.phase, t.ses.wb.read 0, t.obs.errors)) =
    some ([0x15#8], .awaitCommand, 0x15#8, [.protocolViolation]) := by decide

/-! Deferred commands -/

/-- V-BT-6. -/
theorem test_sBustype_dispatch : after (step { cmd 0x12#8 with clk := 5#64 })
    (fun t => (t.eng, t.engOut, t.ses.phase, t.ses.activeCmd, t.ses.lastAct, t.ses.byteCnt)) =
    some (.wait, [], .awaitData, 0x12#8, 5#64, 0#32) := by decide
/-- V-BT-1, V-BT-2. -/
theorem test_sBustype_data : answer (dat 0x12#8 0#32 [] 0x08#8) = some [0x06#8] ∧
    answer (dat 0x12#8 0#32 [] 0x09#8) = some [0x15#8] := by decide
/-- V-OP-1, data byte 6: the header completes. -/
theorem test_oSpiop_header : after (step (dat 0x13#8 5#32 [0x01#8, 0x00#8, 0x00#8, 0x03#8, 0x00#8] 0x00#8))
    (fun t => (t.eng, t.ses.byteCnt, t.ses.writeLen, t.ses.readLen)) = some (.wait, 6#32, 1#24, 3#24) := by decide
/-- V-OP-8: `read_len = 4097` at the last payload byte. -/
theorem test_oSpiop_read_guard :
    after (step { dat 0x13#8 6#32 [0x01#8, 0x00#8, 0x00#8, 0x01#8, 0x10#8] 0x9F#8 with
      ses.writeLen := 1#24, ses.readLen := 4097#24 })
    (fun t => (t.engOut, t.ses.phase, t.obs.spi, t.obs.errors)) =
    some ([0x15#8], .awaitCommand, [], [.overflowGuard]) := by decide
/-- V-FQ-2. -/
theorem test_sSpiFreq_clamp : after (step (dat 0x14#8 3#32 [0x80#8, 0xF0#8, 0xFA#8] 0x02#8))
    (fun t => (t.engOut, t.spi.freq)) = some ([0x06#8, 0x80#8, 0xF0#8, 0xFA#8, 0x02#8], 8000000#32) := by decide
/-- V-FQ-1. -/
theorem test_sSpiFreq_zero : after (step (dat 0x14#8 3#32 [] 0x00#8)) (fun t => (t.engOut, t.spi.freq)) =
    some ([0x15#8], 1000000#32) := by decide

/-! Timeout and guard -/

/-- V-TO-1: at exactly 300 ms the byte is still a header byte. -/
theorem test_timeout_at_limit : after (step { dat 0x13#8 0#32 [] 0x01#8 with ses.lastAct := 1000#64, clk := 1300#64 })
    (fun t => (t.engOut, t.ses.phase, t.ses.byteCnt, t.ses.lastAct)) = some ([], .awaitData, 1#32, 1300#64) := by decide
/-- V-TO-2: one millisecond later it is a NOP. -/
theorem test_timeout_over_limit : after (step { dat 0x13#8 0#32 [] 0x00#8 with ses.lastAct := 1000#64, clk := 1301#64 })
    (fun t => (t.engOut, t.ses.phase, t.ses.lastAct, t.obs.log)) =
    some ([0x06#8], .awaitCommand, 1000#64, [.dataTimeout]) := by decide
/-- V-ERR-1: two errors in one byte, the timeout first. -/
theorem test_timeout_then_violation : after (step { dat 0x14#8 0#32 [] 0xFF#8 with clk := 301#64 })
    (fun t => (t.engOut, t.obs.errors)) = some ([0x15#8], [.idleTimeout, .protocolViolation]) := by decide
/-- R138 at `BYTE_CNT = W_CAP`: nothing is stored. -/
theorem test_guard : after (step (dat 0x13#8 4096#32 [] 0x77#8)) (fun t => (t.engOut, t.ses.wb, t.ses.byteCnt)) =
    some ([0x15#8], [], 0#32) := by decide

/-! The transfer, step by step (V-OP-1, V-OP-5) -/

theorem test_csAssert : after (fire .eng { xfer .csAssert 1#24 3#24 [0x9F#8] with spi.cs := false })
    (fun t => (t.spi.cs, t.eng, t.obs.spi.map SpiRecord.event)) = some (true, .run .spiWrite, [.csAssert]) := by decide
theorem test_spiWrite : after (fire (.spiDev true []) (xfer .spiWrite 1#24 3#24 [0x9F#8]))
    (fun t => (t.eng, t.obs.spi.map SpiRecord.event)) = some (.run .spiRead, [.write [0x9F#8]]) := by decide
/-- V-OP-5: a failed write skips the read. -/
theorem test_spiWrite_fails : after (fire (.spiDev false []) (xfer .spiWrite 1#24 3#24 [0x9F#8])) State.eng =
    some (.run (.csRelease false)) := by decide
theorem test_spiRead :
    after (fire (.spiDev true [0xEF#8, 0x40#8, 0x18#8]) (xfer .spiRead 1#24 3#24 [0x9F#8, 0x00#8, 0x00#8, 0x03#8]))
    (fun t => (t.eng, t.ses.wb.readList 0 6)) =
    some (.run (.csRelease true), [0xEF#8, 0x40#8, 0x18#8, 0x03#8, 0x00#8, 0x00#8]) := by decide
theorem test_csRelease : after (fire .eng (xfer (.csRelease true) 1#24 3#24 [0xEF#8, 0x40#8, 0x18#8]))
    (fun t => (t.spi.cs, t.engOut, t.ses.phase, t.ses.byteCnt)) =
    some (false, [0x06#8, 0xEF#8, 0x40#8, 0x18#8], .awaitCommand, 0#32) := by decide

/-! The queues (V-RX, V-TX) -/

/-- V-RX-2's third push. -/
theorem test_push_full : after (fire .rxa { base with cfg.cRx := 2, fifo.rxq := [0x0A#8, 0x0B#8], fifo.rxPass := [0x0C#8] })
    (fun t => (t.fifo.rxq, t.fifo.rxDrops, t.obs.log)) = some ([0x0A#8, 0x0B#8], 1#32, [.rxDrop]) := by decide
/-- V-RX-3. -/
theorem test_push_saturated : after (fire .rxa { base with
      cfg.cRx := 2, fifo.rxq := [0x0A#8, 0x0B#8], fifo.rxPass := [0x0C#8], fifo.rxDrops := 0xFFFFFFFF#32 })
    (fun t => t.fifo.rxDrops) = some 0xFFFFFFFF#32 := by decide
/-- V-RX-6. -/
theorem test_pop : (rxPop { base with fifo.rxq := [0x00#8, 0x01#8] }).map (fun p => (p.1, p.2.fifo.rxq, p.2.eng)) =
    some (0x00#8, [0x01#8], .run (.onByte 0x00#8)) := by decide
/-- V-TX-1, step 1. -/
theorem test_put : after (fire .eng (ring (.send .put) 0 0 0 false [] [0xA0#8, 0xA1#8, 0xA2#8, 0xA3#8, 0xA4#8, 0xA5#8]))
    (fun t => (t.fifo.txm.readList 0 4, t.fifo.txCount, t.engOut)) =
    some ([0xA0#8, 0xA1#8, 0xA2#8, 0xA3#8], 4, [0xA4#8, 0xA5#8]) := by decide
/-- V-TX-1, step 6: the put wraps. -/
theorem test_put_wraps :
    after (fire .eng (ring (.send .put) 3 1 0 true [0xA0#8, 0xA1#8, 0xA2#8, 0xA3#8] [0xA4#8, 0xA5#8]))
    (fun t => (t.fifo.txm.readList 0 4, t.fifo.txCount, t.engOut)) =
    some ([0xA4#8, 0xA5#8, 0xA2#8, 0xA3#8], 3, []) := by decide
/-- V-TX-1, step 8. -/
theorem test_claim_stops_at_end : after (fire .hostTx (ring .wait 3 3 0 true [] [])) (fun t => t.fifo.txClaim) = some 1 := by
  decide
/-- V-TX-1, step 4. -/
theorem test_commit_partial : after (fire (.txa 3) (ring (.send .wait) 0 4 4 true [0xA0#8, 0xA1#8, 0xA2#8, 0xA3#8] [0xA4#8]))
    (fun t => (t.obs.wire, t.fifo.txRd, t.fifo.txCount, t.fifo.txClaim, t.fifo.txSpace, t.fifo.txIe)) =
    some ([0xA0#8, 0xA1#8, 0xA2#8], 3, 1, 0, true, true) := by decide
/-- V-TX-3. -/
theorem test_commit_nothing : after (fire (.txa 0) (ring .wait 0 2 2 true [] []))
    (fun t => (t.obs.wire, t.fifo.txCount, t.fifo.txClaim, t.fifo.txSpace, t.fifo.txIe)) =
    some ([], 2, 0, false, true) := by decide
/-- V-TX-4's commit. -/
theorem test_commit_keeps_new_byte : after (fire (.txa 2) (ring .wait 0 3 2 true [] []))
    (fun t => (t.fifo.txRd, t.fifo.txCount, t.fifo.txIe)) = some (2, 1, true) := by decide
/-- V-TX-5. -/
theorem test_put_full : after (fire .eng (ring (.send .put) 0 4 0 true [] [0xB0#8])) (fun t => (t.fifo.txCount, t.engOut)) =
    some (4, [0xB0#8]) := by decide

/-! The host's entry -/

/-- The fetch is of exactly the word, from reset. -/
theorem test_withFetchWord_nop : answer (State.reset.withFetchWord 8 0x00) = some [0x06#8] := by decide
theorem test_withFetchWord_oSpiop : after (step (State.reset.withFetchWord 8 0x13))
    (fun t => (t.ses.phase, t.ses.activeCmd, t.fifo.rxq, t.turns)) = some (.awaitData, 0x13#8, [], []) := by decide
theorem test_withFetchWord_unrecognized : answer (State.reset.withFetchWord 8 0xFF) = some [0x15#8] := by decide

/-! Witnesses: for every obligation with hypotheses, a concrete state and operands that meet them all; one for each clause, at the
ends of its range -/

theorem vec_wf : vec.Wf := ⟨by decide, by decide, by decide, by decide, by decide, by decide⟩

/-- Two values of the options agree: what a step comes to exists. -/
theorem exists_next {r : Res} (h : (after r (fun _ => true)) = some true) : ∃ t, r = .next t := by
  cases r with
  | next t => exact ⟨t, rfl⟩
  | fault f => cases h
  | refused f => cases h

theorem base_inv : base.Inv where
  rxq_le := by decide
  claim_le_count := by decide
  count_le := by decide
  byteCnt_le := by decide
  active_deferred := by decide
  cs_released := fun _ => rfl
  out_empty := fun _ => rfl
  wb_below := by decide
  cfg_wf := vec_wf
  wb_wf := by decide
  txm_wf := by decide
  txm_below := by decide
  rd_lt := by decide
  claim_room := by decide
  claim_closed := by decide
  count_zero := by decide
  engine := ⟨rfl, rfl, fun h => nomatch h⟩
  fmax_eq := rfl
  freq_le := .inl rfl
  stamp_le := fun h => nomatch h

/-- A state inside a transfer, before its write, that meets the invariant. -/
def writing : State := { xfer .spiWrite 1#24 3#24 [0x9F#8] with obs.spi := [⟨.csAssert, 1000000#32, vec.spiMode⟩] }

theorem writing_inv : writing.Inv where
  rxq_le := by decide
  claim_le_count := by decide
  count_le := by decide
  byteCnt_le := by decide
  active_deferred := by decide
  cs_released := fun h => absurd rfl (h .spiWrite)
  out_empty := fun _ => rfl
  wb_below := by decide
  cfg_wf := vec_wf
  wb_wf := by decide
  txm_wf := by decide
  txm_below := by decide
  rd_lt := by decide
  claim_room := by decide
  claim_closed := by decide
  count_zero := fun h => nomatch h
  engine := ⟨rfl, rfl, ⟨rfl, rfl, by decide, by decide, by decide⟩, by decide⟩
  fmax_eq := rfl
  freq_le := .inl rfl
  stamp_le := by decide

theorem test_witness_EncodeThenDecodeGivesInstruction : CmdCodes.serprog.supported.Nodup ∧
    (Instr.unrecognized 0xFF#8).wf CmdCodes.serprog = true ∧
    (Instr.oSpiop (.data 0x13#8)).wf CmdCodes.serprog = true := by decide
theorem test_witness_DecodeThenEncodeGivesByte :
    decode CmdCodes.serprog .awaitData 0x14#8 0x13#8 = .ok (.sSpiFreq (.data 0x13#8)) ∧
    decode CmdCodes.serprog .awaitCommand 0x14#8 0x13#8 = .ok (.oSpiop .code) := ⟨rfl, rfl⟩
theorem test_witness_DataPhaseNeverDecodesACommand : CmdCodes.serprog.supported.Nodup ∧ (0x12#8 = CmdCodes.serprog.sBustype) ∧
    (0x13#8 = CmdCodes.serprog.oSpiop) ∧ (0x14#8 = CmdCodes.serprog.sSpiFreq) ∧ (0x11#8 ∉ CmdCodes.serprog.deferred) := by
  decide
theorem test_witness_FramesParseByteForByte : CmdCodes.serprog.supported.Nodup ∧ payloadWf 0#24 [] = true ∧
    payloadWf 2#24 [0x10#8, 0x12#8] = true ∧ 0x06#8 ∉ CmdCodes.serprog.supported ∧
    0xFF#8 ∉ CmdCodes.serprog.supported := by decide
theorem test_witness_PowerOnMeetsInvariant : vec.Wf := vec_wf
theorem test_witness_FirstByteAfterPowerOnIsACommand : vec.Wf := vec_wf
theorem test_witness_StepKeepsInvariant : base.Inv ∧ ∃ t, step base = .next t := ⟨base_inv, exists_next (by decide)⟩
theorem test_witness_BlockNeverStops : writing.Inv := writing_inv
theorem test_witness_ReachableStatesMeetR48 : Reachable base := .powerOn vec_wf _ _ _ _
theorem test_witness_ReceiveOrderLaw : (cmd 0x00#8).RxLaw ∧ (∃ t, step (cmd 0x00#8) = .next t) ∧ Reachable base :=
  ⟨rfl, exists_next (by decide), .powerOn vec_wf _ _ _ _⟩
theorem test_witness_TransmitOrderLaw : base.Inv ∧ base.TxLaw ∧ (∃ t, step base = .next t) ∧ Reachable base :=
  ⟨base_inv, rfl, exists_next (by decide), .powerOn vec_wf _ _ _ _⟩
theorem test_witness_NoStrandedBytes_step : (ring .wait 0 2 0 true [] []).NotStranded ∧
    ∃ t, step (ring .wait 0 2 0 true [] []) = .next t := ⟨fun _ => .inl rfl, exists_next (by decide)⟩
/-- A NOP's response in the ring, the engine back in WAIT. -/
theorem test_witness_NoStrandedBytes_reachable : ∃ s, Reachable s ∧ (∀ pos, s.eng ≠ .send pos) ∧ s.fifo.txClaim = 0 ∧
    0 < s.fifo.txCount :=
  ⟨_, .step (.step (.step (.step (.step (.powerOn vec_wf PowerOn.zeros 0#64 [.hostRx [0x00#8], .rxa, .eng, .eng, .eng] 0)
    rfl) rfl) rfl) rfl) rfl, nofun, rfl, by decide⟩
theorem test_witness_ChipSelectHoldLaw : writing.Inv ∧ writing.BusLaw ∧ (∃ t, step writing = .next t) ∧ Reachable base :=
  ⟨writing_inv, ⟨.asserted, rfl, rfl⟩, exists_next (by decide), .powerOn vec_wf _ _ _ _⟩
/-- One byte below the capacity, and at it. -/
theorem test_witness_ReceivePushQueuesOrDrops :
    ({ base with cfg.cRx := 2, fifo.rxq := [0x0A#8], fifo.rxPass := [0x0B#8] } : State).fifo.rxq.length < 2 ∧
    2 ≤ ({ base with cfg.cRx := 2, fifo.rxq := [0x0A#8, 0x0B#8], fifo.rxPass := [0x0C#8] } : State).fifo.rxq.length := by
  decide
theorem test_witness_ReceivePassTakesWhatFits :
    ({ base with turns := [.hostRx [0x0A#8, 0x0B#8], .rxa, .rxa] } : State).turns =
      .hostRx [0x0A#8, 0x0B#8] :: (List.replicate [0x0A#8, 0x0B#8].length .rxa ++ []) ∧ base.fifo.rxPass = [] := by decide
theorem test_witness_DropCounterIsMonotone :
    (∃ t, fire .rxa { base with cfg.cRx := 0, fifo.rxPass := [0x0C#8] } = .next t) ∧ ∃ t, fire .eng base = .next t :=
  ⟨exists_next (by decide), exists_next (by decide)⟩
theorem test_witness_InterruptAgentsTouchTheirQueueOnly : (∃ t, fire .rxa { base with fifo.rxPass := [0x0C#8] } = .next t) ∧
    ∃ t, fire (.txa 2) (ring .wait 0 2 2 true [0x01#8, 0x02#8] []) = .next t :=
  ⟨exists_next (by decide), exists_next (by decide)⟩
theorem test_witness_ReceiveQueueIsFifo : ∃ t, fire .eng (cmd 0x10#8) = .next t := exists_next (by decide)
/-- An empty ring, and a full one. -/
theorem test_witness_PutAppendsWhatFits :
    (ring (.send .put) 3 0 0 false [] [0x06#8]).fifo.txCount ≤ (ring (.send .put) 3 0 0 false [] [0x06#8]).cfg.cTx ∧
    (ring (.send .put) 3 4 0 true [] [0x06#8]).fifo.txCount ≤ (ring (.send .put) 3 4 0 true [] [0x06#8]).cfg.cTx := by decide
theorem test_witness_SendLoopSteps : (ring (.send .ie) 0 1 0 false [] []).eng = .send .ie ∧
    (ring (.send .wait) 0 4 0 true [] [0x06#8]).eng = .send .wait := by decide
/-- Room for exactly the response. -/
theorem test_witness_SendReturnsWhenThereIsRoom :
    ({ ring (.send .put) 3 2 0 true [] [0x06#8, 0x08#8] with turns := [.eng, .eng] } : State).turns = .eng :: .eng :: [] ∧
    (ring (.send .put) 3 2 0 true [] [0x06#8, 0x08#8]).fifo.txCount +
      (ring (.send .put) 3 2 0 true [] [0x06#8, 0x08#8]).engOut.length ≤
      (ring (.send .put) 3 2 0 true [] [0x06#8, 0x08#8]).cfg.cTx := by decide
theorem test_witness_ClaimTakesContiguousChunk :
    ((ring .wait 3 3 0 true [] []).fifo.txIe = true ∧ (ring .wait 3 3 0 true [] []).fifo.txClaim = 0 ∧
      (ring .wait 3 3 0 true [] []).fifo.txOpen = false) ∧ (ring .wait 0 1 0 false [] []).fifo.txIe = false := by decide
/-- All of the claim, up to the ring's end. -/
theorem test_witness_CommitSendsAndFrees : (ring .wait 2 2 2 true [] []).fifo.txOpen = true ∧
    2 ≤ (ring .wait 2 2 2 true [] []).fifo.txClaim ∧
    (ring .wait 2 2 2 true [] []).fifo.txClaim ≤ (ring .wait 2 2 2 true [] []).fifo.txCount ∧
    (ring .wait 2 2 2 true [] []).fifo.txRd + (ring .wait 2 2 2 true [] []).fifo.txClaim ≤
      (ring .wait 2 2 2 true [] []).cfg.cTx := by decide
theorem test_witness_EmptyInterruptTurnsItselfOff :
    (ring .wait 3 0 0 true [] []).fifo.txIe = true ∧ (ring .wait 3 0 0 true [] []).fifo.txCount = 0 ∧
    (ring .wait 3 0 0 true [] []).fifo.txClaim = 0 ∧ (ring .wait 3 0 0 true [] []).fifo.txOpen = false ∧
    (ring .wait 3 0 0 true [] []).fifo.txRd < (ring .wait 3 0 0 true [] []).cfg.cTx := by decide
theorem test_witness_BackpressureHangIsKept : (ring (.send .put) 0 4 0 true [] [0xB0#8]).engOut ≠ [] ∧
    (ring (.send .put) 0 4 0 true [] [0xB0#8]).fifo.txCount = (ring (.send .put) 0 4 0 true [] [0xB0#8]).cfg.cTx ∧
    ∃ t, fire .eng (ring (.send .put) 0 4 0 true [] [0xB0#8]) = .next t :=
  ⟨by decide, by decide, exists_next (by decide)⟩
/-- R187's state is quiescent, and so has no step; an empty ring with the interrupt still on is settled only. -/
theorem test_witness_QuiescentAgentsHaveNoStep : base.Quiescent ∧
    (base.Inv ∧ base.NotStranded ∧ fire .rxa base = .next base ∧ fire .eng base = .next base ∧
      (∀ ok data, fire (.spiDev ok data) base = .next base) ∧ fire .hostTx base = .next base ∧
      ∀ k, fire (.txa k) base = .next base) ∧
    (ring .wait 2 0 0 true [] []).Settled ∧ (ring .wait 2 0 0 true [] []).fifo.txRd < (ring .wait 2 0 0 true [] []).cfg.cTx ∧
    ¬ (ring .wait 2 0 0 true [] []).Quiescent :=
  ⟨⟨⟨rfl, rfl, rfl, rfl, rfl⟩, rfl, rfl⟩,
    ⟨base_inv, fun h => absurd h (by decide), rfl, rfl, fun _ _ => rfl, rfl, fun k => txCommit_closed rfl k⟩,
    ⟨rfl, rfl, rfl, rfl, rfl⟩, by decide, fun q => absurd q.interrupt_off (by decide)⟩
/-- The clock is at 0 in `base`: the same value, a later one; and, from 5, an earlier one; and an event that is not CLK's. -/
theorem test_witness_ClockNeverGoesBack : (∃ t, step { base with turns := [.clk 5#64] } = .next t) ∧
    base.clk.toNat ≤ (0#64).toNat ∧ base.clk.toNat ≤ (5#64).toNat ∧
    (4#64).toNat < ({ base with clk := 5#64 } : State).clk.toNat ∧ ∃ t, fire .eng base = .next t :=
  ⟨exists_next (by decide), by decide, by decide, by decide, exists_next (by decide)⟩
/-- The decoder reads the byte; and, in a mode that no run reaches, it does not. -/
theorem test_witness_StepRunsTheDecodedInstruction : (cmd 0x10#8).turns = .eng :: [] ∧ (cmd 0x10#8).eng = .wait ∧
    (cmd 0x10#8).fifo.rxq = 0x10#8 :: [] ∧ decode CmdCodes.serprog .awaitCommand 0x00#8 0x10#8 = .ok .syncnop ∧
    decode CmdCodes.serprog (dat 0x11#8 0#32 [] 0x10#8).ses.phase 0x11#8 0x10#8 = .error (.activeCmdNotDeferred 0x11#8) :=
  ⟨rfl, rfl, rfl, rfl, rfl⟩
theorem test_witness_IdleEngineWaits : base.eng = .wait ∧ base.fifo.rxq = [] := by decide
/-- 301 ms and 300 ms after the stamp. -/
theorem test_witness_TimeoutReadsByteAsCommand : (dat 0x13#8 0#32 [] 0x00#8).ses.phase = .awaitData ∧
    (0#64).toNat ≤ (300#64).toNat ∧ vec.tData.toNat < (301#64).toNat - (0#64).toNat ∧ (300#64).toNat - (0#64).toNat ≤ vec.tData.toNat ∧
    decodeData CmdCodes.serprog 0x13#8 0x00#8 = .ok (.oSpiop (.data 0x00#8)) ∧ base.ses.phase = .awaitCommand :=
  ⟨rfl, by decide, by decide, by decide, rfl, rfl⟩
theorem test_witness_OneErrorPerByte : ∃ t, fire .eng (cmd 0x06#8) = .next t := exists_next (by decide)
theorem test_witness_ResponsesBeginWithStatus : ∃ t, exec .syncnop base = .next t ∧ t.eng = .send .put := ⟨_, rfl, rfl⟩
/-- The hypothesis `s.cfg.Wf` of the immediate commands' and the unrecognized codes' statements. -/
theorem test_witness_Immediates : base.cfg.Wf := vec_wf
theorem test_witness_SyncAnswersInAwaitCommand : base.ses.phase = .awaitCommand ∧
    ({ dat 0x13#8 2#32 [] 0x10#8 with clk := 301#64 } : State).cfg.tData.toNat < (301#64).toNat - (0#64).toNat := by decide
theorem test_witness_OverflowGuardTrips : (dat 0x13#8 4096#32 [] 0x77#8).cfg.wCap ≤
    (dat 0x13#8 4096#32 [] 0x77#8).ses.byteCnt.toNat := by decide
theorem test_witness_BustypeDataByteCompletes : (dat 0x12#8 0#32 [] 0x08#8).ses.byteCnt.toNat < vec.wCap ∧
    0x08#8 = vec.bustypeSpi ∧ 0x09#8 ≠ vec.bustypeSpi := by decide
/-- Header bytes 1 and 5, and payload bytes at both ends of the buffer. -/
theorem test_witness_SpiopDataByteAccumulates : (dat 0x13#8 0#32 [] 0x01#8).ses.byteCnt.toNat < 5 ∧
    (dat 0x13#8 4#32 [] 0x01#8).ses.byteCnt.toNat < 5 ∧ 6 ≤ (6#32).toNat ∧ (4095#32).toNat < vec.wCap ∧
    (6#32 + 1#32).toNat - 6 ≠ (4095#24).toNat ∧ (4095#32 + 1#32).toNat - 6 ≠ (4095#24).toNat := by decide
theorem test_witness_SpiopHeaderCompletes : (dat 0x13#8 5#32 [0x01#8] 0x00#8).ses.byteCnt.toNat = 5 := by decide
/-- The shortest and the longest payload. -/
theorem test_witness_SpiopLastPayloadByteExecutes : 6 ≤ (6#32).toNat ∧ (6#32 + 1#32).toNat - 6 = (1#24).toNat ∧
    (4095#32).toNat < vec.wCap ∧ (4095#32 + 1#32).toNat - 6 = (4090#24).toNat := by decide
theorem test_witness_FreqDataByteAccumulates : (0#32).toNat < vec.wCap ∧ (0#32 + 1#32).toNat ≠ 4 ∧
    (2#32 + 1#32).toNat ≠ 4 := by decide
theorem test_witness_FreqCompletesClampsAndEchoes : (dat 0x14#8 3#32 [] 0x00#8).ses.byteCnt.toNat = 3 ∧
    freqValue (dat 0x14#8 3#32 [] 0x00#8) 0x00#8 = 0 ∧ freqValue (dat 0x14#8 3#32 [0x01#8] 0x00#8) 0x00#8 = 1 := by decide
theorem test_witness_TransferSteps : (xfer .csAssert 1#24 3#24 []).eng = .run .csAssert ∧
    (xfer .spiWrite 4090#24 0#24 []).ses.writeLen.toNat ≤ vec.wCap ∧ (xfer .spiRead 0#24 4096#24 []).ses.readLen.toNat ≤ vec.wCap ∧
    [0xEF#8, 0x40#8, 0x18#8].length = (xfer .spiRead 1#24 3#24 []).ses.readLen.toNat := by decide
theorem test_witness_ReleaseEndsTransfer : (xfer (.csRelease true) 1#24 4096#24 []).eng = .run (.csRelease true) ∧
    (xfer (.csRelease false) 1#24 4096#24 []).eng = .run (.csRelease false) ∧
    (xfer (.csRelease true) 1#24 4096#24 []).ses.readLen.toNat ≤ vec.wCap := by decide
theorem test_witness_OnlySetFrequencyChangesFreq : ∃ t, fire .eng (dat 0x14#8 3#32 [0x01#8] 0x00#8) = .next t ∧
    t.spi.freq ≠ base.spi.freq := ⟨_, rfl, by decide⟩
theorem test_witness_SpiEventsOnlyInsideSpiop : writing.Inv ∧ ∃ t, fire (.spiDev true []) writing = .next t :=
  ⟨writing_inv, exists_next (by decide)⟩

/-- A state that stands before a frame, with a receive queue that holds the longest frame of these witnesses. -/
def before (frame rest : List Byte) (sched ts : List Turn) : State :=
  { base with cfg.cRx := 8192, fifo.rxq := frame ++ rest, turns := sched ++ ts }

theorem roomy_wf : ({ vec with cRx := 8192 } : Config).Wf :=
  ⟨by decide, by decide, by decide, by decide, by decide, by decide⟩

theorem before_meets (frame rest : List Byte) (sched ts : List Turn) :
    AtFrame (before frame rest sched ts) frame rest sched ts :=
  ⟨roomy_wf, rfl, rfl, rfl, rfl⟩

theorem test_witness_BustypeFrameOutcome :
    AtFrame (before (frameBustype vec.codes 0x08#8) [] [.eng, .eng] []) (frameBustype vec.codes 0x08#8) [] [.eng, .eng] [] ∧
    0x08#8 = vec.bustypeSpi ∧
    AtFrame (before (frameBustype vec.codes 0x09#8) [] [.eng, .eng] []) (frameBustype vec.codes 0x09#8) [] [.eng, .eng] [] ∧
    0x09#8 ≠ vec.bustypeSpi := ⟨before_meets _ _ _ _, rfl, before_meets _ _ _ _, by decide⟩
theorem test_witness_FreqFrameOutcome :
    AtFrame (before (frameFreq vec.codes 0#32) [] (List.replicate 5 .eng) []) (frameFreq vec.codes 0#32) []
      (List.replicate 5 .eng) [] ∧
    AtFrame (before (frameFreq vec.codes 1#32) [] (List.replicate 5 .eng) []) (frameFreq vec.codes 1#32) []
      (List.replicate 5 .eng) [] := ⟨before_meets _ _ _ _, before_meets _ _ _ _⟩
theorem payloadWf_replicate (wl : U24) (n : Nat) (b : Byte) (h : n = wl.toNat) : payloadWf wl (List.replicate n b) = true := by
  rw [payloadWf, List.length_replicate, h, beq_self_eq_true]

/-- The turns of the longest O_SPIOP that fits, with the longest read. -/
def longSpiop : List Turn :=
  List.replicate (7 + (List.replicate 4090 0x00#8).length) .eng ++
    transferTurns (4090#24).toNat (4096#24).toNat true true [] (List.replicate 4096 0x00#8)

/-- V-OP-1; V-OP-11, the longest payload that fits, with the longest read. -/
theorem test_witness_SpiopFrameOutcome :
    (payloadWf 1#24 [0x9F#8] = true ∧ 6 + [0x9F#8].length ≤ vec.wCap ∧ (3#24).toNat ≤ vec.wCap ∧
      ¬ ((1#24).toNat = 0 ∧ (3#24).toNat = 0) ∧ [0xEF#8, 0x40#8, 0x18#8].length = (3#24).toNat ∧
      AtFrame (before (frameSpiop vec.codes 1#24 3#24 [0x9F#8]) [] (List.replicate 8 .eng ++
        transferTurns 1 3 true true [] [0xEF#8, 0x40#8, 0x18#8]) []) (frameSpiop vec.codes 1#24 3#24 [0x9F#8]) []
        (List.replicate 8 .eng ++ transferTurns 1 3 true true [] [0xEF#8, 0x40#8, 0x18#8]) []) ∧
    payloadWf 4090#24 (List.replicate 4090 0x00#8) = true ∧ 6 + (List.replicate 4090 0x00#8).length ≤ vec.wCap ∧
      (4096#24).toNat ≤ vec.wCap ∧ (List.replicate 4096 0x00#8).length = (4096#24).toNat ∧
      AtFrame (before (frameSpiop vec.codes 4090#24 4096#24 (List.replicate 4090 0x00#8)) [] longSpiop [])
        (frameSpiop vec.codes 4090#24 4096#24 (List.replicate 4090 0x00#8)) [] longSpiop [] :=
  ⟨⟨by decide, by decide, by decide, by decide, by decide, before_meets _ _ _ _⟩, payloadWf_replicate _ _ _ (by decide),
    by rw [List.length_replicate]; decide, by decide, by rw [List.length_replicate]; decide, before_meets _ _ _ _⟩
/-- V-OP-2; V-ERR-2, a read of one byte too many. -/
theorem test_witness_SpiopFrameRefusedWithoutTransfer :
    (payloadWf 0#24 [] = true ∧ 6 + ([] : List Byte).length ≤ vec.wCap ∧ (0#24).toNat = 0 ∧
      AtFrame (before (frameSpiop vec.codes 0#24 0#24 []) [] (List.replicate 7 .eng) [])
        (frameSpiop vec.codes 0#24 0#24 []) [] (List.replicate 7 .eng) []) ∧
    vec.wCap < (4097#24).toNat ∧
      AtFrame (before (frameSpiop vec.codes 0#24 4097#24 []) [] (List.replicate 7 .eng) [])
        (frameSpiop vec.codes 0#24 4097#24 []) [] (List.replicate 7 .eng) [] :=
  ⟨⟨by decide, by decide, by decide, before_meets _ _ _ _⟩, by decide, before_meets _ _ _ _⟩
theorem frameSpiop_length (cc : CmdCodes) (wl rl : U24) (d : List Byte) : (frameSpiop cc wl rl d).length = 7 + d.length := by
  simp [frameSpiop, le24]; omega

/-- V-OP-10: one payload byte too many; the whole frame is within the receive queue's capacity. -/
theorem test_witness_OversizedSpiopTripsTheGuard :
    payloadWf 4091#24 (List.replicate 4091 0x00#8) = true ∧ vec.wCap < 6 + (List.replicate 4091 0x00#8).length ∧
    (frameSpiop vec.codes 4091#24 0#24 (List.replicate 4091 0x00#8)).length ≤ (before [] [] [] []).cfg.cRx ∧
    AtFrame (before (frameSpiop vec.codes 4091#24 0#24 (List.replicate 4091 0x00#8)) [] (List.replicate (2 + vec.wCap) .eng) [])
      (frameSpiop vec.codes 4091#24 0#24 (List.replicate 4091 0x00#8)) [] (List.replicate (2 + vec.wCap) .eng) [] :=
  ⟨payloadWf_replicate _ _ _ (by decide), by rw [List.length_replicate]; decide,
    by rw [frameSpiop_length, List.length_replicate]; decide, before_meets _ _ _ _⟩

end Sys2Proof.Tests
end

section
/-! Byte order (R10): splitting by division and `LE` are inverse, and the header and frequency fields read back (R79, R80). -/

namespace Sys2Proof.ByteOrder
open Sys2Proof.Machine Sys2Proof.Claims

theorem split_zero (v : Nat) : split 0 v = [] := rfl

/-- A split is its low byte followed by the split of the quotient, as `le` consumes it. -/
theorem split_succ (n v : Nat) : split (n + 1) v = BitVec.ofNat 8 v :: split n (v / 256) := by
  have shift (i : Nat) : v / 2 ^ (8 * (i + 1)) = v / 256 / 2 ^ (8 * i) := by
    rw [Nat.div_div_eq_div_mul, Nat.mul_succ, Nat.pow_add, Nat.mul_comm]
  simp [split, List.range_succ_eq_map, Function.comp_def, shift]

/-- `LE` gives a value back modulo the range of its split. -/
theorem le_split (n v : Nat) : le (split n v) = v % 256 ^ n := by
  induction n generalizing v with
  | zero => simp [split_zero, le, Nat.mod_one]
  | succ n ih =>
    rw [split_succ, le_cons, ih, BitVec.toNat_ofNat, Nat.pow_succ' (m := 256), Nat.mod_mul (x := v) (a := 256)]

/-- A byte of a word is the quotient of its value by the power of its place. -/
theorem extractLsb'_eq_ofNat_div {w : Nat} (v : BitVec w) (start : Nat) :
    v.extractLsb' start 8 = BitVec.ofNat 8 (v.toNat / 2 ^ start) := by
  rw [← Nat.shiftRight_eq_div_pow]; rfl

theorem le16_eq_split (v : U16) : le16 v = split 2 v.toNat := by
  simp [le16, split, List.range_succ, extractLsb'_eq_ofNat_div]

theorem le24_eq_split (v : U24) : le24 v = split 3 v.toNat := by
  simp [le24, split, List.range_succ, extractLsb'_eq_ofNat_div]

theorem le32_eq_split (v : U32) : le32 v = split 4 v.toNat := by
  simp [le32, split, List.range_succ, extractLsb'_eq_ofNat_div]

@[simp] theorem le_le16 (v : U16) : le (le16 v) = v.toNat := by
  rw [le16_eq_split, le_split]; exact Nat.mod_eq_of_lt v.isLt

@[simp] theorem le_le24 (v : U24) : le (le24 v) = v.toNat := by
  rw [le24_eq_split, le_split]; exact Nat.mod_eq_of_lt v.isLt

@[simp] theorem le_le32 (v : U32) : le (le32 v) = v.toNat := by
  rw [le32_eq_split, le_split]; exact Nat.mod_eq_of_lt v.isLt

/-- The header's first three bytes are `write_len`, whatever follows them. -/
theorem headerWriteLen_le24_append (w : U24) (rest : List Byte) : headerWriteLen (le24 w ++ rest) = w := by
  rw [headerWriteLen, List.take_left' (le24_length w), le_le24, BitVec.ofNat_toNat, BitVec.setWidth_eq]

/-- The header's next three bytes are `read_len`, whatever follows them. -/
theorem headerReadLen_le24_append (w r : U24) (rest : List Byte) :
    headerReadLen (le24 w ++ (le24 r ++ rest)) = r := by
  rw [headerReadLen, List.drop_left' (le24_length w), List.take_left' (le24_length r), le_le24,
    BitVec.ofNat_toNat, BitVec.setWidth_eq]

/-- The first four bytes are the frequency, whatever follows them. -/
theorem frequencyOf_le32_append (v : U32) (rest : List Byte) : frequencyOf (le32 v ++ rest) = v := by
  rw [frequencyOf, List.take_left' (le32_length v), le_le32, BitVec.ofNat_toNat, BitVec.setWidth_eq]

/-- Settles O6: `le_split` inverts a split by induction on its bytes, and each field is cut off by its length. -/
theorem littleEndianFieldsReadBack : Obligations.LittleEndianFieldsReadBack := by
  refine ⟨fun v => ⟨le16_eq_split v, le_le16 v⟩, fun v => ⟨le24_eq_split v, le_le24 v⟩,
    fun v => ⟨le32_eq_split v, le_le32 v, ?_⟩, fun w r => ⟨headerWriteLen_le24_append w _, ?_⟩⟩
  · simpa using frequencyOf_le32_append v []
  · simpa using headerReadLen_le24_append w r []

end Sys2Proof.ByteOrder
end

section
/-! The invariant, unit by unit: what it asks of the queues, the session and the SPI master, and how each operation of State keeps its
unit's share. -/

namespace Sys2Proof.Machine

/-- The invariant's share in the queues (R25, R26, R48 i and ii, R103). -/
structure QueueInv (cfg : Config) (f : Fifo) : Prop where
  rxq_le : f.rxq.length ≤ cfg.cRx
  claim_le_count : f.txClaim ≤ f.txCount
  count_le : f.txCount ≤ cfg.cTx
  txm_wf : Memory.wf f.txm
  txm_below : Memory.Below cfg.cTx f.txm
  rd_lt : f.txRd < cfg.cTx
  claim_room : f.txRd + f.txClaim ≤ cfg.cTx
  claim_closed : f.txOpen = false → f.txClaim = 0

/-- The invariant's share in the session, at a clock (R48 iii, iv and vii, R134, R181). -/
structure SessionInv (cfg : Config) (clk : U64) (ses : Session) : Prop where
  byteCnt_le : ses.byteCnt.toNat ≤ cfg.wCap
  active_deferred : ses.phase = .awaitData → ses.activeCmd ∈ cfg.codes.deferred
  wb_wf : Memory.wf ses.wb
  wb_below : Memory.Below cfg.wCap ses.wb
  count_zero : ses.phase = .awaitCommand → ses.byteCnt.toNat = 0
  stamp_le : ses.phase = .awaitData → ses.lastAct.toNat ≤ clk.toNat

/-- The invariant's share in the SPI master but for `CS`, which the engine's place decides (R38, R158, R161). -/
structure MasterInv (cfg : Config) (spi : SpiMaster) : Prop where
  fmax_eq : spi.fmax = cfg.fMax
  freq_le : spi.freq = cfg.fReset ∨ spi.freq.toNat ≤ spi.fmax.toNat

/-! The engine's places -/

theorem engineInv_wait {s : State} (h : s.eng = .wait) : engineInv s ↔
    s.spi.cs = false ∧ s.engOut = [] ∧ (s.ses.phase = .awaitData → frameProgress s) := by
  simp [engineInv, h]

theorem engineInv_csAssert {s : State} (h : s.eng = .run .csAssert) : engineInv s ↔
    s.spi.cs = false ∧ s.engOut = [] ∧ transferReady s := by
  simp [engineInv, h]

theorem engineInv_spiWrite {s : State} (h : s.eng = .run .spiWrite) : engineInv s ↔
    s.spi.cs = true ∧ s.engOut = [] ∧ transferReady s ∧ 0 < s.ses.writeLen.toNat := by
  simp [engineInv, h]

theorem engineInv_spiRead {s : State} (h : s.eng = .run .spiRead) : engineInv s ↔
    s.spi.cs = true ∧ s.engOut = [] ∧ transferReady s ∧ 0 < s.ses.readLen.toNat := by
  simp [engineInv, h]

theorem engineInv_csRelease {s : State} {ok : Bool} (h : s.eng = .run (.csRelease ok)) : engineInv s ↔
    s.spi.cs = true ∧ s.engOut = [] ∧ transferReady s := by
  simp [engineInv, h]

/-- No step ends with a popped byte still in hand (R97). -/
theorem not_engineInv_onByte {s : State} {c : Byte} (h : s.eng = .run (.onByte c)) : ¬ engineInv s := by
  simp [engineInv, h]

/-- Everywhere in `Send` the session awaits a command; only before `TX_IE <- 1` may nothing be left to enqueue (R101). -/
theorem engineInv_send {s : State} {pos : SendPos} (h : s.eng = .send pos) : engineInv s ↔
    s.spi.cs = false ∧ s.ses.phase = .awaitCommand ∧ (pos ≠ .ie → s.engOut ≠ []) := by
  cases pos <;> simp [engineInv, h] <;> tauto

theorem engineInv_cs_released {s : State} (h : engineInv s) (hr : ∀ pos, s.eng ≠ .run pos) : s.spi.cs = false := by
  cases he : s.eng with
  | wait => exact ((engineInv_wait he).1 h).1
  | run pos => exact absurd he (hr pos)
  | send pos => exact ((engineInv_send he).1 h).1

/-! The invariant, taken apart and put together -/

theorem State.Inv.queues {s : State} (h : s.Inv) : QueueInv s.cfg s.fifo :=
  ⟨h.rxq_le, h.claim_le_count, h.count_le, h.txm_wf, h.txm_below, h.rd_lt, h.claim_room, h.claim_closed⟩

theorem State.Inv.session {s : State} (h : s.Inv) : SessionInv s.cfg s.clk s.ses :=
  ⟨h.byteCnt_le, h.active_deferred, h.wb_wf, h.wb_below, h.count_zero, h.stamp_le⟩

theorem State.Inv.master {s : State} (h : s.Inv) : MasterInv s.cfg s.spi := ⟨h.fmax_eq, h.freq_le⟩

/-- The units' shares and what holds at the engine's place make up the invariant. -/
theorem State.Inv.of_units {s : State} (wf : s.cfg.Wf) (q : QueueInv s.cfg s.fifo) (p : SessionInv s.cfg s.clk s.ses)
    (m : MasterInv s.cfg s.spi) (e : engineInv s) : s.Inv where
  rxq_le := q.rxq_le
  claim_le_count := q.claim_le_count
  count_le := q.count_le
  byteCnt_le := p.byteCnt_le
  active_deferred := p.active_deferred
  cs_released := engineInv_cs_released e
  out_empty := fun he => ((engineInv_wait he).1 e).2.1
  wb_below := p.wb_below
  cfg_wf := wf
  wb_wf := p.wb_wf
  txm_wf := q.txm_wf
  txm_below := q.txm_below
  rd_lt := q.rd_lt
  claim_room := q.claim_room
  claim_closed := q.claim_closed
  count_zero := p.count_zero
  engine := e
  fmax_eq := m.fmax_eq
  freq_le := m.freq_le
  stamp_le := p.stamp_le

/-! What keeps the queues' share -/

section
variable {cfg : Config} {f : Fifo}

/-- The drop counter, the pass and the two signals are outside it. -/
theorem QueueInv.setSignals (h : QueueInv cfg f) (drops : U32) (pass : List Byte) (ie space : Bool) :
    QueueInv cfg { f with rxDrops := drops, rxPass := pass, txIe := ie, txSpace := space } :=
  { h with }

theorem QueueInv.tail (h : QueueInv cfg f) {c : Byte} {rest : List Byte} (e : f.rxq = c :: rest) :
    QueueInv cfg { f with rxq := rest } :=
  { h with rxq_le := by have := h.rxq_le; simp only [e, List.length_cons] at this; show rest.length ≤ _; omega }

theorem QueueInv.push (h : QueueInv cfg f) (hl : f.rxq.length < cfg.cRx) (b : Byte) (pass : List Byte) :
    QueueInv cfg { f with rxPass := pass, rxq := f.rxq ++ [b] } :=
  { h with rxq_le := by simpa using hl }

/-- The claim takes no more than the ring holds, and stops at the ring's end (R103). -/
theorem QueueInv.claim (h : QueueInv cfg f) :
    QueueInv cfg { f with txClaim := min f.txCount (cfg.cTx - f.txRd), txOpen := true } :=
  { h with
    claim_le_count := Nat.min_le_left _ _
    claim_room := by have := h.rd_lt; show f.txRd + min _ _ ≤ _; omega
    claim_closed := fun e => nomatch e }

/-- The commit frees bytes and closes the claim (R104). -/
theorem QueueInv.commit (h : QueueInv cfg f) (k : Nat) (space ie : Bool) :
    QueueInv cfg { f with
      txRd := (f.txRd + k) % cfg.cTx, txCount := f.txCount - k, txClaim := 0, txSpace := space, txIe := ie, txOpen := false } :=
  have hc : 0 < cfg.cTx := Nat.zero_lt_of_lt h.rd_lt
  { h with
    claim_le_count := Nat.zero_le _
    count_le := (Nat.sub_le _ _).trans h.count_le
    rd_lt := Nat.mod_lt _ hc
    claim_room := (Nat.mod_lt _ hc).le
    claim_closed := fun _ => rfl }

/-- The put stores into the ring and stays within its capacity (R100). -/
theorem QueueInv.put (h : QueueInv cfg f) (pos : Nat) (bs : List Byte) {n : Nat} (hn : n ≤ cfg.cTx - f.txCount) :
    QueueInv cfg { f with txm := f.txm.ringWrite cfg.cTx pos bs, txCount := f.txCount + n } :=
  { h with
    claim_le_count := h.claim_le_count.trans (Nat.le_add_right _ _)
    count_le := by have := h.count_le; show f.txCount + n ≤ _; omega
    txm_wf := Memory.wf_ringWrite h.txm_wf _ _ _
    txm_below := Memory.below_ringWrite bs h.txm_below (Nat.zero_lt_of_lt h.rd_lt) pos }

end

/-! What keeps the session's share -/

section
variable {cfg : Config} {clk : U64} {ses : Session}

/-- Bytes stored inside the work buffer (R53). -/
theorem SessionInv.store (h : SessionInv cfg clk ses) {i : Nat} {bs : List Byte} (hl : i + bs.length ≤ cfg.wCap) :
    SessionInv cfg clk { ses with wb := ses.wb.writeList i bs } :=
  { h with wb_wf := Memory.wf_writeList h.wb_wf i bs, wb_below := Memory.below_writeList bs h.wb_below hl }

/-- `BYTE_CNT <- 0`, in either phase (R116). -/
theorem SessionInv.zeroCount (h : SessionInv cfg clk ses) : SessionInv cfg clk { ses with byteCnt := 0#32 } :=
  { h with byteCnt_le := Nat.zero_le _, count_zero := fun _ => rfl }

/-- A session reset (R45), as `sessionReset` does it. -/
theorem SessionInv.reset (h : SessionInv cfg clk ses) :
    SessionInv cfg clk { ses with phase := .awaitCommand, byteCnt := 0#32 } :=
  { h.zeroCount with
    active_deferred := fun e => nomatch e
    count_zero := fun _ => rfl
    stamp_le := fun e => nomatch e }

/-- A deferred command's dispatch (R119). -/
theorem SessionInv.dispatch (h : SessionInv cfg clk ses) {c : Byte} (hc : c ∈ cfg.codes.deferred) :
    SessionInv cfg clk { ses with phase := .awaitData, activeCmd := c, byteCnt := 0#32, lastAct := clk } :=
  { h.zeroCount with
    active_deferred := fun _ => hc
    count_zero := fun _ => rfl
    stamp_le := fun _ => Nat.le_refl _ }

/-- The activity stamp (R137). -/
theorem SessionInv.stamp (h : SessionInv cfg clk ses) : SessionInv cfg clk { ses with lastAct := clk } :=
  { h with stamp_le := fun _ => Nat.le_refl _ }

/-- A data byte below the guard is counted (R137, R138), whatever lengths are set with it. -/
theorem SessionInv.count (h : SessionInv cfg clk ses) (hp : ses.phase = .awaitData) (hl : ses.byteCnt.toNat < cfg.wCap)
    (wl rl : U24) :
    SessionInv cfg clk { ses with byteCnt := ses.byteCnt + 1#32, writeLen := wl, readLen := rl } :=
  { h with
    byteCnt_le := by
      have : (ses.byteCnt + 1#32).toNat ≤ ses.byteCnt.toNat + 1 := by
        rw [BitVec.toNat_add]; exact Nat.mod_le _ _
      exact this.trans hl
    count_zero := fun e => by rw [hp] at e; cases e }

/-- A later clock (R181). -/
theorem SessionInv.later (h : SessionInv cfg clk ses) {clk' : U64} (hc : clk.toNat ≤ clk'.toNat) :
    SessionInv cfg clk' ses :=
  { h with stamp_le := fun hp => (h.stamp_le hp).trans hc }

end

/-! What touches one unit alone -/

/-- The queues and the histories may change under the invariant as long as the queues keep their share. -/
theorem State.Inv.setFifo {s : State} (h : s.Inv) {f : Fifo} (hq : QueueInv s.cfg f) (obs : History) :
    ({ s with fifo := f, obs := obs } : State).Inv :=
  .of_units h.cfg_wf hq h.session h.master h.engine

theorem State.Inv.setClk {s : State} (h : s.Inv) {clk : U64} (hc : s.clk.toNat ≤ clk.toNat) :
    ({ s with clk := clk } : State).Inv :=
  .of_units h.cfg_wf h.queues (h.session.later hc) h.master h.engine

/-- The invariant does not speak of the schedule. -/
theorem State.Inv.setSchedule {s : State} (h : s.Inv) (turns : List Turn) (drawn : Nat) :
    ({ s with turns := turns, drawn := drawn } : State).Inv :=
  .of_units h.cfg_wf h.queues h.session h.master h.engine

/-- R187's values meet the invariant under every configuration of R7. -/
theorem powerOn_inv {cfg : Config} (wf : cfg.Wf) (u : PowerOn) (clk : U64) (turns : List Turn) (drawn : Nat) :
    (State.powerOn cfg u clk turns drawn).Inv where
  rxq_le := Nat.zero_le _
  claim_le_count := Nat.le_refl _
  count_le := Nat.zero_le _
  byteCnt_le := Nat.zero_le _
  active_deferred := fun e => nomatch e
  cs_released := fun _ => rfl
  out_empty := fun _ => rfl
  wb_below := Memory.below_image (List.length_take_le _ _)
  cfg_wf := wf
  wb_wf := Memory.wf_image _ _
  txm_wf := Memory.wf_image _ _
  txm_below := Memory.below_image (List.length_take_le _ _)
  rd_lt := wf.cTx_pos
  claim_room := Nat.zero_le _
  claim_closed := fun _ => rfl
  count_zero := fun _ => rfl
  engine := ⟨rfl, rfl, fun e => nomatch e⟩
  fmax_eq := rfl
  freq_le := .inl rfl
  stamp_le := fun e => nomatch e

end Sys2Proof.Machine
end

section
/-! One executed byte: with a byte in hand and the invariant's shares met, it is decoded, it answers, and the engine comes to a place of the
invariant again (R113, R116–R119, R136–R148). -/

namespace Sys2Proof.Machine

/-! Decoding -/

theorem decodeCommand_phase (cc : CmdCodes) (c : Byte) : (decodeCommand cc c).phase = .awaitCommand := by
  rcases decodeCommand_cases cc c with h | ⟨e, _⟩
  · exact (commandRows_encode h).2.2.1
  · rw [e]; rfl

/-- What a byte can be in each phase (R75). -/
theorem decodeByte_ok {c : Byte} {s : State} {i : Instr} (h : decodeByte c s = .ok i) :
    (s.ses.phase = .awaitCommand ∧ i.phase = .awaitCommand) ∨
    (s.ses.phase = .awaitData ∧ decodeData s.cfg.codes s.ses.activeCmd c = .ok i) := by
  unfold decodeByte at h
  cases hp : s.ses.phase with
  | awaitCommand =>
    simp only [hp, decode, Except.ok.injEq] at h
    exact .inl ⟨rfl, h ▸ decodeCommand_phase _ _⟩
  | awaitData => exact .inr ⟨rfl, by simpa [hp, decode] using h⟩

/-- A data byte of S_SPI_FREQ comes in that command's data phase alone. -/
theorem decodeByte_sSpiFreq {c b : Byte} {s : State} (h : decodeByte c s = .ok (.sSpiFreq (.data b))) :
    s.ses.phase = .awaitData ∧ s.ses.activeCmd = s.cfg.codes.sSpiFreq := by
  rcases decodeByte_ok h with ⟨_, e⟩ | ⟨hp, h⟩
  · cases e
  · rcases decodeData_ok h with ⟨_, e⟩ | ⟨_, e⟩ | ⟨ha, _⟩
    · cases e
    · cases e
    · exact ⟨hp, ha⟩

/-- The decoder stops nowhere that R48 (iv) holds. -/
theorem decodeByte_answers (c : Byte) {s : State}
    (h : s.ses.phase = .awaitData → s.ses.activeCmd ∈ s.cfg.codes.deferred) : ∃ i, decodeByte c s = .ok i := by
  unfold decodeByte
  cases hp : s.ses.phase with
  | awaitCommand => exact ⟨_, rfl⟩
  | awaitData =>
    have hd := h hp
    simp only [CmdCodes.deferred, List.mem_cons, List.not_mem_nil, or_false] at hd
    simp only [decode, decodeData]
    split_ifs with h1 h2 h3
    · exact ⟨_, rfl⟩
    · exact ⟨_, rfl⟩
    · exact ⟨_, rfl⟩
    · simp [h1, h2, h3] at hd

/-! How far a frame has come -/

theorem frameProgress_oSpiop {s : State} (hn : s.cfg.codes.supported.Nodup) (ha : s.ses.activeCmd = s.cfg.codes.oSpiop) :
    frameProgress s ↔ s.ses.byteCnt.toNat < 6 ∨
      (6 ≤ s.ses.byteCnt.toNat ∧ s.ses.byteCnt.toNat - 6 < s.ses.writeLen.toNat) := by
  obtain ⟨hob, _, hfo⟩ := deferred_distinct hn
  simp [frameProgress, ha, hob, hfo.symm]

theorem frameProgress_sSpiFreq {s : State} (hn : s.cfg.codes.supported.Nodup)
    (ha : s.ses.activeCmd = s.cfg.codes.sSpiFreq) : frameProgress s ↔ s.ses.byteCnt.toNat < 4 := by
  obtain ⟨_, hfb, hfo⟩ := deferred_distinct hn
  simp [frameProgress, ha, hfb, hfo]

/-- A frame has come no way before its first data byte. -/
theorem frameProgress_start {s : State} (h : s.ses.byteCnt = 0#32) : frameProgress s := by
  simp [frameProgress, h]

/-- The counter does not wrap at a frame's length (R33). -/
theorem toNat_succ {x : U32} (h : x.toNat < 2 ^ 25) : (x + 1#32).toNat = x.toNat + 1 := by
  rw [BitVec.toNat_add_of_lt (by simp; omega)]; rfl

/-! With a byte in hand -/

/-- What holds while the engine processes a byte, before its first effect and between its effects. -/
structure InHand (s : State) : Prop where
  cfg_wf : s.cfg.Wf
  session : SessionInv s.cfg s.clk s.ses
  cs : s.spi.cs = false
  out : s.engOut = []

/-- What a byte must leave: the session's share, and a place of the engine with what holds there. -/
def AtBoundary (s : State) : Prop := SessionInv s.cfg s.clk s.ses ∧ engineInv s

/-- The answer is a next state in which `P` holds. -/
def LeadsTo (r : Res) (P : State → Prop) : Prop := ∃ t, r = .next t ∧ P t

theorem leadsTo_next {t : State} {P : State → Prop} (h : P t) : LeadsTo (.next t) P := ⟨t, rfl, h⟩

theorem InHand.withSes {s : State} (h : InHand s) {ses : Session} (hs : SessionInv s.cfg s.clk ses) :
    InHand { s with ses := ses } := ⟨h.cfg_wf, hs, h.cs, h.out⟩

/-- Waiting for the next byte of a frame that has further to go. -/
theorem InHand.wait {s : State} (h : InHand s) (hf : s.ses.phase = .awaitData → frameProgress s) :
    AtBoundary { s with eng := .wait } := ⟨h.session, h.cs, h.out, hf⟩

theorem InHand.wait_oSpiop {s : State} (h : InHand s) (ha : s.ses.activeCmd = s.cfg.codes.oSpiop)
    (hf : s.ses.byteCnt.toNat < 6 ∨ (6 ≤ s.ses.byteCnt.toNat ∧ s.ses.byteCnt.toNat - 6 < s.ses.writeLen.toNat)) :
    AtBoundary { s with eng := .wait } :=
  h.wait fun _ => (frameProgress_oSpiop h.cfg_wf.codes_nodup ha).2 hf

theorem InHand.wait_sSpiFreq {s : State} (h : InHand s) (ha : s.ses.activeCmd = s.cfg.codes.sSpiFreq)
    (hf : s.ses.byteCnt.toNat < 4) : AtBoundary { s with eng := .wait } :=
  h.wait fun _ => (frameProgress_sSpiFreq h.cfg_wf.codes_nodup ha).2 hf

/-- Handing a response to `Send` in AwaitCommand. -/
theorem InHand.send {s : State} (h : InHand s) (hp : s.ses.phase = .awaitCommand) {resp : List Byte} (hne : resp ≠ []) :
    AtBoundary (sendStart resp s) := ⟨h.session, h.cs, hne, hp⟩

theorem InHand.sessionReset {s : State} (h : InHand s) : InHand (sessionReset s) := h.withSes h.session.reset

theorem InHand.record {s : State} (h : InHand s) (obs : History) : InHand { s with obs := obs } :=
  ⟨h.cfg_wf, h.session, h.cs, h.out⟩

/-- The two error classes that reset the session may be raised in either phase (R166, R168). -/
theorem InHand.raise_overflowGuard {s : State} (h : InHand s) : AtBoundary (raise .overflowGuard s) :=
  (h.record _).sessionReset.send rfl (by simp)

theorem InHand.raise_busFailure {s : State} (h : InHand s) : AtBoundary (raise .busFailure s) :=
  (h.record _).sessionReset.send rfl (by simp)

/-- A ProtocolViolation is raised in AwaitCommand (R167). -/
theorem InHand.raise_protocolViolation {s : State} (h : InHand s) (hp : s.ses.phase = .awaitCommand) :
    AtBoundary (raise .protocolViolation s) :=
  (h.record _).send hp (by simp)

/-! Command bytes -/

theorem immediate_leads {s : State} (h : InHand s) (hp : s.ses.phase = .awaitCommand) {resp : List Byte} (hne : resp ≠ [])
    (hl : resp.length ≤ 4096) : LeadsTo (immediate resp s) AtBoundary := by
  have hw : resp.length ≤ s.cfg.wCap := hl.trans h.cfg_wf.wCap_ge
  rw [immediate_eq hne hw]
  exact leadsTo_next ((h.withSes (h.session.zeroCount.store (by simpa using hw))).send hp hne)

theorem execUnrecognized_leads {s : State} (h : InHand s) (hp : s.ses.phase = .awaitCommand) (code : Byte) :
    LeadsTo (execUnrecognized code s) AtBoundary := by
  have hw : 1 ≤ s.cfg.wCap := le_trans (by decide) h.cfg_wf.wCap_ge
  rw [execUnrecognized_eq hw]
  exact leadsTo_next (((h.withSes (h.session.zeroCount.store (by simpa using hw))).record _).send hp (by simp))

theorem deferredDispatch_leads {s : State} (h : InHand s) {c : Byte} (hc : c ∈ s.cfg.codes.deferred) :
    LeadsTo (deferredDispatch c s) AtBoundary :=
  leadsTo_next ((h.withSes (h.session.dispatch hc)).wait fun _ => frameProgress_start rfl)

/-- Every command byte answers: an immediate's response fits in the work buffer (R7), and a dispatch waits for its data. -/
theorem exec_command_leads {s : State} (h : InHand s) (hp : s.ses.phase = .awaitCommand) {i : Instr}
    (hi : i.phase = .awaitCommand) : LeadsTo (exec i s) AtBoundary := by
  cases i with
  | nop => exact immediate_leads h hp (by simp) (by simp)
  | qIface => exact immediate_leads h hp (by simp) (by simp)
  | qCmdmap => exact immediate_leads h hp (by simp) (by simp)
  | qPgmname => exact immediate_leads h hp (by simp) (by simp)
  | qSerbuf => exact immediate_leads h hp (by simp) (by simp)
  | qBustype => exact immediate_leads h hp (by simp) (by simp)
  | qOpbuf => exact immediate_leads h hp (by simp) (by simp)
  | qWrnmaxlen => exact immediate_leads h hp (by simp) (by simp)
  | syncnop => exact immediate_leads h hp (by simp) (by simp)
  | qRdnmaxlen => exact immediate_leads h hp (by simp) (by simp)
  | sBustype part =>
    cases part with
    | code => exact deferredDispatch_leads h (by simp [CmdCodes.deferred])
    | data b => cases hi
  | oSpiop part =>
    cases part with
    | code => exact deferredDispatch_leads h (by simp [CmdCodes.deferred])
    | data b => cases hi
  | sSpiFreq part =>
    cases part with
    | code => exact deferredDispatch_leads h (by simp [CmdCodes.deferred])
    | data b => cases hi
  | unrecognized code => exact execUnrecognized_leads h hp code

/-! Data bytes -/

theorem busTypeData_leads {s : State} (h : InHand s) (b : Byte) : LeadsTo (busTypeData b s) AtBoundary := by
  unfold busTypeData
  simp only
  split
  · exact leadsTo_next (h.sessionReset.send rfl (by simp))
  · exact leadsTo_next (h.sessionReset.raise_protocolViolation rfl)

/-- `Execute` on a whole frame: two ways to fail, or a transfer that is ready (R143, R156). -/
theorem execute_leads {s : State} (h : InHand s) (hp : s.ses.phase = .awaitData)
    (ha : s.ses.activeCmd = s.cfg.codes.oSpiop) (hn : s.ses.byteCnt.toNat = 6 + s.ses.writeLen.toNat) :
    LeadsTo (execute s) AtBoundary := by
  rcases execute_cases s with ⟨_, e⟩ | ⟨_, _, _, e⟩ | ⟨hr, hne, e⟩
  · exact ⟨_, e, h.raise_overflowGuard⟩
  · exact ⟨_, e, h.sessionReset.raise_busFailure⟩
  · exact ⟨_, e, h.session, h.cs, h.out, hp, ha, hn, hr, hne⟩

/-- A data byte stored in the work buffer and counted, whatever lengths are set with it. -/
theorem InHand.storeCount {s : State} (h : InHand s) (hp : s.ses.phase = .awaitData) (hl : s.ses.byteCnt.toNat < s.cfg.wCap)
    {i : Nat} (hi : i < s.cfg.wCap) (c : Byte) (wl rl : U24) :
    InHand { s with
      ses := { s.ses with wb := s.ses.wb.writeList i [c], byteCnt := s.ses.byteCnt + 1#32, writeLen := wl, readLen := rl } } :=
  h.withSes ((h.session.store (i := i) (bs := [c]) hi).count hp hl wl rl)

section
variable {s : State} (h : InHand s) (hp : s.ses.phase = .awaitData) (hl : s.ses.byteCnt.toNat < s.cfg.wCap) (c : Byte)
include h hp hl

theorem headerByte_leads (ha : s.ses.activeCmd = s.cfg.codes.oSpiop) (h6 : s.ses.byteCnt.toNat < 6) :
    LeadsTo (headerByte c s) AtBoundary := by
  have stored := h.storeCount hp hl hl c
  have hsucc := toNat_succ (x := s.ses.byteCnt) (by omega)
  by_cases hd : (s.ses.byteCnt + 1#32).toNat = 6
  · have done : InHand (headerDone c s) := stored _ _
    have hcnt : (headerDone c s).ses.byteCnt.toNat = 6 := hd
    rw [headerByte_done hl (le_trans (by decide) h.cfg_wf.wCap_ge) hd]
    split
    · exact execute_leads done hp ha (by omega)
    · exact leadsTo_next (done.wait_oSpiop ha (.inr ⟨hcnt.ge, by omega⟩))
  · rw [headerByte_eq hl hd]
    exact leadsTo_next ((stored _ _).wait_oSpiop ha (.inl (show (s.ses.byteCnt + 1#32).toNat < 6 by omega)))

theorem payloadByte_leads (ha : s.ses.activeCmd = s.cfg.codes.oSpiop) (h6 : 6 ≤ s.ses.byteCnt.toNat)
    (hlt : s.ses.byteCnt.toNat - 6 < s.ses.writeLen.toNat) : LeadsTo (payloadByte c s) AtBoundary := by
  have stored : InHand (payloadStored c s) := h.storeCount hp hl (by omega) c _ _
  have hsucc := toNat_succ (x := s.ses.byteCnt) (by have := s.ses.writeLen.isLt; omega)
  rw [payloadByte_eq (by omega)]
  by_cases hd : (s.ses.byteCnt + 1#32).toNat - 6 = s.ses.writeLen.toNat
  · rw [if_pos hd]
    exact execute_leads stored hp ha (show (s.ses.byteCnt + 1#32).toNat = 6 + s.ses.writeLen.toNat by omega)
  · rw [if_neg hd]
    exact leadsTo_next (stored.wait_oSpiop ha
      (.inr (show 6 ≤ (s.ses.byteCnt + 1#32).toNat ∧ (s.ses.byteCnt + 1#32).toNat - 6 < s.ses.writeLen.toNat by omega)))

theorem spiOpData_leads (ha : s.ses.activeCmd = s.cfg.codes.oSpiop) (hf : frameProgress s) :
    LeadsTo (spiOpData c s) AtBoundary := by
  unfold spiOpData
  rcases (frameProgress_oSpiop h.cfg_wf.codes_nodup ha).1 hf with h6 | ⟨h6, hlt⟩
  · rw [if_pos h6]
    exact headerByte_leads h hp hl c ha h6
  · rw [if_neg (by omega)]
    exact payloadByte_leads h hp hl c ha h6 hlt

theorem freqData_leads (ha : s.ses.activeCmd = s.cfg.codes.sSpiFreq) (hf : frameProgress s) :
    LeadsTo (freqData c s) AtBoundary := by
  have h4 : s.ses.byteCnt.toNat < 4 := (frameProgress_sSpiFreq h.cfg_wf.codes_nodup ha).1 hf
  have hsucc := toNat_succ (x := s.ses.byteCnt) (by omega)
  have stored : InHand (freqStored c s) := h.storeCount hp hl hl c _ _
  by_cases hd : (s.ses.byteCnt + 1#32).toNat = 4
  · rw [freqData_done hl (le_trans (by decide) h.cfg_wf.wCap_ge) hd]
    split
    · exact leadsTo_next (stored.sessionReset.raise_protocolViolation rfl)
    · exact leadsTo_next ⟨stored.sessionReset.session, h.cs, by simp, rfl⟩
  · rw [freqData_eq hl hd]
    exact leadsTo_next (stored.wait_sSpiFreq ha (show (s.ses.byteCnt + 1#32).toNat < 4 by omega))

end

/-- The guard, or the handler on the stamped state (R136–R138). -/
theorem dataByte_leads {s : State} (h : InHand s) {handler : State → Res}
    (hh : InHand { s with ses.lastAct := s.clk } → s.ses.byteCnt.toNat < s.cfg.wCap →
      LeadsTo (handler { s with ses.lastAct := s.clk }) AtBoundary) :
    LeadsTo (dataByte handler s) AtBoundary := by
  have stamped : InHand { s with ses.lastAct := s.clk } := h.withSes h.session.stamp
  by_cases hg : s.cfg.wCap ≤ s.ses.byteCnt.toNat
  · rw [dataByte_guard hg]
    exact leadsTo_next stamped.raise_overflowGuard
  · rw [dataByte_eq (by omega)]
    exact hh stamped (by omega)

/-- The byte's instruction answers and leaves the engine at a place of the invariant. -/
theorem exec_leads {c : Byte} {s : State} (h : InHand s) (hf : s.ses.phase = .awaitData → frameProgress s) {i : Instr}
    (hi : decodeByte c s = .ok i) : LeadsTo (exec i s) AtBoundary := by
  rcases decodeByte_ok hi with ⟨hp, hi⟩ | ⟨hp, hi⟩
  · exact exec_command_leads h hp hi
  · rcases decodeData_ok hi with ⟨_, rfl⟩ | ⟨ha, rfl⟩ | ⟨ha, rfl⟩
    · exact dataByte_leads h fun hs _ => busTypeData_leads hs c
    · exact dataByte_leads h fun hs hl => spiOpData_leads hs hp hl c ha (hf hp)
    · exact dataByte_leads h fun hs hl => freqData_leads hs hp hl c ha (hf hp)

/-- The timeout check resets the session or changes nothing (R114), so a byte stays in hand. -/
theorem InHand.timeoutCheck {s : State} (h : InHand s) (hf : s.ses.phase = .awaitData → frameProgress s) :
    InHand (timeoutCheck s) ∧ ((timeoutCheck s).ses.phase = .awaitData → frameProgress (timeoutCheck s)) := by
  rcases timeoutCheck_cases s with ⟨_, _, e⟩ | ⟨_, e⟩ <;> rw [e]
  · exact ⟨h.sessionReset.record _, fun hp => nomatch hp⟩
  · exact ⟨h, hf⟩

@[simp] theorem timeoutCheck_cfg (s : State) : (timeoutCheck s).cfg = s.cfg := by
  rcases timeoutCheck_cases s with ⟨_, _, e⟩ | ⟨_, e⟩ <;> rw [e]

@[simp] theorem timeoutCheck_fifo (s : State) : (timeoutCheck s).fifo = s.fifo := by
  rcases timeoutCheck_cases s with ⟨_, _, e⟩ | ⟨_, e⟩ <;> rw [e]

@[simp] theorem timeoutCheck_spi (s : State) : (timeoutCheck s).spi = s.spi := by
  rcases timeoutCheck_cases s with ⟨_, _, e⟩ | ⟨_, e⟩ <;> rw [e]

/-- Past the check, AwaitData means that no timeout was taken (R114). -/
theorem timeoutCheck_of_awaitData {s : State} (h : (timeoutCheck s).ses.phase = .awaitData) : timeoutCheck s = s := by
  rcases timeoutCheck_cases s with ⟨_, _, e⟩ | ⟨_, e⟩
  · rw [e] at h; cases h
  · exact e

/-- A byte writes `FREQ` with at most `FMAX`, if at all (R158). -/
theorem MasterInv.exec {i : Instr} {s t : State} (m : MasterInv s.cfg s.spi) (h : exec i s = .next t) :
    MasterInv t.cfg t.spi := by
  have d := exec_done h
  rcases exec_spi h with e | ⟨_, _, hle⟩
  · rw [d.cfg, e]; exact m
  · exact ⟨by rw [d.cfg, d.fmax, m.fmax_eq], .inr (by rwa [d.fmax])⟩

/-- `on_byte` answers with a state that meets the invariant (R113). -/
theorem onByte_leads (c : Byte) {s : State} (h : InHand s) (hf : s.ses.phase = .awaitData → frameProgress s)
    (q : QueueInv s.cfg s.fifo) (m : MasterInv s.cfg s.spi) : LeadsTo (onByte c s) State.Inv := by
  obtain ⟨hc, hfc⟩ := h.timeoutCheck hf
  obtain ⟨i, hi⟩ := decodeByte_answers c hc.session.active_deferred
  obtain ⟨t, e, hses, heng⟩ := exec_leads hc hfc hi
  have d := exec_done e
  have m' : MasterInv (timeoutCheck s).cfg (timeoutCheck s).spi := by simpa using m
  refine ⟨t, (onByte_eq hi).trans e, .of_units ?_ ?_ hses (m'.exec e) heng⟩
  · rw [d.cfg]; exact hc.cfg_wf
  · rw [d.cfg, d.fifo]; simpa using q

end Sys2Proof.Machine
end

section
/-! Every event, from a state that meets the invariant: it answers, and the state it comes to meets the invariant. -/

namespace Sys2Proof.Machine

/-! The interrupt agents and the clock -/

theorem rxReady_inv {s : State} (h : s.Inv) (bs : List Byte) : (rxReady bs s).Inv := by
  rcases rxReady_cases bs s with e | ⟨_, e⟩ <;> rw [e]
  · exact h
  · exact h.setFifo (h.queues.setSignals _ bs _ _) s.obs

theorem rxDrainStep_inv {s : State} (h : s.Inv) : (rxDrainStep s).Inv := by
  rcases rxDrainStep_cases s with ⟨_, e⟩ | ⟨b, rest, _, hl, e⟩ | ⟨b, rest, _, _, e⟩ <;> rw [e]
  · exact h
  · exact h.setFifo (h.queues.push hl b rest) _
  · exact h.setFifo (h.queues.setSignals _ rest _ _) _

theorem txClaim_inv {s : State} (h : s.Inv) : (txClaim s).Inv := by
  rcases txClaim_cases s with e | ⟨_, _, _, e⟩ <;> rw [e]
  · exact h
  · exact h.setFifo h.queues.claim s.obs

/-- What the host accepts is no more than the claim, so it lies in the ring (R103, R104). -/
theorem txCommit_leads {s : State} (h : s.Inv) (k : Nat) : LeadsTo (txCommit k s) State.Inv := by
  by_cases hc : s.fifo.txOpen = true ∧ k ≤ s.fifo.txClaim
  · obtain ⟨ho, hk⟩ := hc
    exact ⟨_, txCommit_eq ho hk (by have := h.claim_room; omega), h.setFifo (h.queues.commit k _ _) _⟩
  · exact ⟨s, if_neg hc, h⟩

theorem clockStep_inv {s : State} (h : s.Inv) (t : U64) : (clockStep t s).Inv := by
  rcases clockStep_cases t s with e | ⟨hc, e⟩ <;> rw [e]
  · exact h
  · exact h.setClk hc

/-! The transfer -/

/-- A transfer that is ready has its payload inside the work buffer (R48 iii, R142). -/
theorem transferReady.writeLen_le {s : State} (h : transferReady s) (hb : s.ses.byteCnt.toNat ≤ s.cfg.wCap) :
    s.ses.writeLen.toNat ≤ s.cfg.wCap := by
  obtain ⟨_, _, hn, _, _⟩ := h
  omega

theorem transferReady.readLen_le {s : State} (h : transferReady s) : s.ses.readLen.toNat ≤ s.cfg.wCap := by
  obtain ⟨_, _, _, hr, _⟩ := h
  exact hr

theorem csAssertStep_inv {s : State} (h : s.Inv) (he : s.eng = .run .csAssert) : (csAssertStep s).Inv := by
  obtain ⟨_, hout, hr⟩ := (engineInv_csAssert he).1 h.engine
  rw [csAssertStep_eq]
  refine .of_units h.cfg_wf h.queues h.session ⟨h.fmax_eq, h.freq_le⟩ ?_
  split_ifs with hw hrd
  · exact ⟨rfl, hout, hr, hw⟩
  · exact ⟨rfl, hout, hr, hrd⟩
  · exact ⟨rfl, hout, hr⟩

theorem spiWriteStep_leads {s : State} (h : s.Inv) (he : s.eng = .run .spiWrite) (ok : Bool) :
    LeadsTo (spiWriteStep ok s) State.Inv := by
  obtain ⟨hcs, hout, hr, _⟩ := (engineInv_spiWrite he).1 h.engine
  rw [spiWriteStep_eq (hr.writeLen_le h.byteCnt_le)]
  refine leadsTo_next (.of_units h.cfg_wf h.queues h.session h.master ?_)
  split_ifs with hrd
  · exact ⟨hcs, hout, hr, hrd.2⟩
  · exact ⟨hcs, hout, hr⟩

theorem spiReadStep_leads {s : State} (h : s.Inv) (he : s.eng = .run .spiRead) (ok : Bool) (data : List Byte) :
    LeadsTo (spiReadStep ok data s) State.Inv := by
  obtain ⟨hcs, hout, hr, _⟩ := (engineInv_spiRead he).1 h.engine
  have hl := hr.readLen_le
  by_cases hd : data.length = s.ses.readLen.toNat
  · rw [spiReadStep_eq hd hl]
    exact leadsTo_next (.of_units h.cfg_wf h.queues (h.session.store (by omega)) h.master ⟨hcs, hout, hr⟩)
  · exact ⟨s, if_neg hd, h⟩

theorem spiAnswer_leads {s : State} (h : s.Inv) (ok : Bool) (data : List Byte) : LeadsTo (spiAnswer ok data s) State.Inv := by
  unfold spiAnswer
  split
  next he => exact spiWriteStep_leads h he ok
  next he => exact spiReadStep_leads h he ok data
  all_goals exact leadsTo_next h

/-- After the release the engine is as with a byte in hand, and ends it with the read data or a BusFailure (R143, R155). -/
theorem csReleaseStep_leads {s : State} (h : s.Inv) {ok : Bool} (he : s.eng = .run (.csRelease ok)) :
    LeadsTo (csReleaseStep ok s) State.Inv := by
  obtain ⟨_, hout, hr⟩ := (engineInv_csRelease he).1 h.engine
  have released : InHand (spiEvent .csRelease (setCs false s)) := ⟨h.cfg_wf, h.session, rfl, hout⟩
  have inv {t : State} (hc : t.cfg = s.cfg) (hf : t.fifo = s.fifo) (hm : MasterInv t.cfg t.spi) (hb : AtBoundary t) : t.Inv :=
    .of_units (hc ▸ h.cfg_wf) (by rw [hc, hf]; exact h.queues) hb.1 hm hb.2
  cases ok with
  | true => exact ⟨_, afterTransfer_ok hr.readLen_le,
      inv rfl rfl ⟨h.fmax_eq, h.freq_le⟩ (released.sessionReset.send rfl (by simp))⟩
  | false => exact ⟨_, afterTransfer_fail _, inv rfl rfl ⟨h.fmax_eq, h.freq_le⟩ released.sessionReset.raise_busFailure⟩

/-! `Send` -/

theorem txPut_inv {s : State} (h : s.Inv) (he : s.eng = .send .put) : (txPut s).Inv := by
  obtain ⟨hcs, hp, _⟩ := (engineInv_send he).1 h.engine
  exact .of_units h.cfg_wf (h.queues.put _ _ (Nat.min_le_right _ _)) h.session h.master ⟨hcs, hp⟩

theorem txEnable_inv {s : State} (h : s.Inv) (he : s.eng = .send .ie) : (txEnable s).Inv := by
  obtain ⟨hcs, hp, _⟩ := (engineInv_send he).1 h.engine
  rw [txEnable_eq]
  refine .of_units h.cfg_wf (h.queues.setSignals _ _ _ _) h.session h.master ?_
  split_ifs with hout
  · exact ⟨hcs, hout, fun hd => by rw [hp] at hd; cases hd⟩
  · exact ⟨hcs, hout, hp⟩

theorem txWait_inv {s : State} (h : s.Inv) (he : s.eng = .send .wait) : (txWait s).Inv := by
  obtain ⟨hcs, hp, hout⟩ := (engineInv_send he).1 h.engine
  rw [txWait_eq]
  exact .of_units h.cfg_wf (h.queues.setSignals _ _ _ _) h.session h.master ⟨hcs, hout (by simp), hp⟩

/-! Every event -/

/-- `RX_POP` and the `on_byte` it calls (R97, R113). -/
theorem engineStep_pop {s : State} (he : s.eng = .wait) {c : Byte} {rest : List Byte} (hq : s.fifo.rxq = c :: rest) :
    engineStep s = onByte c (popped c rest s) := by
  simp [engineStep, rxPop, he, hq, popped]

theorem engineStep_idle {s : State} (he : s.eng = .wait) (hq : s.fifo.rxq = []) : engineStep s = .next s := by
  simp [engineStep, rxPop, he, hq]

theorem engineStep_wait_leads {s : State} (h : s.Inv) (he : s.eng = .wait) : LeadsTo (engineStep s) State.Inv := by
  obtain ⟨hcs, hout, hf⟩ := (engineInv_wait he).1 h.engine
  cases hq : s.fifo.rxq with
  | nil => exact ⟨s, engineStep_idle he hq, h⟩
  | cons c rest =>
    rw [engineStep_pop he hq]
    exact onByte_leads c (s := popped c rest s) ⟨h.cfg_wf, h.session, hcs, hout⟩ hf (h.queues.tail hq) h.master

theorem engineStep_leads {s : State} (h : s.Inv) : LeadsTo (engineStep s) State.Inv := by
  cases he : s.eng with
  | wait => exact engineStep_wait_leads h he
  | run pos =>
    rw [engineStep, he]
    cases pos with
    | onByte c => exact absurd h.engine (not_engineInv_onByte he)
    | csAssert => exact leadsTo_next (csAssertStep_inv h he)
    | spiWrite => exact leadsTo_next h
    | spiRead => exact leadsTo_next h
    | csRelease ok => exact csReleaseStep_leads h he
  | send pos =>
    rw [engineStep, he]
    cases pos with
    | put => exact leadsTo_next (txPut_inv h he)
    | ie => exact leadsTo_next (txEnable_inv h he)
    | wait => exact leadsTo_next (txWait_inv h he)

/-- Every event answers, and keeps the invariant: no event of the block stops it, and none leaves its good states. -/
theorem fire_leads {s : State} (h : s.Inv) (turn : Turn) : LeadsTo (fire turn s) State.Inv := by
  cases turn with
  | hostRx bs => exact leadsTo_next (rxReady_inv h bs)
  | rxa => exact leadsTo_next (rxDrainStep_inv h)
  | hostTx => exact leadsTo_next (txClaim_inv h)
  | txa k => exact txCommit_leads h k
  | spiDev ok data => exact spiAnswer_leads h ok data
  | clk t => exact leadsTo_next (clockStep_inv h t)
  | eng => exact engineStep_leads h
  | reset u => exact leadsTo_next (powerOn_inv h.cfg_wf u s.clk s.turns s.drawn)

/-- Settles O12: a step fires some event at a state that differs in the schedule alone, and every event keeps the invariant. -/
theorem stepKeepsInvariant : Obligations.StepKeepsInvariant := by
  intro s t h hstep
  obtain ⟨turn, ts, n, hfire⟩ := step_next_fire hstep
  obtain ⟨t', e, inv⟩ := fire_leads (h.setSchedule ts n) turn
  rw [hfire] at e
  exact next_inj e ▸ inv

/-- Power-on meets the invariant and every step keeps it, so every reachable state meets it. -/
theorem reachable_inv {s : State} (h : Reachable s) : s.Inv := by
  induction h with
  | powerOn wf u clk turns drawn => exact powerOn_inv wf u clk turns drawn
  | step _ e ih => exact stepKeepsInvariant _ _ ih e

/-- Settles O14: a reachable state meets the invariant, of which R48 is a part, and under which every event answers. -/
theorem reachableStatesMeetR48 : Obligations.ReachableStatesMeetR48 := by
  intro s hs
  have inv := reachable_inv hs
  refine ⟨inv.toR48, fun turn i n hfault => ?_⟩
  obtain ⟨t, e, _⟩ := fire_leads inv turn
  rw [hfault] at e
  cases e

end Sys2Proof.Machine
end

section
/-! Who writes the SPI master's frequency registers (R37, R38, R158), and what a session reset writes (R45). -/

namespace Sys2Proof.Machine

/-- What a byte can do to the frequency registers: `FMAX` stays, and `FREQ` stays unless the byte completes an S_SPI_FREQ (R37, R158). -/
theorem byte_freq {c : Byte} {s t : State} {i : Instr} (hi : decodeByte c (timeoutCheck s) = .ok i)
    (h : exec i (timeoutCheck s) = .next t) : t.spi.fmax = s.spi.fmax ∧
    (t.spi.freq = s.spi.freq ∨ (s.ses.phase = .awaitData ∧ s.ses.activeCmd = s.cfg.codes.sSpiFreq ∧
      t.ses.phase = .awaitCommand ∧ t.spi.freq.toNat ≤ t.spi.fmax.toNat)) := by
  have hmax : t.spi.fmax = s.spi.fmax := by simpa using (exec_done h).fmax
  refine ⟨hmax, ?_⟩
  rcases exec_spi h with e | ⟨⟨b, rfl⟩, hp, hle⟩
  · exact .inl (by rw [e, timeoutCheck_spi])
  · obtain ⟨hd, ha⟩ := decodeByte_sSpiFreq hi
    have e := timeoutCheck_of_awaitData hd
    rw [e] at hd ha hle
    exact .inr ⟨hd, ha, hp, by rwa [hmax]⟩

/-- Outside the engine's steps and a power-on reset no event writes a register of the SPI master. -/
theorem fire_spi {s t : State} {turn : Turn} (hr : ∀ u, turn ≠ .reset u) (he : turn ≠ .eng)
    (h : fire turn s = .next t) : t.spi = s.spi := by
  cases turn with
  | hostRx bs =>
    rw [← next_inj h]
    rcases rxReady_cases bs s with e | ⟨_, e⟩ <;> rw [e]
  | rxa =>
    rw [← next_inj h]
    rcases rxDrainStep_cases s with ⟨_, e⟩ | ⟨_, _, _, _, e⟩ | ⟨_, _, _, _, e⟩ <;> rw [e]
  | hostTx =>
    rw [← next_inj h]
    rcases txClaim_cases s with e | ⟨_, _, _, e⟩ <;> rw [e]
  | txa k => rcases txCommit_next h with ⟨_, rfl⟩ | ⟨_, _, _, rfl⟩ <;> rfl
  | spiDev ok data => rcases spiAnswer_next h with rfl | ⟨_, _, rfl⟩ | ⟨_, _, _, rfl⟩ <;> rfl
  | clk v =>
    rw [← next_inj h]
    rcases clockStep_cases v s with e | ⟨_, e⟩ <;> rw [e]
  | eng => exact absurd rfl he
  | reset u => exact absurd rfl (hr u)

/-- Settles O54: only an engine step writes the SPI master, its steps in a transfer and in `Send` write `CS` at most, and a byte writes
`FREQ` only where it completes an S_SPI_FREQ. -/
theorem onlySetFrequencyChangesFreq : Obligations.OnlySetFrequencyChangesFreq := by
  intro s t turn hr h
  by_cases he : turn = .eng
  · subst he
    cases engineStep_next h with
    | idle _ e => subst e; exact ⟨rfl, .inl rfl⟩
    | pop c rest i _ _ hi hx => exact (byte_freq hi hx).imp_right (.imp_right (⟨rfl, ·⟩))
    | byte c i _ hi hx => exact (byte_freq hi hx).imp_right (.imp_right (⟨rfl, ·⟩))
    | csAssert _ e => subst e; exact ⟨rfl, .inl rfl⟩
    | released _ _ e => subst e; exact ⟨rfl, .inl rfl⟩
    | failed _ e => subst e; exact ⟨rfl, .inl rfl⟩
    | put _ e => subst e; exact ⟨rfl, .inl rfl⟩
    | enable _ e => subst e; exact ⟨rfl, .inl rfl⟩
    | retry _ e => subst e; exact ⟨rfl, .inl rfl⟩
  · rw [fire_spi hr he h]
    exact ⟨rfl, .inl rfl⟩

/-- Settles O9: `sessionReset` is that update of the session. -/
theorem sessionResetTouchesTwoRegisters : Obligations.SessionResetTouchesTwoRegisters := fun _ => rfl

end Sys2Proof.Machine
end

section
/-! The receive path: `RXQ` is a queue between RXA and the engine, so bytes are processed in the order they were accepted (R66, R70, R97,
R99). -/

namespace Sys2Proof.Machine

/-- The receive queue and both its histories are as before. -/
def RxKept (s t : State) : Prop :=
  t.fifo.rxq = s.fifo.rxq ∧ t.obs.taken = s.obs.taken ∧ t.obs.accepted = s.obs.accepted

/-- The timeout check touches no queue and writes log and errors only (R114). -/
theorem timeoutCheck_rxKept (s : State) : RxKept s (timeoutCheck s) := by
  rcases timeoutCheck_cases s with ⟨_, _, e⟩ | ⟨_, e⟩ <;> rw [e] <;> exact ⟨rfl, rfl, rfl⟩

/-- Once popped, a byte's processing leaves the receive queue alone (R113). -/
theorem byte_rxKept {s t : State} {i : Instr} (h : exec i (timeoutCheck s) = .next t) : RxKept s t := by
  obtain ⟨hq, ht, ha⟩ := timeoutCheck_rxKept s
  have d := exec_done h
  exact ⟨by rw [d.fifo, hq], d.taken.trans ht, d.accepted.trans ha⟩

/-- An engine step leaves the receive queue alone, or it is the pop of the head byte in WAIT (R97, R99). -/
theorem engineStep_rx {s t : State} (h : engineStep s = .next t) : RxKept s t ∨
    ∃ c, s.eng = .wait ∧ s.fifo.rxq = c :: t.fifo.rxq ∧ t.obs.taken = s.obs.taken ++ [c] ∧ t.obs.accepted = s.obs.accepted := by
  cases engineStep_next h with
  | pop c rest i he hq _ hx =>
    obtain ⟨hrest, htaken, hacc⟩ : RxKept (popped c rest s) t := byte_rxKept hx
    exact .inr ⟨c, he, hq.trans (congrArg (c :: ·) hrest.symm), htaken, hacc⟩
  | byte c i _ _ hx => exact .inl (byte_rxKept hx)
  | idle _ e => subst e; exact .inl ⟨rfl, rfl, rfl⟩
  | csAssert _ e => subst e; exact .inl ⟨rfl, rfl, rfl⟩
  | released _ _ e => subst e; exact .inl ⟨rfl, rfl, rfl⟩
  | failed _ e => subst e; exact .inl ⟨rfl, rfl, rfl⟩
  | put _ e => subst e; exact .inl ⟨rfl, rfl, rfl⟩
  | enable _ e => subst e; exact .inl ⟨rfl, rfl, rfl⟩
  | retry _ e => subst e; exact .inl ⟨rfl, rfl, rfl⟩

/-- RXA's step leaves the receive queue alone, or appends the next byte of its pass (R93, R94). -/
theorem rxDrainStep_rx (s : State) : RxKept s (rxDrainStep s) ∨
    ∃ b, (rxDrainStep s).fifo.rxq = s.fifo.rxq ++ [b] ∧ (rxDrainStep s).obs.accepted = s.obs.accepted ++ [b] ∧
      s.fifo.rxPass = b :: (rxDrainStep s).fifo.rxPass ∧ (rxDrainStep s).obs.taken = s.obs.taken := by
  rcases rxDrainStep_cases s with ⟨_, e⟩ | ⟨b, rest, hp, _, e⟩ | ⟨b, rest, _, _, e⟩ <;> rw [e]
  · exact .inl ⟨rfl, rfl, rfl⟩
  · exact .inr ⟨b, rfl, rfl, hp, rfl⟩
  · exact .inl ⟨rfl, rfl, rfl⟩

/-- Settles O23: of the events but a reset, RXA's and the engine's alone reach `RXQ`, each at its own end. -/
theorem receiveQueueIsFifo : Obligations.ReceiveQueueIsFifo := by
  intro s t turn hr h
  cases turn with
  | rxa =>
    obtain rfl := next_inj h
    rcases rxDrainStep_rx s with kept | ⟨b, grown⟩
    · exact .inl kept
    · exact .inr (.inl ⟨b, rfl, grown⟩)
  | eng =>
    rcases engineStep_rx h with kept | ⟨c, taken⟩
    · exact .inl kept
    · exact .inr (.inr ⟨c, rfl, taken⟩)
  | hostRx bs =>
    rw [← next_inj h]
    rcases rxReady_cases bs s with e | ⟨_, e⟩ <;> rw [e] <;> exact .inl ⟨rfl, rfl, rfl⟩
  | hostTx =>
    rw [← next_inj h]
    rcases txClaim_cases s with e | ⟨_, _, _, e⟩ <;> rw [e] <;> exact .inl ⟨rfl, rfl, rfl⟩
  | txa k => rcases txCommit_next h with ⟨_, rfl⟩ | ⟨_, _, _, rfl⟩ <;> exact .inl ⟨rfl, rfl, rfl⟩
  | spiDev ok data => rcases spiAnswer_next h with rfl | ⟨_, _, rfl⟩ | ⟨_, _, _, rfl⟩ <;> exact .inl ⟨rfl, rfl, rfl⟩
  | clk v =>
    rw [← next_inj h]
    rcases clockStep_cases v s with e | ⟨_, e⟩ <;> rw [e] <;> exact .inl ⟨rfl, rfl, rfl⟩
  | reset u => exact absurd rfl (hr u)

theorem powerOn_rxLaw (cfg : Config) (u : PowerOn) (clk : U64) (turns : List Turn) (drawn : Nat) :
    (State.powerOn cfg u clk turns drawn).RxLaw := rfl

/-- Whichever end of `RXQ` moves, what was taken followed by what waits stays what was accepted (R66). -/
theorem fire_rxLaw {s t : State} {turn : Turn} (law : s.RxLaw) (h : fire turn s = .next t) : t.RxLaw := by
  unfold State.RxLaw at law ⊢
  by_cases hr : ∃ u, turn = .reset u
  · obtain ⟨u, rfl⟩ := hr
    exact next_inj h ▸ powerOn_rxLaw s.cfg u s.clk s.turns s.drawn
  · rcases receiveQueueIsFifo s t turn (not_exists.1 hr) h with
      ⟨hq, ht, ha⟩ | ⟨b, _, hq, ha, _, ht⟩ | ⟨c, _, _, hq, ht, ha⟩
    · rw [hq, ht, ha, law]
    · rw [hq, ht, ha, law, List.append_assoc]
    · rw [ht, ha, law, hq, List.append_assoc, List.singleton_append]

/-- RxLaw does not speak of the schedule, so a step keeps it as its event does. -/
theorem step_rxLaw {s t : State} (law : s.RxLaw) (h : step s = .next t) : t.RxLaw := by
  obtain ⟨turn, ts, n, hfire⟩ := step_next_fire h
  exact fire_rxLaw (s := { s with turns := ts, drawn := n }) law hfire

theorem reachable_rxLaw {s : State} (h : Reachable s) : s.RxLaw := by
  induction h with
  | powerOn _ u clk turns drawn => exact powerOn_rxLaw _ u clk turns drawn
  | step _ e ih => exact step_rxLaw ih e

/-- Settles O15: the law holds at power-on and every step keeps it; what waits in `RXQ` has been accepted and not yet taken. -/
theorem receiveOrderLaw : Obligations.ReceiveOrderLaw :=
  ⟨fun _ _ => step_rxLaw, fun s h => ⟨s.fifo.rxq, reachable_rxLaw h⟩⟩

end Sys2Proof.Machine
end

section
/-! The transmit path: a put moves bytes from `ENG_OUT` to the ring's end and a commit moves bytes from the ring's head to the wire, so the
wire carries what was sent, in order (R67, R100, R104). -/

namespace Sys2Proof.Machine

/-! The ring at its two ends -/

/-- Bytes written behind the ring's contents are read behind them, as long as they fit (R100). -/
theorem Memory.ringRead_ringWrite_append (m : Memory) {cap n : Nat} (pos : Nat) (bs : List Byte) (h : n + bs.length ≤ cap) :
    Memory.ringRead (Memory.ringWrite m cap (pos + n) bs) cap pos (n + bs.length) = Memory.ringRead m cap pos n ++ bs := by
  have old : Memory.ringRead (Memory.ringWrite m cap (pos + n) bs) cap pos n = Memory.ringRead m cap pos n :=
    Memory.ringRead_congr fun j hj => Memory.read_ringWrite_other _ _ _ _ _ fun i hi => by
      rw [Nat.add_assoc]
      exact (Memory.ring_distinct (by omega) (by omega)).symm
  rw [Memory.ringRead_append, old, Memory.ringRead_ringWrite _ _ _ _ (by omega)]

/-- The put's share of `ENG_OUT` is appended to the ring's contents (R100). -/
theorem txContents_txPut {s : State} (h : s.fifo.txCount ≤ s.cfg.cTx) : (txPut s).fifo.txContents s.cfg.cTx =
    s.fifo.txContents s.cfg.cTx ++ s.engOut.take (putCount s) := by
  have hout : putCount s ≤ s.engOut.length := Nat.min_le_left _ _
  have hroom : putCount s ≤ s.cfg.cTx - s.fifo.txCount := Nat.min_le_right _ _
  have hlen : (s.engOut.take (putCount s)).length = putCount s := List.length_take_of_le hout
  have key := Memory.ringRead_ringWrite_append s.fifo.txm s.fifo.txRd (s.engOut.take (putCount s))
    (n := s.fifo.txCount) (cap := s.cfg.cTx) (by omega)
  rwa [hlen] at key

/-- A chunk that does not pass the ring's end, and what is left after it, are the contents (R104). -/
theorem Fifo.readList_append_txContents (f : Fifo) {cap k : Nat} (hk : k ≤ f.txCount) (hr : f.txRd + k ≤ cap) :
    f.txm.readList f.txRd k ++ f.txm.ringRead cap ((f.txRd + k) % cap) (f.txCount - k) = f.txContents cap := by
  rw [Memory.ringRead_mod, ← Memory.ringRead_eq_readList _ hr, ← Memory.ringRead_append, Nat.add_sub_cancel' hk, Fifo.txContents]

/-! What keeps the law -/

theorem powerOn_txLaw (cfg : Config) (u : PowerOn) (clk : U64) (turns : List Turn) (drawn : Nat) :
    (State.powerOn cfg u clk turns drawn).TxLaw := rfl

/-- A byte processed with nothing left to enqueue: what it hands to `Send`, if anything, is all of `ENG_OUT` (R101). -/
theorem ByteDone.txLaw {s t : State} (d : ByteDone s t) (law : s.TxLaw) (hout : s.engOut = []) : t.TxLaw := by
  have hsent : t.obs.sent = s.obs.sent ++ t.engOut := by
    cases d.ending with
    | quiet _ out sent _ => rw [sent, out, hout, List.append_nil]
    | answer _ _ sent _ => exact sent
    | error _ _ _ _ sent _ => exact sent
  unfold State.TxLaw at law ⊢
  rw [hsent, law, hout, d.wire, d.fifo, d.cfg, List.append_nil]

/-- The timeout check sends nothing (R114, R170). -/
theorem State.TxLaw.timeoutCheck {s : State} (law : s.TxLaw) (hout : s.engOut = []) :
    (timeoutCheck s).TxLaw ∧ (timeoutCheck s).engOut = [] := by
  rcases timeoutCheck_cases s with ⟨_, _, e⟩ | ⟨_, e⟩ <;> rw [e] <;> exact ⟨law, hout⟩

/-- The put moves the first bytes of `ENG_OUT` to the end of the ring (R100). -/
theorem txPut_txLaw {s : State} (law : s.TxLaw) (h : s.fifo.txCount ≤ s.cfg.cTx) : (txPut s).TxLaw := by
  have hcontents : (txPut s).fifo.txContents (txPut s).cfg.cTx = _ := txContents_txPut h
  unfold State.TxLaw at law ⊢
  rw [hcontents]
  change s.obs.sent = s.obs.wire ++ (_ ++ s.engOut.take (putCount s)) ++ s.engOut.drop (putCount s)
  rw [law]
  simp only [List.append_assoc, List.take_append_drop]

/-- The commit moves the first bytes of the ring onto the wire (R104); the claim it is bounded by is inside them (R48 ii). -/
theorem txCommit_txLaw {k : Nat} {s t : State} (law : s.TxLaw) (hclaim : s.fifo.txClaim ≤ s.fifo.txCount)
    (h : txCommit k s = .next t) : t.TxLaw := by
  rcases txCommit_next h with ⟨_, rfl⟩ | ⟨_, hk, hr, rfl⟩
  · exact law
  · have hcontents := s.fifo.readList_append_txContents (hk.trans hclaim) hr
    unfold State.TxLaw at law ⊢
    rw [law, ← hcontents, ← List.append_assoc]
    rfl

/-- An engine step moves bytes from `ENG_OUT` to the ring in its put only, and hands bytes to `Send` only with `ENG_OUT` empty (R48 vi,
R101). -/
theorem engineStep_txLaw {s t : State} (inv : s.Inv) (law : s.TxLaw) (h : engineStep s = .next t) : t.TxLaw := by
  cases engineStep_next h with
  | idle _ e => exact e ▸ law
  | pop c rest i he _ _ hx =>
    have poppedLaw : (popped c rest s).TxLaw := law
    obtain ⟨checkedLaw, hout⟩ := poppedLaw.timeoutCheck (inv.out_empty he)
    exact (exec_done hx).txLaw checkedLaw hout
  | byte c i he => exact absurd inv.engine (not_engineInv_onByte he)
  | csAssert _ e => subst e; exact law
  | released he _ e =>
    obtain ⟨_, hout, _⟩ := (engineInv_csRelease he).1 inv.engine
    subst e
    exact (byteDone_send (by simp)).txLaw law hout
  | failed he e =>
    obtain ⟨_, hout, _⟩ := (engineInv_csRelease he).1 inv.engine
    subst e
    exact (byteDone_raise (.inr (.inr rfl))).txLaw law hout
  | put _ e => exact e ▸ txPut_txLaw law inv.count_le
  | enable _ e => subst e; exact law
  | retry _ e => subst e; exact law

/-- Every event keeps the law: the engine's and the commit move bytes within it, the others touch none of its parts. -/
theorem fire_txLaw {s t : State} {turn : Turn} (inv : s.Inv) (law : s.TxLaw) (h : fire turn s = .next t) : t.TxLaw := by
  cases turn with
  | eng => exact engineStep_txLaw inv law h
  | txa k => exact txCommit_txLaw law inv.claim_le_count h
  | hostTx =>
    rw [← next_inj h]
    rcases txClaim_cases s with e | ⟨_, _, _, e⟩ <;> rw [e] <;> exact law
  | hostRx bs =>
    rw [← next_inj h]
    rcases rxReady_cases bs s with e | ⟨_, e⟩ <;> rw [e] <;> exact law
  | rxa =>
    rw [← next_inj h]
    rcases rxDrainStep_cases s with ⟨_, e⟩ | ⟨_, _, _, _, e⟩ | ⟨_, _, _, _, e⟩ <;> rw [e] <;> exact law
  | spiDev ok data => rcases spiAnswer_next h with rfl | ⟨_, _, rfl⟩ | ⟨_, _, _, rfl⟩ <;> exact law
  | clk v =>
    rw [← next_inj h]
    rcases clockStep_cases v s with e | ⟨_, e⟩ <;> rw [e] <;> exact law
  | reset u => exact next_inj h ▸ powerOn_txLaw s.cfg u s.clk s.turns s.drawn

/-- TxLaw and the invariant do not speak of the schedule, so a step keeps the law as its event does. -/
theorem step_txLaw {s t : State} (inv : s.Inv) (law : s.TxLaw) (h : step s = .next t) : t.TxLaw := by
  obtain ⟨turn, ts, n, hfire⟩ := step_next_fire h
  exact fire_txLaw (inv.setSchedule ts n) law hfire

theorem reachable_txLaw {s : State} (h : Reachable s) : s.TxLaw := by
  induction h with
  | powerOn _ u clk turns drawn => exact powerOn_txLaw _ u clk turns drawn
  | step hs e ih => exact step_txLaw (reachable_inv hs) ih e

/-- Settles O16: the law holds at power-on and every step keeps it; the ring's contents and `ENG_OUT` are what the wire lacks. -/
theorem transmitOrderLaw : Obligations.TransmitOrderLaw := by
  refine ⟨fun _ _ => step_txLaw, fun s h => ⟨s.fifo.txContents s.cfg.cTx ++ s.engOut, ?_⟩⟩
  rw [← List.append_assoc]
  exact reachable_txLaw h

end Sys2Proof.Machine
end

section
/-! The encoding: what the decoder answers and what the encoder writes are inverse (R74, R75, R84, R85), whole frames are cut off the stream
byte by byte (R73, R76, R79–R81), and the command bitmap is the decoder's table (R78, R86). -/

namespace Sys2Proof
open Sys2Proof.ByteOrder

/-! The data phase -/

/-- Only the three deferred commands have data bytes (R75). -/
theorem Instr.of_phase_awaitData {i : Instr} (hp : i.phase = .awaitData) :
    ∃ b, i = .sBustype (.data b) ∨ i = .oSpiop (.data b) ∨ i = .sSpiFreq (.data b) := by
  cases i with
  | sBustype part | oSpiop part | sSpiFreq part =>
    cases part with
    | code => cases hp
    | data b => exact ⟨b, by simp⟩
  | _ => cases hp

theorem decodeData_sBustype (cc : CmdCodes) (c : Byte) : decodeData cc cc.sBustype c = .ok (.sBustype (.data c)) :=
  if_pos rfl

theorem decodeData_oSpiop {cc : CmdCodes} (hn : cc.supported.Nodup) (c : Byte) :
    decodeData cc cc.oSpiop c = .ok (.oSpiop (.data c)) := by
  obtain ⟨hob, _, _⟩ := deferred_distinct hn
  simp [decodeData, hob]

theorem decodeData_sSpiFreq {cc : CmdCodes} (hn : cc.supported.Nodup) (c : Byte) :
    decodeData cc cc.sSpiFreq c = .ok (.sSpiFreq (.data c)) := by
  obtain ⟨_, hfb, hfo⟩ := deferred_distinct hn
  simp [decodeData, hfb, hfo]

theorem decodeData_not_deferred {cc : CmdCodes} {active : Byte} (h : active ∉ cc.deferred) (c : Byte) :
    decodeData cc active c = .error (.activeCmdNotDeferred active) := by
  simp only [CmdCodes.deferred, List.mem_cons, List.not_mem_nil, or_false, not_or] at h
  obtain ⟨hb, ho, hf⟩ := h
  simp [decodeData, hb, ho, hf]

/-- Settles O3: under distinct codes `ACTIVE_CMD` alone picks the decoder's branch. -/
theorem dataPhaseNeverDecodesACommand : Obligations.DataPhaseNeverDecodesACommand := by
  intro cc active c hn
  refine ⟨?_, ?_, ?_, fun h => decodeData_not_deferred h c⟩
  · rintro rfl
    exact decodeData_sBustype cc c
  · rintro rfl
    exact decodeData_oSpiop hn c
  · rintro rfl
    exact decodeData_sSpiFreq hn c

/-! Command bytes -/

/-- The unrecognized codes are those outside the supported set (R84). -/
theorem decodeCommand_eq_unrecognized_iff (cc : CmdCodes) (c : Byte) :
    decodeCommand cc c = .unrecognized c ↔ c ∉ cc.supported := by
  rcases decodeCommand_cases cc c with row | ⟨e, hc⟩
  · obtain ⟨_, _, _, hu⟩ := commandRows_encode row
    exact iff_of_false (hu c) (not_not_intro (commandRows_supported row))
  · exact iff_of_true e hc

/-- Every command byte but an unrecognized code has its row in R77's table. -/
theorem encode_mem_commandRows (cc : CmdCodes) {i : Instr} (hp : i.phase = .awaitCommand) (hu : ∀ b, i ≠ .unrecognized b) :
    (encode cc i, i) ∈ commandRows cc := by
  cases i with
  | sBustype part | oSpiop part | sSpiFreq part =>
    cases part with
    | code => simp [commandRows, encode]
    | data b => cases hp
  | unrecognized code => exact absurd rfl (hu code)
  | _ => simp [commandRows, encode]

/-- A command byte is read back as what it encodes: its row is the only one with its code (R74), or no row has it (R84). -/
theorem decodeCommand_encode {cc : CmdCodes} (hn : cc.supported.Nodup) {i : Instr} (hp : i.phase = .awaitCommand)
    (hw : i.wf cc = true) : decodeCommand cc (encode cc i) = i := by
  by_cases hu : ∃ code, i = .unrecognized code
  · obtain ⟨code, rfl⟩ := hu
    exact (decodeCommand_eq_unrecognized_iff cc code).2 (by simpa [Instr.wf] using hw)
  · exact decodeCommand_row hn (encode_mem_commandRows cc hp (not_exists.mp hu))

/-- A byte in AwaitCommand is a well-formed command byte, and encodes back to itself. -/
theorem encode_decodeCommand (cc : CmdCodes) (c : Byte) :
    encode cc (decodeCommand cc c) = c ∧ (decodeCommand cc c).wf cc = true ∧ (decodeCommand cc c).phase = .awaitCommand := by
  rcases decodeCommand_cases cc c with row | ⟨e, hc⟩
  · obtain ⟨he, hw, hp, _⟩ := commandRows_encode row
    exact ⟨he, hw, hp⟩
  · rw [e]
    exact ⟨rfl, by simpa [Instr.wf] using hc, rfl⟩

/-- Read under the `ACTIVE_CMD` of its own command, a data byte is read back as what it encodes (R75, R85). -/
theorem decodeData_encode {cc : CmdCodes} (hn : cc.supported.Nodup) (any : Byte) {i : Instr} (hp : i.phase = .awaitData) :
    decodeData cc (i.active cc any) (encode cc i) = .ok i := by
  obtain ⟨b, rfl | rfl | rfl⟩ := Instr.of_phase_awaitData hp
  · exact decodeData_sBustype cc b
  · exact decodeData_oSpiop hn b
  · exact decodeData_sSpiFreq hn b

/-- Settles O1: an instruction's phase picks the decoder's mode, and each mode reads its own bytes back. -/
theorem encodeThenDecodeGivesInstruction : Obligations.EncodeThenDecodeGivesInstruction := by
  intro cc any i hn hw
  cases hp : i.phase with
  | awaitCommand => exact congrArg Except.ok (decodeCommand_encode hn hp hw)
  | awaitData => exact decodeData_encode hn any hp

/-- Settles O2: a command byte's row holds its own code, and a data byte carries the byte read. -/
theorem decodeThenEncodeGivesByte : Obligations.DecodeThenEncodeGivesByte := by
  intro cc ph active c i _ h
  cases ph with
  | awaitCommand =>
    obtain rfl : decodeCommand cc c = i := Except.ok.inj h
    exact encode_decodeCommand cc c
  | awaitData => rcases decodeData_ok h with ⟨_, rfl⟩ | ⟨_, rfl⟩ | ⟨_, rfl⟩ <;> exact ⟨rfl, rfl, rfl⟩

/-- Settles O4: the rows are looked up, and the codes outside `CmdCodes.serprog`'s supported set are the three ranges. -/
theorem defaultCodesDecodeAsTabled : Obligations.DefaultCodesDecodeAsTabled := by
  refine ⟨by decide, fun c => ?_⟩
  rw [decodeCommand_eq_unrecognized_iff]
  simp only [CmdCodes.supported, CmdCodes.serprog, List.mem_cons, List.not_mem_nil, or_false, ← BitVec.toNat_inj,
    BitVec.toNat_ofNat]
  omega

/-! Frames -/

/-- A stream is cut after as many data bytes as the command byte and what follows it ask for (R76). -/
theorem parseFrame_append {cc : CmdCodes} {c : Byte} {data more : List Byte} {i : Instr} (hi : decodeCommand cc c = i)
    (hc : dataCount i (data ++ more) = some data.length) :
    parseFrame cc (c :: (data ++ more)) = some (i :: data.map (dataInstr i), more) := by
  simp [parseFrame, hi, hc]

/-- A command byte without data bytes is a frame of its own (R76). -/
theorem parseFrame_single {cc : CmdCodes} {c : Byte} {more : List Byte} {i : Instr} (hi : decodeCommand cc c = i)
    (hc : dataCount i more = some 0) : parseFrame cc (c :: more) = some ([i], more) :=
  parseFrame_append (data := []) hi hc

/-- An O_SPIOP's header asks for itself and `write_len` payload bytes (R79). -/
theorem dataCount_oSpiop (part : FramePart) (wl rl : U24) (after : List Byte) :
    dataCount (.oSpiop part) (le24 wl ++ le24 rl ++ after) = some (6 + wl.toNat) := by
  have header : ¬ (le24 wl ++ le24 rl ++ after).length < 6 := by simp only [List.length_append, le24_length]; omega
  have count : le ((le24 wl ++ le24 rl ++ after).take 3) = wl.toNat := by
    rw [List.append_assoc, List.take_left' (le24_length wl), le_le24]
  simp only [dataCount, if_neg header, count]

/-- The ten immediate commands are command bytes that no data byte follows (R76). -/
theorem immediates_stand_alone (cc : CmdCodes) (after : List Byte) :
    ∀ i ∈ [Instr.nop, .qIface, .qCmdmap, .qPgmname, .qSerbuf, .qBustype, .qOpbuf, .qWrnmaxlen, .syncnop, .qRdnmaxlen],
      i.phase = .awaitCommand ∧ i.wf cc = true ∧ dataCount i after = some 0 := by
  simp [Instr.phase, Instr.wf, dataCount]

/-- Settles O5: each frame is its command byte, read back by `decodeCommand_encode`, and as many data bytes as `dataCount` asks for. -/
theorem framesParseByteForByte : Obligations.FramesParseByteForByte := by
  intro cc t f wl rl d more hn hd
  have hd : d.length = wl.toNat := by simpa [payloadWf] using hd
  refine ⟨fun i hi => ?_, fun code hc => ?_, ?_, ?_, ?_⟩
  · obtain ⟨hp, hw, h0⟩ := immediates_stand_alone cc more i hi
    exact parseFrame_single (decodeCommand_encode hn hp hw) h0
  · exact parseFrame_single ((decodeCommand_eq_unrecognized_iff cc code).2 hc) rfl
  · exact parseFrame_append (data := [t]) (decodeCommand_encode (i := .sBustype .code) hn rfl rfl) rfl
  · rw [← le32_eq_split]
    exact parseFrame_append (decodeCommand_encode (i := .sSpiFreq .code) hn rfl rfl) rfl
  · rw [← le24_eq_split, ← le24_eq_split]
    refine parseFrame_append (decodeCommand_encode (i := .oSpiop .code) hn rfl rfl) ?_
    rw [List.append_assoc, dataCount_oSpiop]
    simp only [List.length_append, le24_length, hd]

/-! The command bitmap -/

/-- `CMDMAP[i]` with one more code's bit set, where the code's bit lies in it: one turn of `cmdMapByte`. -/
def setCodeBit (i : Nat) (acc k : Byte) : Byte := if k.toNat / 8 = i then acc ||| (1#8 <<< (k.toNat % 8)) else acc

theorem cmdMapByte_eq (codes : List Byte) (i : Nat) : cmdMapByte codes i = codes.foldl (setCodeBit i) 0#8 := rfl

/-- One turn sets the code's own bit and keeps the others. -/
theorem setCodeBit_getLsbD {i j : Nat} (hj : j < 8) (acc k : Byte) : (setCodeBit i acc k).getLsbD j = true ↔
    acc.getLsbD j = true ∨ (k.toNat / 8 = i ∧ k.toNat % 8 = j) := by
  by_cases hi : k.toNat / 8 = i
  · have bit : (1#8 <<< (k.toNat % 8)).getLsbD j = true ↔ k.toNat % 8 = j := by
      have shifted : k.toNat % 8 ≤ j ∧ j - k.toNat % 8 = 0 ↔ k.toNat % 8 = j := by omega
      simpa [hj] using shifted
    rw [setCodeBit, if_pos hi, BitVec.getLsbD_or, Bool.or_eq_true, bit, and_iff_right hi]
  · simp [setCodeBit, hi]

/-- A bit of the byte comes from one of the codes, or was set before. -/
theorem foldl_setCodeBit_getLsbD {i j : Nat} (hj : j < 8) (codes : List Byte) (acc : Byte) :
    (codes.foldl (setCodeBit i) acc).getLsbD j = true ↔
      acc.getLsbD j = true ∨ ∃ k ∈ codes, k.toNat / 8 = i ∧ k.toNat % 8 = j := by
  induction codes generalizing acc with
  | nil => simp
  | cons k codes ih => simp [ih, setCodeBit_getLsbD hj, or_assoc]

/-- The bit at a code's place is set exactly where the code is listed (R86). -/
theorem cmdMapByte_getLsbD (codes : List Byte) (k : Byte) :
    (cmdMapByte codes (k.toNat / 8)).getLsbD (k.toNat % 8) = true ↔ k ∈ codes := by
  have place : ∀ c : Byte, (c.toNat / 8 = k.toNat / 8 ∧ c.toNat % 8 = k.toNat % 8) ↔ c = k := by
    intro c
    rw [← BitVec.toNat_inj]
    omega
  rw [cmdMapByte_eq, foldl_setCodeBit_getLsbD (Nat.mod_lt _ (by decide))]
  simp [place]

theorem cmdMap_getD {cc : CmdCodes} {i : Nat} (h : i < 32) (fallback : Byte) :
    (cmdMap cc).getD i fallback = cmdMapByte cc.supported i := by
  simp [cmdMap, h]

/-- Settles O7: a code's bit is set where the code is supported, which is where the decoder recognizes it. -/
theorem commandBitmapMatchesDecoder : Obligations.CommandBitmapMatchesDecoder := by
  intro cc k
  refine ⟨cmdMap_length cc, ?_⟩
  have hk : k.toNat / 8 < 32 := by have := k.isLt; omega
  rw [cmdMap_getD hk, cmdMapByte_getLsbD, ne_eq, decodeCommand_eq_unrecognized_iff, not_not]

end Sys2Proof
end

section
/-! What a byte hands to `Send` begins with a status byte (R87, R134). -/

namespace Sys2Proof.Machine

/-- Handed to `Send`, the response is `[NAK]` or begins with ACK, the status bytes of the given configuration (R87). -/
def StatusFirst (cfg : Config) (t : State) : Prop :=
  t.eng = .send .put → t.engOut = [cfg.nak] ∨ ∃ payload, t.engOut = cfg.ack :: payload

/-- A byte that hands nothing to `Send` says nothing of a response. -/
theorem StatusFirst.of_eng {cfg : Config} {t : State} (h : t.eng = .wait ∨ t.eng = .run .csAssert) : StatusFirst cfg t := by
  rintro he
  rcases h with h | h <;> cases h.symm.trans he

theorem statusFirst_ack (payload : List Byte) (s : State) (cfg : Config) : StatusFirst cfg (sendStart (cfg.ack :: payload) s) :=
  fun _ => .inr ⟨payload, rfl⟩

/-- The error classes that answer send `[NAK]` (R166–R168). -/
theorem statusFirst_raise {e : ErrorClass} (h : e = .overflowGuard ∨ e = .protocolViolation ∨ e = .busFailure) (s : State) :
    StatusFirst s.cfg (raise e s) := by
  rcases h with rfl | rfl | rfl <;> exact fun _ => .inl rfl

theorem busTypeData_statusFirst {b : Byte} {s t : State} (h : busTypeData b s = .next t) : StatusFirst s.cfg t := by
  rcases busTypeData_next h with ⟨_, rfl⟩ | ⟨_, rfl⟩
  · exact statusFirst_ack [] _ _
  · exact statusFirst_raise (.inr (.inl rfl)) (sessionReset s)

theorem execute_statusFirst {s t : State} (h : execute s = .next t) : StatusFirst s.cfg t := by
  rcases execute_next h with ⟨_, rfl⟩ | ⟨_, _, rfl⟩ | ⟨_, _, rfl⟩
  · exact statusFirst_raise (.inl rfl) s
  · exact statusFirst_raise (.inr (.inr rfl)) (sessionReset s)
  · exact .of_eng (.inr rfl)

theorem spiOpData_statusFirst {c : Byte} {s t : State} (h : spiOpData c s = .next t) : StatusFirst s.cfg t := by
  unfold spiOpData at h
  split at h
  · rcases (headerByte_next h).2 with ⟨_, rfl⟩ | ⟨_, _, rfl⟩ | ⟨_, _, h⟩
    · exact .of_eng (.inl rfl)
    · exact .of_eng (.inl rfl)
    · exact execute_statusFirst (s := headerDone c s) h
  · rcases (payloadByte_next h).2 with ⟨_, rfl⟩ | ⟨_, h⟩
    · exact .of_eng (.inl rfl)
    · exact execute_statusFirst (s := payloadStored c s) h

theorem freqData_statusFirst {c : Byte} {s t : State} (h : freqData c s = .next t) : StatusFirst s.cfg t := by
  rcases (freqData_next h).2 with ⟨_, rfl⟩ | ⟨_, rfl⟩ | ⟨_, rfl⟩
  · exact .of_eng (.inl rfl)
  · exact statusFirst_raise (.inr (.inl rfl)) (sessionReset (freqStored c s))
  · exact statusFirst_ack _ _ _

/-- The guard answers `[NAK]` (R138), so a data byte answers as its handler does. -/
theorem dataByte_statusFirst {handler : State → Res} (hh : ∀ {u t}, handler u = .next t → StatusFirst u.cfg t) {s t : State}
    (h : dataByte handler s = .next t) : StatusFirst s.cfg t := by
  rcases dataByte_next h with ⟨_, rfl⟩ | ⟨_, h⟩
  · exact statusFirst_raise (.inl rfl) { s with ses.lastAct := s.clk }
  · exact hh (u := { s with ses.lastAct := s.clk }) h

/-- Every data byte's response begins with its status byte. -/
theorem exec_data_statusFirst {i : Instr} {s t : State} (hp : i.phase = .awaitData) (h : exec i s = .next t) :
    StatusFirst s.cfg t := by
  obtain ⟨b, rfl | rfl | rfl⟩ := Instr.of_phase_awaitData hp
  · exact dataByte_statusFirst busTypeData_statusFirst h
  · exact dataByte_statusFirst spiOpData_statusFirst h
  · exact dataByte_statusFirst freqData_statusFirst h

/-- Settles O37: a command byte answers as `exec_command_next` says, a data byte with its status byte first. -/
theorem responsesBeginWithStatus : Obligations.ResponsesBeginWithStatus := by
  intro i s t h he
  cases hp : i.phase with
  | awaitCommand =>
    rcases exec_command_next hp h with ⟨resp, _, ack | ⟨hi, hr⟩, _, rfl⟩ | ⟨_, rfl⟩ | ⟨_, _, rfl⟩
    · exact .inr (.inl ack)
    · exact .inr (.inr ⟨hi, hr⟩)
    · exact .inl rfl
    · cases he
  | awaitData => exact (exec_data_statusFirst hp h he).imp_right .inl

end Sys2Proof.Machine
end

section
/-! The receive interrupt: RXA's push queues the byte or drops and counts it, a pass of pushes takes what fits, and RXA leaves the transmit
ring, the parser, the engine and the SPI master alone (R93–R95, R109, R110, R178). -/

namespace Sys2Proof.Machine

/-! One push -/

/-- `sat_inc_32` in its two cases (R11). -/
theorem satInc32_eq (v : U32) : satInc32 v = if v.toNat = 2 ^ 32 - 1 then v else v + 1#32 := by
  rcases satInc32_cases v with ⟨htop, e⟩ | ⟨hbelow, e, _⟩
  · rw [e, if_pos htop]
  · rw [e, if_neg hbelow.ne]

theorem satInc32_toNat (v : U32) : (satInc32 v).toNat = min (2 ^ 32 - 1) (v.toNat + 1) := by
  rcases satInc32_cases v with ⟨htop, e⟩ | ⟨hbelow, _, e⟩
  · rw [e]; omega
  · rw [e]; omega

/-- With room the push queues the byte (R94). -/
theorem rxDrainStep_room {s : State} {b : Byte} {rest : List Byte} (hp : s.fifo.rxPass = b :: rest)
    (hl : s.fifo.rxq.length < s.cfg.cRx) : rxDrainStep s = { s with
      fifo.rxPass := rest
      fifo.rxq := s.fifo.rxq ++ [b]
      obs.accepted := s.obs.accepted ++ [b] } := by
  simp [rxDrainStep, hp, rxPush, hl]

/-- With `RXQ` full the push drops the byte, counts it and logs it (R94, R165). -/
theorem rxDrainStep_full {s : State} {b : Byte} {rest : List Byte} (hp : s.fifo.rxPass = b :: rest)
    (hl : s.cfg.cRx ≤ s.fifo.rxq.length) : rxDrainStep s = { s with
      fifo.rxPass := rest
      fifo.rxDrops := satInc32 s.fifo.rxDrops
      obs.log := s.obs.log ++ [.rxDrop]
      obs.errors := s.obs.errors ++ [.transportOverflow] } := by
  simp [rxDrainStep, hp, rxPush, hl.not_gt, raise_transportOverflow]

/-- Settles O19: the push's two equations, with the saturating count written out. -/
theorem receivePushQueuesOrDrops : Obligations.ReceivePushQueuesOrDrops := by
  intro s b rest hp
  refine ⟨fun hroom => ?_, fun hfull => ?_⟩
  · rw [fire, rxDrainStep_room hp hroom]
  · rw [fire, rxDrainStep_full hp hfull, satInc32_eq]

/-! A pass of pushes -/

/-- How many bytes `RXQ` has room for (R23). -/
def rxRoom (s : State) : Nat := s.cfg.cRx - s.fifo.rxq.length

/-- `n` drops count `n`, up to the top (R94, R110). -/
theorem satInc32_iterate_toNat (n : Nat) (v : U32) : (satInc32^[n] v).toNat = min (2 ^ 32 - 1) (v.toNat + n) := by
  induction n generalizing v with
  | zero => have := v.isLt; rw [Function.iterate_zero_apply]; omega
  | succ n ih => rw [Function.iterate_succ_apply, ih, satInc32_toNat]; omega

/-- Where the pushes of `bs` lead: what fits is queued, the rest is dropped, counted and logged (R93, R94). -/
def passDone (bs : List Byte) (ts : List Turn) (s : State) : State :=
  { s with
    turns := ts
    fifo.rxq := s.fifo.rxq ++ bs.take (rxRoom s)
    fifo.rxDrops := satInc32^[bs.length - rxRoom s] s.fifo.rxDrops
    fifo.rxPass := []
    obs.accepted := s.obs.accepted ++ bs.take (rxRoom s)
    obs.log := s.obs.log ++ List.replicate (bs.length - rxRoom s) .rxDrop
    obs.errors := s.obs.errors ++ List.replicate (bs.length - rxRoom s) .transportOverflow }

theorem passDone_nil {s : State} (hp : s.fifo.rxPass = []) : passDone [] s.turns s = s := by
  simp only [passDone, List.take_nil, List.append_nil, List.length_nil, Nat.zero_sub, Function.iterate_zero_apply,
    List.replicate_zero]
  rw [← hp]

/-- A push of the pass's first byte, then the pushes of the others, come to the whole pass. -/
theorem passDone_rxDrainStep {s : State} {b : Byte} {rest : List Byte} (hp : s.fifo.rxPass = b :: rest) (ts sched : List Turn) :
    passDone rest ts (rxDrainStep { s with turns := sched }) = passDone (b :: rest) ts s := by
  by_cases hl : s.fifo.rxq.length < s.cfg.cRx
  · obtain ⟨n, hroom⟩ : ∃ n, s.cfg.cRx - s.fifo.rxq.length = n + 1 := ⟨s.cfg.cRx - s.fifo.rxq.length - 1, by omega⟩
    have hleft : s.cfg.cRx - (s.fifo.rxq.length + 1) = n := by omega
    rw [rxDrainStep_room (s := { s with turns := sched }) hp hl]
    simp [passDone, rxRoom, hroom, hleft]
  · have hroom : s.cfg.cRx - s.fifo.rxq.length = 0 := by omega
    rw [rxDrainStep_full (s := { s with turns := sched }) hp (not_lt.1 hl)]
    simp [passDone, rxRoom, hroom, List.replicate_succ]

theorem rxDrainStep_turns (s : State) : (rxDrainStep s).turns = s.turns := by
  rcases rxDrainStep_cases s with ⟨_, e⟩ | ⟨_, _, _, _, e⟩ | ⟨_, _, _, _, e⟩ <;> rw [e]

theorem rxDrainStep_rxPass (s : State) : (rxDrainStep s).fifo.rxPass = s.fifo.rxPass.tail := by
  rcases rxDrainStep_cases s with ⟨hp, e⟩ | ⟨_, _, hp, _, e⟩ | ⟨_, _, hp, _, e⟩ <;> simp [e, hp]

/-- RXA's turns in a row push the whole pass (R93). -/
theorem steps_pass {bs : List Byte} {ts : List Turn} {s : State} (hp : s.fifo.rxPass = bs)
    (hs : s.turns = List.replicate bs.length .rxa ++ ts) : steps bs.length s = .next (passDone bs ts s) := by
  induction bs generalizing s with
  | nil =>
    obtain rfl : s.turns = ts := hs
    rw [passDone_nil hp, List.length_nil, steps]
  | cons b rest ih =>
    have hts : s.turns = .rxa :: (List.replicate rest.length .rxa ++ ts) := hs
    have pushed := ih (s := rxDrainStep { s with turns := List.replicate rest.length .rxa ++ ts })
      (by rw [rxDrainStep_rxPass]; exact congrArg List.tail hp) (rxDrainStep_turns _)
    rw [List.length_cons, steps_cons hts rfl, pushed, passDone_rxDrainStep hp]

/-- Settles O20: `rx_ready` starts the pass, and RXA's turns push it whole. -/
theorem receivePassTakesWhatFits : Obligations.ReceivePassTakesWhatFits := by
  intro s bs ts _ hp hs
  let u : State := { s with turns := List.replicate bs.length .rxa ++ ts, fifo.rxPass := bs }
  have hready : fire (.hostRx bs) { s with turns := List.replicate bs.length .rxa ++ ts } = .next u := by
    rw [fire, rxReady, if_pos hp]
  refine ⟨passDone bs ts u, ?_, satInc32_iterate_toNat _ _, rfl, rfl, rfl⟩
  rw [Nat.add_comm, steps_cons hs hready]
  exact steps_pass rfl rfl

/-! Every event -/

/-- An engine step leaves the drop counter alone (R109). -/
theorem engineStep_rxDrops {s t : State} (h : engineStep s = .next t) : t.fifo.rxDrops = s.fifo.rxDrops := by
  cases engineStep_next h with
  | pop c rest i _ _ _ hx => rw [(exec_done hx).fifo, timeoutCheck_fifo, popped]
  | byte c i _ _ hx => rw [(exec_done hx).fifo, timeoutCheck_fifo]
  | idle _ e => subst e; rfl
  | csAssert _ e => subst e; rfl
  | released _ _ e => subst e; rfl
  | failed _ e => subst e; rfl
  | put _ e => subst e; rfl
  | enable _ e => subst e; rfl
  | retry _ e => subst e; rfl

/-- RXA's step counts a byte it drops, and no other (R94, R110). -/
theorem rxDrainStep_rxDrops (s : State) : (rxDrainStep s).fifo.rxDrops =
    if s.fifo.rxPass ≠ [] ∧ s.cfg.cRx ≤ s.fifo.rxq.length then satInc32 s.fifo.rxDrops else s.fifo.rxDrops := by
  rcases rxDrainStep_cases s with ⟨hp, e⟩ | ⟨b, rest, hp, hl, e⟩ | ⟨b, rest, hp, hl, e⟩
  · rw [e, if_neg fun h => h.1 hp]
  · rw [e, if_neg fun h => hl.not_ge h.2]
  · rw [e, if_pos ⟨by simp [hp], hl⟩]

/-- Outside RXA's steps and a power-on reset no event writes the drop counter (R109, R110). -/
theorem fire_rxDrops {s t : State} {turn : Turn} (hr : ∀ u, turn ≠ .reset u) (hx : turn ≠ .rxa)
    (h : fire turn s = .next t) : t.fifo.rxDrops = s.fifo.rxDrops := by
  cases turn with
  | rxa => exact absurd rfl hx
  | eng => exact engineStep_rxDrops h
  | hostRx bs =>
    rw [← next_inj h]
    rcases rxReady_cases bs s with e | ⟨_, e⟩ <;> rw [e]
  | hostTx =>
    rw [← next_inj h]
    rcases txClaim_cases s with e | ⟨_, _, _, e⟩ <;> rw [e]
  | txa k => rcases txCommit_next h with ⟨_, rfl⟩ | ⟨_, _, _, rfl⟩ <;> rfl
  | spiDev ok data => rcases spiAnswer_next h with rfl | ⟨_, _, rfl⟩ | ⟨_, _, _, rfl⟩ <;> rfl
  | clk v =>
    rw [← next_inj h]
    rcases clockStep_cases v s with e | ⟨_, e⟩ <;> rw [e]
  | reset u => exact absurd rfl (hr u)

/-- Settles O21: RXA's step alone writes the counter, and counts what it drops. -/
theorem dropCounterIsMonotone : Obligations.DropCounterIsMonotone := by
  intro s t turn hr h
  by_cases hx : turn = .rxa
  · subst hx
    rw [← next_inj h, rxDrainStep_rxDrops, apply_ite BitVec.toNat, satInc32_toNat]
    simp only [true_and]
  · rw [fire_rxDrops hr hx h, if_neg fun c => hx c.1]

/-! What the interrupt agents leave alone -/

/-- What RXA leaves alone: all but its queue and the receive side's histories (R95, R109, R178). -/
def OutsideReceive (s t : State) : Prop :=
  t.cfg = s.cfg ∧ t.ses = s.ses ∧ t.spi = s.spi ∧ t.eng = s.eng ∧ t.engOut = s.engOut ∧ t.clk = s.clk ∧
  t.obs.wire = s.obs.wire ∧ t.obs.spi = s.obs.spi ∧ t.obs.sent = s.obs.sent ∧
  t.fifo = { s.fifo with rxq := t.fifo.rxq, rxDrops := t.fifo.rxDrops, rxPass := t.fifo.rxPass }

/-- What TXA leaves alone: all but the ring's registers and the wire (R109, R178). -/
def OutsideTransmit (s t : State) : Prop :=
  t.cfg = s.cfg ∧ t.ses = s.ses ∧ t.spi = s.spi ∧ t.eng = s.eng ∧ t.engOut = s.engOut ∧ t.clk = s.clk ∧
  t.obs = { s.obs with wire := t.obs.wire } ∧ t.fifo.txm = s.fifo.txm ∧ t.fifo.rxq = s.fifo.rxq ∧
  t.fifo.rxDrops = s.fifo.rxDrops ∧ t.fifo.rxPass = s.fifo.rxPass

theorem rxReady_outside (bs : List Byte) (s : State) : OutsideReceive s (rxReady bs s) := by
  rcases rxReady_cases bs s with e | ⟨_, e⟩ <;> rw [e] <;> exact ⟨rfl, rfl, rfl, rfl, rfl, rfl, rfl, rfl, rfl, rfl⟩

theorem rxDrainStep_outside (s : State) : OutsideReceive s (rxDrainStep s) := by
  rcases rxDrainStep_cases s with ⟨_, e⟩ | ⟨_, _, _, _, e⟩ | ⟨_, _, _, _, e⟩ <;> rw [e] <;>
    exact ⟨rfl, rfl, rfl, rfl, rfl, rfl, rfl, rfl, rfl, rfl⟩

theorem txClaim_outside (s : State) : OutsideTransmit s (txClaim s) := by
  rcases txClaim_cases s with e | ⟨_, _, _, e⟩ <;> rw [e] <;> exact ⟨rfl, rfl, rfl, rfl, rfl, rfl, rfl, rfl, rfl, rfl, rfl⟩

theorem txCommit_outside {k : Nat} {s t : State} (h : txCommit k s = .next t) : OutsideTransmit s t := by
  rcases txCommit_next h with ⟨_, rfl⟩ | ⟨_, _, _, rfl⟩ <;> exact ⟨rfl, rfl, rfl, rfl, rfl, rfl, rfl, rfl, rfl, rfl, rfl⟩

/-- Settles O22: each of the four events, by what its operation leaves alone. -/
theorem interruptAgentsTouchTheirQueueOnly : Obligations.InterruptAgentsTouchTheirQueueOnly := by
  refine fun s t turn h => ⟨?_, ?_⟩
  · rintro (rfl | ⟨bs, rfl⟩)
    · exact next_inj h ▸ rxDrainStep_outside s
    · exact next_inj h ▸ rxReady_outside bs s
  · rintro (rfl | ⟨k, rfl⟩)
    · exact next_inj h ▸ txClaim_outside s
    · exact txCommit_outside h

end Sys2Proof.Machine
end

section
/-! The transmit ring, operation by operation: `Send`'s put, enable and wait (R100–R102), TXA's claim and commit (R103, R104, R106), and that
no bytes are stranded in it (R107). -/

namespace Sys2Proof.Machine

/-! `Send` -/

/-- The put writes only the slots right behind the ring's contents (R100). -/
theorem read_txPut_other {s : State} {a : Nat}
    (h : ∀ j, j < putCount s → (s.fifo.txRd + s.fifo.txCount + j) % s.cfg.cTx ≠ a) :
    (txPut s).fifo.txm.read a = s.fifo.txm.read a :=
  Memory.read_ringWrite_other _ _ _ _ _ fun j hj => h j (hj.trans_le (List.length_take_le _ _))

/-- The engine's turn at the put (R100). -/
theorem fire_eng_put {s : State} (he : s.eng = .send .put) : fire .eng s = .next (txPut s) := by
  rw [fire, engineStep, he]

/-- The engine's turn at the enable (R101). -/
theorem fire_eng_enable {s : State} (he : s.eng = .send .ie) : fire .eng s = .next
    { s with fifo.txIe := true, eng := if s.engOut = [] then .wait else .send .wait } := by
  rw [fire, engineStep, he, ← txEnable_eq]

/-- The engine's turn at the wait (R102). -/
theorem fire_eng_retry {s : State} (he : s.eng = .send .wait) : fire .eng s = .next
    { s with fifo.txSpace := false, eng := .send .put } := by
  rw [fire, engineStep, he, ← txWait_eq]

/-- Settles O24: the put's share of `ENG_OUT` lands behind the contents, and nowhere else. -/
theorem putAppendsWhatFits : Obligations.PutAppendsWhatFits :=
  fun s he hc => ⟨txPut s, fire_eng_put he, txContents_txPut hc, rfl, rfl, fun _ => read_txPut_other, rfl, rfl⟩

/-- Settles O25: `Send`'s other two turns. -/
theorem sendLoopSteps : Obligations.SendLoopSteps := fun _ => ⟨fire_eng_enable, fire_eng_retry⟩

/-- With room for all of `ENG_OUT` the put takes it whole (R100). -/
theorem putCount_of_room {s : State} (h : s.fifo.txCount + s.engOut.length ≤ s.cfg.cTx) : putCount s = s.engOut.length :=
  Nat.min_eq_left (by omega)

/-- Settles O26: the put takes all of `ENG_OUT`, so the enable that follows it returns to WAIT. -/
theorem sendReturnsWhenThereIsRoom : Obligations.SendReturnsWhenThereIsRoom := by
  intro s ts he hs hroom
  have hall : putCount s = s.engOut.length := putCount_of_room hroom
  have hput : (txPut s).engOut = [] := by rw [txPut, hall, List.drop_length]
  have hcontents : (txPut s).fifo.txContents s.cfg.cTx = s.fifo.txContents s.cfg.cTx ++ s.engOut := by
    rw [txContents_txPut (by omega), hall, List.take_length]
  let u : State := { s with turns := .eng :: ts }
  let v : State := { txPut s with turns := ts }
  have first : fire .eng u = .next (txPut u) := fire_eng_put he
  have second : fire .eng v = .next { v with fifo.txIe := true, eng := .wait } := by
    rw [fire_eng_enable (s := v) rfl, if_pos hput]
  refine ⟨{ v with fifo.txIe := true, eng := .wait }, ?_, rfl, hput, rfl, rfl, hcontents, rfl, rfl, rfl⟩
  rw [steps_cons hs first, steps_cons (s := txPut u) rfl second, steps]

/-! TXA -/

/-- The claim, where it is enabled (R103). -/
theorem txClaim_eq {s : State} (hie : s.fifo.txIe = true) (hc : s.fifo.txClaim = 0) (ho : s.fifo.txOpen = false) :
    txClaim s = { s with fifo.txClaim := min s.fifo.txCount (s.cfg.cTx - s.fifo.txRd), fifo.txOpen := true } :=
  if_pos ⟨hie, hc, ho⟩

/-- Settles O27: the claim's condition and its failure. -/
theorem claimTakesContiguousChunk : Obligations.ClaimTakesContiguousChunk := by
  refine fun s => ⟨fun hie hc ho => by rw [fire, txClaim_eq hie hc ho], fun hoff => ?_⟩
  rw [fire, txClaim, if_neg]
  rintro ⟨hie, hc, ho⟩
  rcases hoff with h | h | h
  · cases hie.symm.trans h
  · exact h hc
  · cases ho.symm.trans h

/-- A commit of nothing leaves the signal, any other sets it (R104). -/
theorem spaceAfter_eq (k : Nat) (txSpace : Bool) : spaceAfter k txSpace = if k = 0 then txSpace else true := by
  rcases k.eq_zero_or_pos with rfl | hk
  · rfl
  · rw [spaceAfter, if_pos hk, if_neg hk.ne']

/-- A commit of all the ring holds turns the interrupt off, any other leaves it (R104). -/
theorem ieAfter_sub {k count : Nat} (hk : k ≤ count) (txIe : Bool) :
    ieAfter (count - k) txIe = if count = k then false else txIe :=
  if_congr (by omega) rfl rfl

/-- Settles O28: the chunk is the first `k` bytes of the contents, and what is left of the ring is the rest. -/
theorem commitSendsAndFrees : Obligations.CommitSendsAndFrees := by
  intro s k ho hk hcount hroom
  have hlen : (s.fifo.txm.readList s.fifo.txRd k).length = k := Memory.readList_length _ _ _
  have hcontents := s.fifo.readList_append_txContents (hk.trans hcount) (by omega : s.fifo.txRd + k ≤ s.cfg.cTx)
  refine ⟨_, txCommit_eq ho hk (by omega), ?_, ?_, ?_, rfl⟩
  · rw [← hcontents, List.take_left' hlen]
  · rw [← hcontents, List.drop_left' hlen]; rfl
  · rw [spaceAfter_eq, ieAfter_sub (hk.trans hcount)]

/-- The interrupt on an empty ring claims no byte (R106). -/
theorem txClaim_empty {s : State} (hcount : s.fifo.txCount = 0) (hie : s.fifo.txIe = true) (hclaim : s.fifo.txClaim = 0)
    (hopen : s.fifo.txOpen = false) : txClaim s = { s with fifo.txOpen := true } := by
  rw [txClaim_eq hie hclaim hopen, hcount, Nat.zero_min, ← hclaim]

/-- The commit of nothing on an empty ring turns the interrupt off (R106). -/
theorem txCommit_empty {s : State} (hcount : s.fifo.txCount = 0) (hclaim : s.fifo.txClaim = 0)
    (hopen : s.fifo.txOpen = true) (hrd : s.fifo.txRd < s.cfg.cTx) :
    txCommit 0 s = .next { s with fifo.txIe := false, fifo.txOpen := false } := by
  rw [txCommit_eq hopen (Nat.zero_le _) hrd.le, Memory.readList, List.append_nil, Nat.add_zero, Nat.mod_eq_of_lt hrd,
    Nat.sub_zero, spaceAfter_eq, if_pos rfl, ieAfter, if_pos hcount, ← hclaim]

/-- Settles O29: on an empty ring the claim takes no byte, and the commit of none turns the interrupt off. -/
theorem emptyInterruptTurnsItselfOff : Obligations.EmptyInterruptTurnsItselfOff := by
  intro s ts hie hcount hclaim hopen hrd hs
  let u : State := { s with turns := .txa 0 :: ts, fifo.txOpen := true }
  have claimed : fire .hostTx { s with turns := .txa 0 :: ts } = .next u :=
    congrArg _ (txClaim_empty (s := { s with turns := .txa 0 :: ts }) hcount hie hclaim hopen)
  have committed : fire (.txa 0) { u with turns := ts } = _ :=
    txCommit_empty (s := { u with turns := ts }) hcount hclaim rfl hrd
  rw [steps_cons hs claimed, steps_cons (s := u) rfl committed, steps, ← hopen]

/-! No stranded bytes -/

/-- Outside the step that sets it, the interrupt is already on when the ring holds bytes (R107). -/
theorem State.NotStranded.interrupt_on {s : State} (law : s.NotStranded) (he : s.eng ≠ .send .ie) (hc : 0 < s.fifo.txCount) :
    s.fifo.txIe = true := (law hc).resolve_right he

theorem powerOn_notStranded (cfg : Config) (u : PowerOn) (clk : U64) (turns : List Turn) (drawn : Nat) :
    (State.powerOn cfg u clk turns drawn).NotStranded := fun h => absurd h (Nat.lt_irrefl 0)

/-- From any place but the enable, what leaves the ring's count and the interrupt as they are keeps the law. -/
theorem State.NotStranded.of_kept {s t : State} (law : s.NotStranded) (he : s.eng ≠ .send .ie)
    (hc : t.fifo.txCount = s.fifo.txCount) (hie : t.fifo.txIe = s.fifo.txIe) : t.NotStranded :=
  fun h => .inl (hie.trans (law.interrupt_on he (hc ▸ h)))

/-- The engine's steps: only the put adds bytes, and the enable follows it at once (R101, R107). -/
theorem engineStep_notStranded {s t : State} (law : s.NotStranded) (h : engineStep s = .next t) : t.NotStranded := by
  cases engineStep_next h with
  | idle _ e => exact e ▸ law
  | pop c rest i he _ _ hx =>
    have hf : t.fifo = { s.fifo with rxq := rest } := by rw [(exec_done hx).fifo, timeoutCheck_fifo, popped]
    exact law.of_kept (by simp [he]) (by rw [hf]) (by rw [hf])
  | byte c i he _ hx =>
    have hf : t.fifo = s.fifo := by rw [(exec_done hx).fifo, timeoutCheck_fifo]
    exact law.of_kept (by simp [he]) (by rw [hf]) (by rw [hf])
  | csAssert he e => subst e; exact law.of_kept (by simp [he]) rfl rfl
  | released he _ e => subst e; exact law.of_kept (by simp [he]) rfl rfl
  | failed he e => subst e; exact law.of_kept (by simp [he]) rfl rfl
  | put _ e => subst e; exact fun _ => .inr rfl
  | enable _ e => subst e; exact fun _ => .inl rfl
  | retry he e => subst e; exact law.of_kept (by simp [he]) rfl rfl

/-- A commit that leaves bytes in the ring leaves the interrupt as it was (R104). -/
theorem txCommit_notStranded {k : Nat} {s t : State} (law : s.NotStranded) (h : txCommit k s = .next t) : t.NotStranded := by
  rcases txCommit_next h with ⟨_, rfl⟩ | ⟨_, _, _, rfl⟩
  · exact law
  · intro hleft
    have hleft : 0 < s.fifo.txCount - k := hleft
    have hie : ieAfter (s.fifo.txCount - k) s.fifo.txIe = s.fifo.txIe := if_neg (by omega)
    exact (law (by omega)).imp_left hie.trans

/-- Every event keeps the law: the engine's, the commit and the reset write the count or the interrupt, the others write neither. -/
theorem fire_notStranded {s t : State} {turn : Turn} (law : s.NotStranded) (h : fire turn s = .next t) : t.NotStranded := by
  cases turn with
  | eng => exact engineStep_notStranded law h
  | txa k => exact txCommit_notStranded law h
  | hostTx =>
    rw [← next_inj h]
    rcases txClaim_cases s with e | ⟨_, _, _, e⟩ <;> rw [e] <;> exact law
  | hostRx bs =>
    rw [← next_inj h]
    rcases rxReady_cases bs s with e | ⟨_, e⟩ <;> rw [e] <;> exact law
  | rxa =>
    rw [← next_inj h]
    rcases rxDrainStep_cases s with ⟨_, e⟩ | ⟨_, _, _, _, e⟩ | ⟨_, _, _, _, e⟩ <;> rw [e] <;> exact law
  | spiDev ok data =>
    rcases spiAnswer_next h with rfl | ⟨he, _, rfl⟩ | ⟨he, _, _, rfl⟩
    · exact law
    · exact law.of_kept (by simp [he]) rfl rfl
    · exact law.of_kept (by simp [he]) rfl rfl
  | clk v =>
    rw [← next_inj h]
    rcases clockStep_cases v s with e | ⟨_, e⟩ <;> rw [e] <;> exact law
  | reset u => exact next_inj h ▸ powerOn_notStranded s.cfg u s.clk s.turns s.drawn

/-- NotStranded does not speak of the schedule, so a step keeps it as its event does. -/
theorem step_notStranded {s t : State} (law : s.NotStranded) (h : step s = .next t) : t.NotStranded := by
  obtain ⟨turn, ts, n, hfire⟩ := step_next_fire h
  exact fire_notStranded (s := { s with turns := ts, drawn := n }) law hfire

theorem reachable_notStranded {s : State} (h : Reachable s) : s.NotStranded := by
  induction h with
  | powerOn _ u clk turns drawn => exact powerOn_notStranded _ u clk turns drawn
  | step _ e ih => exact step_notStranded ih e

/-- Settles O17: the law holds at power-on and every step keeps it; outside `Send` no enable is to come. -/
theorem noStrandedBytes : Obligations.NoStrandedBytes :=
  ⟨fun _ _ => step_notStranded, fun _ h he _ hc => (reachable_notStranded h).interrupt_on (he .ie) hc⟩

end Sys2Proof.Machine
end

section
/-! The waiting engine: with nothing received it has no step, and a received byte runs as the instruction the decoder reads (R97, R98, R113,
R114). -/

namespace Sys2Proof.Machine

/-- Settles O34: `RX_POP` is not enabled (R98). -/
theorem idleEngineWaits : Obligations.IdleEngineWaits := fun _ he hq => engineStep_idle he hq

/-- A byte the decoder reads nothing from is the model's fault (log entry 13). -/
theorem onByte_fault {c : Byte} {s : State} {why : DecodeReject} (h : decodeByte c (timeoutCheck s) = .error why) :
    onByte c s = .fault (.activeCmd why) := by
  unfold onByte
  rw [h]

/-- The timeout check, written out (R114). -/
theorem timeoutCheck_eq (s : State) : timeoutCheck s =
    if s.ses.phase = .awaitData ∧ s.cfg.tData.toNat < s.clk.toNat - s.ses.lastAct.toNat then
      { s with
        ses.phase := .awaitCommand
        ses.byteCnt := 0#32
        obs.errors := s.obs.errors ++ [.idleTimeout]
        obs.log := s.obs.log ++ [.dataTimeout] }
    else s := by
  rcases timeoutCheck_cases s with ⟨hp, hlate, e⟩ | ⟨hnot, e⟩
  · rw [e, if_pos ⟨hp, hlate⟩]
  · rw [e, if_neg hnot]

/-- Settles O33: the step pops the byte and runs `on_byte`, which is `exec` of what the decoder reads after the timeout check. -/
theorem stepRunsTheDecodedInstruction : Obligations.StepRunsTheDecodedInstruction := by
  intro s ts c rest hs he hq p checked hp hchecked
  have hstep : step s = onByte c p := by
    rw [step_cons hs, fire, engineStep_pop (s := { s with turns := ts }) he hq, hp, popped]
  have hcheck : checked = timeoutCheck p := by rw [hchecked, timeoutCheck_eq, hp]
  rw [hstep, hcheck]
  exact ⟨fun _ => onByte_eq, fun _ => onByte_fault⟩

end Sys2Proof.Machine
end

section
/-! The data-phase timeout (R114): when a byte is read as a command, and when as a data byte. -/

namespace Sys2Proof.Machine

/-- After the check the phase is AwaitCommand: it was before, or the timeout has reset the session (R114). -/
theorem timeoutCheck_phase_awaitCommand {s : State}
    (h : s.ses.phase = .awaitCommand ∨ s.cfg.tData.toNat < s.clk.toNat - s.ses.lastAct.toNat) :
    (timeoutCheck s).ses.phase = .awaitCommand := by
  cases hp : s.ses.phase with
  | awaitCommand => rw [timeoutCheck_of (by simp [hp]), hp]
  | awaitData =>
    have late : s.cfg.tData.toNat < s.clk.toNat - s.ses.lastAct.toNat := h.resolve_left (by simp [hp])
    rw [timeoutCheck_eq, if_pos ⟨hp, late⟩]

/-- A byte that the check leaves in AwaitCommand is executed as a command byte (R75). -/
theorem onByte_command {c : Byte} {s : State} (h : (timeoutCheck s).ses.phase = .awaitCommand) :
    onByte c s = exec (decodeCommand s.cfg.codes c) (timeoutCheck s) :=
  onByte_eq (by rw [decodeByte, h, timeoutCheck_cfg, decode])

/-- A byte in time in AwaitData is executed as a data byte of `ACTIVE_CMD` (R75, R136). -/
theorem onByte_data {c : Byte} {s : State} {i : Instr} (hp : s.ses.phase = .awaitData)
    (inTime : s.clk.toNat - s.ses.lastAct.toNat ≤ s.cfg.tData.toNat)
    (hi : decodeData s.cfg.codes s.ses.activeCmd c = .ok i) : onByte c s = exec i s := by
  have kept : timeoutCheck s = s := timeoutCheck_of fun late => by omega
  have read : decodeByte c (timeoutCheck s) = .ok i := by rw [kept, decodeByte, hp, decode, hi]
  rw [onByte_eq read, kept]

/-- Settles O35: the phase after the check picks the decoder's mode, and the check acts only past `T_DATA`. -/
theorem timeoutReadsByteAsCommand : Obligations.TimeoutReadsByteAsCommand := by
  refine fun s c => ⟨fun hp _ late => ?_, fun hp _ inTime _ hi => onByte_data hp inTime hi, fun hp => ?_⟩
  · rw [onByte_command (timeoutCheck_phase_awaitCommand (.inr late)), timeoutCheck_eq, if_pos ⟨hp, late⟩]
  · rw [onByte_command (timeoutCheck_phase_awaitCommand (.inl hp)), timeoutCheck_of (by simp [hp])]

end Sys2Proof.Machine
end

section
/-! The command bytes: an immediate command or an unrecognized code answers whole and leaves the rest alone (R116–R118, R120–R129, R133), and
a deferred command's code enters its data phase (R119). -/

namespace Sys2Proof.Machine
open Sys2Proof.Claims Sys2Proof.ByteOrder

/-! What R116–R118 leave behind -/

/-- `s` with `BYTE_CNT = 0`, `resp` in `WB` from index 0 and handed to `Send`, and `errs` raised (R116–R118). -/
def answered (resp : List Byte) (errs : List ErrorClass) (s : State) : State :=
  sendStart resp { s with
    ses.byteCnt := 0#32
    ses.wb := s.ses.wb.writeList 0 resp
    obs.errors := s.obs.errors ++ errs }

theorem answered_immediate (resp : List Byte) (errs : List ErrorClass) (s : State) :
    Immediate s (answered resp errs s) resp errs where
  answers := ⟨rfl, rfl, rfl, rfl⟩
  outside := ⟨rfl, rfl, rfl, rfl, rfl, rfl, rfl, rfl, rfl, rfl, rfl⟩
  byteCnt := rfl
  phase := rfl
  activeCmd := rfl
  lastAct := rfl
  lengths := ⟨rfl, rfl⟩
  wb := Memory.read_writeList resp s.ses.wb 0

/-- An instruction whose meaning is the response `b :: bs` answers it: R7's least `W_CAP` holds every response of R120–R129. -/
theorem exec_immediate {i : Instr} {s : State} {b : Byte} {bs : List Byte} (hw : s.cfg.Wf)
    (meaning : exec i s = immediate (b :: bs) s) (hl : bs.length < 4096) :
    ∃ t, exec i s = .next t ∧ Immediate s t (b :: bs) [] := by
  have fits : (b :: bs).length ≤ s.cfg.wCap := Nat.le_trans hl hw.wCap_ge
  refine ⟨answered (b :: bs) [] s, ?_, answered_immediate _ _ s⟩
  rw [meaning, immediate_eq (List.cons_ne_nil b bs) fits, answered, List.append_nil]

/-! The commands, by their responses -/

/-- The answer of SYNCNOP (R128). -/
theorem exec_syncnop {s : State} (hw : s.cfg.Wf) :
    ∃ t, exec .syncnop s = .next t ∧ Immediate s t [s.cfg.nak, s.cfg.ack] [] :=
  exec_immediate hw rfl (by simp)

/-- Settles O38: the three responses fit in `WB`. -/
theorem nopBustypeSyncnopAnswer : Obligations.NopBustypeSyncnopAnswer := fun _ hw =>
  ⟨exec_immediate hw rfl (by simp), exec_immediate hw rfl (by simp), exec_syncnop hw⟩

/-- An instruction that answers ACK and `LE16` of a value answers the value's two bytes by division (R10). -/
theorem exec_word {i : Instr} {s : State} {v : U16} (hw : s.cfg.Wf)
    (meaning : exec i s = immediate (s.cfg.ack :: le16 v) s) :
    ∃ t, exec i s = .next t ∧ Immediate s t (s.cfg.ack :: split 2 v.toNat) [] := by
  rw [← le16_eq_split]
  exact exec_immediate hw meaning (by simp)

/-- Settles O39: each answers `LE16` of its constant. -/
theorem sixteenBitQueriesAnswer : Obligations.SixteenBitQueriesAnswer := fun _ hw =>
  ⟨exec_word hw rfl, exec_word hw rfl, exec_word hw rfl⟩

/-- A 16-bit value with a zero byte above it is the value as a three-byte field (R83). -/
theorem le16_zero_eq_split (v : U16) : le16 v ++ [0x00#8] = split 3 v.toNat := by
  have high : v.toNat / 65536 = 0 := Nat.div_eq_of_lt v.isLt
  rw [le16_eq_split]
  simp [split, List.range_succ, high]

/-- An instruction that answers ACK, `LE16` of a value and a zero byte answers the value's three bytes by division. -/
theorem exec_maxLength {i : Instr} {s : State} {v : U16} (hw : s.cfg.Wf)
    (meaning : exec i s = immediate (s.cfg.ack :: (le16 v ++ [0x00#8])) s) :
    ∃ t, exec i s = .next t ∧ Immediate s t (s.cfg.ack :: split 3 v.toNat) [] := by
  rw [← le16_zero_eq_split]
  exact exec_immediate hw meaning (by simp)

/-- Settles O40: each answers its constant with a zero high byte. -/
theorem maxLengthQueriesAnswer : Obligations.MaxLengthQueriesAnswer := fun _ hw =>
  ⟨exec_maxLength hw rfl, exec_maxLength hw rfl⟩

/-- Settles O41: the payloads are `cmdMap`, whose bits `cmdMapByte_getLsbD` reads, and `P_PGMNAME`. -/
theorem cmdmapAndPgmnameAnswer : Obligations.CmdmapAndPgmnameAnswer := by
  intro s hw
  constructor
  · obtain ⟨t, ht, answer⟩ := exec_immediate (i := .qCmdmap) hw rfl (by simp)
    refine ⟨t, cmdMap s.cfg.codes, ht, answer, cmdMap_length _, fun k => ?_⟩
    have hk : k.toNat / 8 < 32 := by have := k.isLt; omega
    rw [cmdMap_getD hk, cmdMapByte_getLsbD]
  · obtain ⟨t, ht, answer⟩ := exec_immediate (i := .qPgmname) hw rfl (by simp)
    exact ⟨t, s.cfg.pPgmname.toList, ht, answer, by simp, fun j h => by simp [h]⟩

/-- Settles O42: `NAK` fits in `WB`, and the violation's action sends it. -/
theorem unrecognizedCodeAnswersNak : Obligations.UnrecognizedCodeAnswersNak := fun s code hw =>
  ⟨answered [s.cfg.nak] [.protocolViolation] s, execUnrecognized_eq (code := code) (Nat.le_trans (by decide) hw.wCap_ge),
    answered_immediate _ _ s⟩

/-- Settles O43: the check leaves the sync byte a command byte, which distinct codes read as SYNCNOP. -/
theorem syncAnswersInAwaitCommand : Obligations.SyncAnswersInAwaitCommand := by
  intro s hw h
  have command := timeoutCheck_phase_awaitCommand h
  have read : decodeCommand s.cfg.codes s.cfg.codes.syncnop = .syncnop :=
    decodeCommand_encode (i := .syncnop) hw.codes_nodup rfl rfl
  obtain ⟨t, ht, answer⟩ := exec_syncnop (s := timeoutCheck s) (by simpa using hw)
  refine ⟨t, by rw [onByte_command command, read, ht], answer.answers.eng, ?_, answer.phase.trans command, answer.byteCnt⟩
  simpa using answer.answers.out

/-! Dispatch -/

/-- The dispatch, written out (R119). -/
theorem deferredDispatch_eq (c : Byte) (s : State) : deferredDispatch c s = .next { s with
    eng := .wait
    ses := { s.ses with phase := .awaitData, activeCmd := c, byteCnt := 0#32, lastAct := s.clk } } := rfl

/-- Settles O44: the three code bytes are dispatches. -/
theorem deferredDispatchEntersAwaitData : Obligations.DeferredDispatchEntersAwaitData := fun s =>
  ⟨deferredDispatch_eq _ s, deferredDispatch_eq _ s, deferredDispatch_eq _ s⟩

end Sys2Proof.Machine
end

section
/-! The data phase, byte by byte: the guard (R138), S_BUSTYPE's one byte (R139), O_SPIOP's header and payload (R140–R143), and the four bytes of
S_SPI_FREQ (R147, R148). -/

namespace Sys2Proof.Machine
open Sys2Proof.Claims

/-! What every data byte does -/

/-- `s` with the activity stamp of a data byte (R137). -/
def stamped (s : State) : State := { s with ses.lastAct := s.clk }

/-- Below the guard the handler runs on the stamped state (R137, R138). -/
theorem dataByte_stamped {handler : State → Res} {s : State} (h : s.ses.byteCnt.toNat < s.cfg.wCap) :
    dataByte handler s = handler (stamped s) := dataByte_eq h

theorem exec_busType_data {s : State} (h : s.ses.byteCnt.toNat < s.cfg.wCap) (b : Byte) :
    exec (.sBustype (.data b)) s = busTypeData b (stamped s) := dataByte_stamped h

/-- The first six data bytes of O_SPIOP are its header (R140). -/
theorem exec_spiop_header {s : State} (hw : s.cfg.Wf) (h : s.ses.byteCnt.toNat < 6) (c : Byte) :
    exec (.oSpiop (.data c)) s = headerByte c (stamped s) :=
  (dataByte_stamped (by have := hw.wCap_ge; omega)).trans (if_pos h)

/-- Its later data bytes are payload (R140). -/
theorem exec_spiop_payload {s : State} (h : 6 ≤ s.ses.byteCnt.toNat) (hl : s.ses.byteCnt.toNat < s.cfg.wCap) (c : Byte) :
    exec (.oSpiop (.data c)) s = payloadByte c (stamped s) :=
  (dataByte_stamped hl).trans (if_neg h.not_gt)

theorem exec_freq_data {s : State} (h : s.ses.byteCnt.toNat < s.cfg.wCap) (c : Byte) :
    exec (.sSpiFreq (.data c)) s = freqData c (stamped s) := dataByte_stamped h

theorem stored_writeList {s t : State} {i : Nat} {bs : List Byte} (h : t.ses.wb = s.ses.wb.writeList i bs) :
    Stored s t i bs := fun a => by rw [h]; exact Memory.read_writeList bs s.ses.wb i a

/-- The sessions that a data byte of `s` leaves when it only counts (R137); what it stores, and the lengths, are left open. -/
structure Counted (s : State) (ses : Session) : Prop where
  phase : ses.phase = s.ses.phase
  byteCnt : ses.byteCnt = s.ses.byteCnt + 1#32
  lastAct : ses.lastAct = s.clk
  activeCmd : ses.activeCmd = s.ses.activeCmd

theorem Counted.accumulates {s : State} {ses : Session} (h : Counted s ses) :
    Accumulates s { s with ses := ses, eng := .wait } :=
  ⟨⟨rfl, rfl, rfl, rfl⟩, h.phase, h.byteCnt, h.lastAct, h.activeCmd⟩

/-- Outside the session and the engine nothing changes while a frame is gathered. -/
theorem outside_session (s : State) (ses : Session) (eng : Eng) : Outside s { s with ses := ses, eng := eng } :=
  ⟨rfl, rfl, rfl, rfl, rfl, rfl, rfl, rfl, rfl, rfl, rfl⟩

/-- `s` with its session as `ses` leaves it, `errs` raised and `resp` handed to `Send`: how every data phase ends but S_SPI_FREQ's good one
(R137, R164). -/
def ended (resp : List Byte) (errs : List ErrorClass) (ses : Session) (s : State) : State :=
  sendStart resp { s with ses := ses, obs.errors := s.obs.errors ++ errs }

theorem outside_ended (resp : List Byte) (errs : List ErrorClass) (ses : Session) (s : State) :
    Outside s (ended resp errs ses s) :=
  ⟨rfl, rfl, rfl, rfl, rfl, rfl, rfl, rfl, rfl, rfl, rfl⟩

/-- It completes the data phase when the session is reset, stamped, and still of the same command (R45, R137). -/
theorem completes_ended (resp : List Byte) (errs : List ErrorClass) {ses : Session} {s : State} (phase : ses.phase = .awaitCommand)
    (byteCnt : ses.byteCnt = 0#32) (lastAct : ses.lastAct = s.clk) (activeCmd : ses.activeCmd = s.ses.activeCmd) :
    Completes s (ended resp errs ses s) resp errs :=
  ⟨⟨rfl, rfl, rfl, rfl⟩, phase, byteCnt, lastAct, activeCmd⟩

/-! The guard -/

/-- The guard, whatever the handler is (R138, R166). -/
theorem dataByte_guard_trips {handler : State → Res} {s : State} (h : s.cfg.wCap ≤ s.ses.byteCnt.toNat) :
    ∃ t, dataByte handler s = .next t ∧ Completes s t [s.cfg.nak] [.overflowGuard] ∧ Outside s t ∧ LengthsKept s t ∧
      t.ses.wb = s.ses.wb :=
  ⟨ended [s.cfg.nak] [.overflowGuard] (sessionReset (stamped s)).ses s, dataByte_guard h, completes_ended _ _ rfl rfl rfl rfl,
    outside_ended _ _ _ s, ⟨rfl, rfl⟩, rfl⟩

/-- Settles O45: the guard stands before every handler. -/
theorem overflowGuardTrips : Obligations.OverflowGuardTrips := by
  intro s c i h hi
  simp only [List.mem_cons, List.not_mem_nil, or_false] at hi
  rcases hi with rfl | rfl | rfl
  · exact dataByte_guard_trips (handler := busTypeData c) h
  · exact dataByte_guard_trips (handler := spiOpData c) h
  · exact dataByte_guard_trips (handler := freqData c) h

/-! S_BUSTYPE -/

/-- The one accepted value (R139). -/
theorem busTypeData_accepted {b : Byte} {s : State} (h : b = s.cfg.bustypeSpi) :
    busTypeData b s = .next (sendStart [s.cfg.ack] (sessionReset s)) := if_pos (by simp [busTypeMatches, h])

/-- Any other value (R139). -/
theorem busTypeData_refused {b : Byte} {s : State} (h : b ≠ s.cfg.bustypeSpi) :
    busTypeData b s = .next (raise .protocolViolation (sessionReset s)) := if_neg (by simp [busTypeMatches, h])

/-- Settles O46: the byte is compared, after the session is reset. -/
theorem bustypeDataByteCompletes : Obligations.BustypeDataByteCompletes := by
  intro s b hl
  let ses := (sessionReset (stamped s)).ses
  rw [exec_busType_data hl]
  by_cases hb : b = s.cfg.bustypeSpi
  · refine ⟨ended [s.cfg.ack] [] ses s, ?_, outside_ended _ _ _ s, ⟨rfl, rfl⟩, rfl, fun _ => completes_ended _ _ rfl rfl rfl rfl,
      fun h => absurd hb h⟩
    rw [busTypeData_accepted (s := stamped s) hb, ended, List.append_nil]
    rfl
  · exact ⟨ended [s.cfg.nak] [.protocolViolation] ses s, busTypeData_refused (s := stamped s) hb, outside_ended _ _ _ s, ⟨rfl, rfl⟩, rfl,
      fun h => absurd h hb, fun _ => completes_ended _ _ rfl rfl rfl rfl⟩

/-! O_SPIOP -/

/-- `Execute` after the data byte that counts into `ses`: each of its three ways is the statement's (R143, R156). -/
theorem Counted.executes {s : State} {ses : Session} (h : Counted s ses) :
    ∃ t, execute { s with ses := ses } = .next t ∧ Executes s t ∧ Outside s t ∧ t.ses.wb = ses.wb ∧
      t.ses.writeLen = ses.writeLen ∧ t.ses.readLen = ses.readLen := by
  let reset := (sessionReset { s with ses := ses }).ses
  have refused (e : ErrorClass) : Completes s (ended [s.cfg.nak] [e] reset s) [s.cfg.nak] [e] :=
    completes_ended _ _ rfl rfl h.lastAct h.activeCmd
  rcases execute_cases { s with ses := ses } with ⟨hr, e⟩ | ⟨hr, hw0, hr0, e⟩ | ⟨hr, hne, e⟩
  · refine ⟨ended [s.cfg.nak] [.overflowGuard] reset s, e, ?_, outside_ended _ _ _ s, rfl, rfl, rfl⟩
    exact (if_pos hr).mpr (refused .overflowGuard)
  · refine ⟨ended [s.cfg.nak] [.busFailure] reset s, e, ?_, outside_ended _ _ _ s, rfl, rfl, rfl⟩
    exact (if_neg hr.not_gt).mpr ((if_pos ⟨hw0, hr0⟩).mpr (refused .busFailure))
  · refine ⟨_, e, ?_, outside_session s ses _, rfl, rfl, rfl⟩
    exact (if_neg hr.not_gt).mpr ((if_neg hne).mpr
      ⟨rfl, rfl, rfl, rfl, h.phase, h.byteCnt, h.lastAct, h.activeCmd⟩)

/-- A header byte before the sixth (R140). -/
theorem exec_spiop_header_accumulates {s : State} (hw : s.cfg.Wf) (h : s.ses.byteCnt.toNat < 5) (c : Byte) :
    ∃ t, exec (.oSpiop (.data c)) s = .next t ∧ Accumulates s t ∧ Outside s t ∧ LengthsKept s t ∧
      Stored s t s.ses.byteCnt.toNat [c] := by
  have hsucc := toNat_succ (x := s.ses.byteCnt) (by omega)
  have hl : s.ses.byteCnt.toNat < s.cfg.wCap := by have := hw.wCap_ge; omega
  rw [exec_spiop_header hw (by omega), headerByte_eq (s := stamped s) hl (show (s.ses.byteCnt + 1#32).toNat ≠ 6 by omega)]
  exact ⟨_, rfl, Counted.accumulates ⟨rfl, rfl, rfl, rfl⟩, outside_session s _ _, ⟨rfl, rfl⟩, stored_writeList rfl⟩

/-- A payload byte before the last (R142). -/
theorem exec_spiop_payload_accumulates {s : State} (h : 6 ≤ s.ses.byteCnt.toNat) (hl : s.ses.byteCnt.toNat < s.cfg.wCap)
    (hmore : (s.ses.byteCnt + 1#32).toNat - 6 ≠ s.ses.writeLen.toNat) (c : Byte) :
    ∃ t, exec (.oSpiop (.data c)) s = .next t ∧ Accumulates s t ∧ Outside s t ∧ LengthsKept s t ∧
      Stored s t (s.ses.byteCnt.toNat - 6) [c] := by
  have fits : s.ses.byteCnt.toNat - 6 + 1 ≤ s.cfg.wCap := by omega
  rw [exec_spiop_payload h hl, payloadByte_eq (s := stamped s) fits]
  exact ⟨_, if_neg hmore, Counted.accumulates ⟨rfl, rfl, rfl, rfl⟩, outside_session s _ _, ⟨rfl, rfl⟩, stored_writeList rfl⟩

/-- Settles O47: header bytes and payload bytes before the last are stored and counted. -/
theorem spiopDataByteAccumulates : Obligations.SpiopDataByteAccumulates := fun _ c hw =>
  ⟨fun h => exec_spiop_header_accumulates hw h c, fun h hl hmore => exec_spiop_payload_accumulates h hl hmore c⟩

/-- Settles O49: the last payload byte counts, and the operation executes. -/
theorem spiopLastPayloadByteExecutes : Obligations.SpiopLastPayloadByteExecutes := by
  intro s c _ h hl hlast
  have fits : s.ses.byteCnt.toNat - 6 + 1 ≤ s.cfg.wCap := by omega
  have counted : Counted s (payloadStored c (stamped s)).ses := ⟨rfl, rfl, rfl, rfl⟩
  obtain ⟨t, e, executes, outside, hwb, hwl, hrl⟩ := counted.executes
  refine ⟨t, ?_, outside, ⟨hwl, hrl⟩, stored_writeList hwb, executes⟩
  rw [exec_spiop_payload h hl, payloadByte_eq (s := stamped s) fits]
  exact (if_pos hlast).trans e

/-- The first header field, by value (R10, R141). -/
theorem headerWriteLen_toNat (a b c : Byte) (rest : List Byte) :
    (headerWriteLen (a :: b :: c :: rest)).toNat = a.toNat + 2 ^ 8 * b.toNat + 2 ^ 16 * c.toNat := by
  have := a.isLt; have := b.isLt; have := c.isLt
  simp only [headerWriteLen, List.take_succ_cons, List.take_zero, le, BitVec.toNat_ofNat]
  omega

/-- The second header field is the first of what follows the first (R79). -/
theorem headerReadLen_eq (a b c : Byte) (rest : List Byte) : headerReadLen (a :: b :: c :: rest) = headerWriteLen rest := rfl

/-- The header as the sixth byte leaves it in the work buffer. -/
theorem readList_header (m : Memory) (c : Byte) :
    (m.writeList 5 [c]).readList 0 6 = [m.read 0, m.read 1, m.read 2, m.read 3, m.read 4, c] := by
  simp [Memory.readList, Memory.writeList, Memory.read_write]

/-- The lengths that the sixth byte sets are the header's fields (R141). -/
theorem headerDone_lengths {s : State} {c : Byte} (h : s.ses.byteCnt.toNat = 5) :
    (headerDone c s).ses.writeLen.toNat =
      headerByteAt s c 0 + 2 ^ 8 * headerByteAt s c 1 + 2 ^ 16 * headerByteAt s c 2 ∧
    (headerDone c s).ses.readLen.toNat =
      headerByteAt s c 3 + 2 ^ 8 * headerByteAt s c 4 + 2 ^ 16 * headerByteAt s c 5 := by
  simp only [headerDone, h, readList_header, headerReadLen_eq, headerWriteLen_toNat]
  exact ⟨rfl, rfl⟩

/-- Settles O48: the sixth byte counts, sets both lengths, and without a payload to come the operation executes. -/
theorem spiopHeaderCompletes : Obligations.SpiopHeaderCompletes := by
  intro s c hw h
  have hge := hw.wCap_ge
  have hsucc := toNat_succ (x := s.ses.byteCnt) (by omega)
  have hcnt : (s.ses.byteCnt + 1#32).toNat = 6 := by omega
  have counted : Counted s (headerDone c (stamped s)).ses := ⟨rfl, rfl, rfl, rfl⟩
  obtain ⟨hwl, hrl⟩ : _ ∧ _ := headerDone_lengths (s := stamped s) (c := c) h
  have stored {t : State} (e : t.ses.wb = (headerDone c (stamped s)).ses.wb) : Stored s t 5 [c] :=
    stored_writeList (h ▸ e)
  rw [exec_spiop_header hw (by omega), headerByte_done (s := stamped s) (show s.ses.byteCnt.toNat < s.cfg.wCap by omega)
    (show 6 ≤ s.cfg.wCap by omega) hcnt]
  by_cases hz : (headerDone c (stamped s)).ses.writeLen.toNat = 0
  · obtain ⟨t, e, executes, outside, hwb, hwl', hrl'⟩ := counted.executes
    exact ⟨t, (if_pos hz).trans e, outside, stored hwb, by rw [hwl']; exact hwl, by rw [hrl']; exact hrl,
      fun hne => absurd (hwl' ▸ hz) hne, fun _ => executes⟩
  · exact ⟨_, if_neg hz, outside_session s _ _, stored rfl, hwl, hrl, fun _ => counted.accumulates, fun h0 => absurd h0 hz⟩

/-! S_SPI_FREQ -/

/-- Settles O50: a byte that is not the fourth is stored and counted. -/
theorem freqDataByteAccumulates : Obligations.FreqDataByteAccumulates := by
  intro s c hl h4
  rw [exec_freq_data hl, freqData_eq (s := stamped s) hl h4]
  exact ⟨_, rfl, Counted.accumulates ⟨rfl, rfl, rfl, rfl⟩, outside_session s _ _, ⟨rfl, rfl⟩, stored_writeList rfl⟩

/-- The frequency, by value (R10, R148). -/
theorem frequencyOf_toNat (a b c d : Byte) :
    (frequencyOf [a, b, c, d]).toNat = a.toNat + 2 ^ 8 * b.toNat + 2 ^ 16 * c.toNat + 2 ^ 24 * d.toNat := by
  have := a.isLt; have := b.isLt; have := c.isLt; have := d.isLt
  simp only [frequencyOf, List.take_succ_cons, List.take_zero, le, BitVec.toNat_ofNat]
  omega

/-- The four bytes as the fourth leaves them in the work buffer. -/
theorem readList_freqStored {s : State} {c : Byte} (h : s.ses.byteCnt.toNat = 3) :
    (freqStored c s).ses.wb.readList 0 4 = [freqByteAt s c 0, freqByteAt s c 1, freqByteAt s c 2, freqByteAt s c 3] := by
  simp [freqStored, h, freqByteAt, Memory.readList, Memory.writeList, Memory.read_write]

/-- Clamping is the minimum (R158). -/
theorem clampFrequency_toNat (hz fmax : U32) : (clampFrequency hz fmax).toNat = min hz.toNat fmax.toNat := by
  rw [clampFrequency, apply_ite BitVec.toNat, min_def]

/-- Settles O51: the four bytes in the work buffer are the frequency, zero or not. -/
theorem freqCompletesClampsAndEchoes : Obligations.FreqCompletesClampsAndEchoes := by
  intro s c hw h
  have hge := hw.wCap_ge
  have hl : s.ses.byteCnt.toNat < s.cfg.wCap := by omega
  have hsucc := toNat_succ (x := s.ses.byteCnt) (by omega)
  have hcnt : (s.ses.byteCnt + 1#32).toNat = 4 := by omega
  have bytes := readList_freqStored (s := stamped s) (c := c) h
  have value : (frequencyOf ((freqStored c (stamped s)).ses.wb.readList 0 4)).toNat = freqValue s c := by
    rw [bytes, frequencyOf_toNat]; rfl
  have zero : frequencyOf ((freqStored c (stamped s)).ses.wb.readList 0 4) = 0#32 ↔ freqValue s c = 0 := by
    rw [← BitVec.toNat_inj, value]; rfl
  have stored {t : State} (e : t.ses.wb = (freqStored c (stamped s)).ses.wb) : Stored s t 3 [c] :=
    stored_writeList (h ▸ e)
  rw [exec_freq_data hl, freqData_done (s := stamped s) hl (show 4 ≤ s.cfg.wCap by omega) hcnt]
  by_cases hz : freqValue s c = 0
  · exact ⟨ended [s.cfg.nak] [.protocolViolation] (sessionReset (freqStored c (stamped s))).ses s, if_pos (zero.2 hz), ⟨rfl, rfl⟩,
      stored rfl, outside_ended _ _ _ s, rfl, rfl, fun _ => ⟨rfl, completes_ended _ _ rfl rfl rfl rfl⟩, fun hne => absurd hz hne⟩
  · refine ⟨_, if_neg (mt zero.1 hz), ⟨rfl, rfl⟩, stored rfl, ⟨rfl, rfl, rfl, rfl, rfl, rfl, rfl, rfl, rfl, rfl, rfl⟩, rfl, rfl,
      fun h0 => absurd h0 hz, fun _ => ⟨?_, ?_⟩⟩
    · exact (clampFrequency_toNat _ _).trans (by rw [value]; rfl)
    · rw [bytes]
      exact ⟨⟨rfl, rfl, rfl, (List.append_nil _).symm⟩, rfl, rfl, rfl, rfl⟩

end Sys2Proof.Machine
end

section
/-! A deferred command's frame, turn by turn: its dispatch, the data bytes that are only gathered, and the byte that ends it (R73, R119,
R136, R137, R152). -/

namespace Sys2Proof.Machine
open Sys2Proof.Claims Sys2Proof.ByteOrder

/-! Runs and schedules -/

theorem steps_trans {m n : Nat} {s t u : State} (h : steps m s = .next t) (h' : steps n t = .next u) :
    steps (m + n) s = .next u := (steps_add m n s t h).trans h'

theorem steps_one {s u : State} {t : Turn} {ts : List Turn} (h : s.turns = t :: ts)
    (e : fire t { s with turns := ts } = .next u) : steps 1 s = .next u := steps_cons h e

/-- A frame's schedule may be cut anywhere. -/
theorem atFrame_cut {s : State} {frame rest : List Byte} {first later ts : List Turn}
    (h : AtFrame s frame rest (first ++ later) ts) : AtFrame s frame rest first (later ++ ts) :=
  { h with turns := by rw [h.turns, List.append_assoc] }

/-! The deferred commands -/

/-- What a frame run needs to know of a deferred command: how its code byte and its data bytes are read, and that the code is dispatched
(R75, R119). -/
structure Deferred (cc : CmdCodes) (code : Byte) (instr : FramePart → Instr) : Prop where
  decode_code : decodeCommand cc code = instr .code
  decode_data : ∀ c, decodeData cc code c = .ok (instr (.data c))
  exec_code : ∀ v : State, v.cfg.codes = cc → exec (instr .code) v = deferredDispatch code v

section
variable {cc : CmdCodes} (hn : cc.supported.Nodup)
include hn

theorem deferred_sBustype : Deferred cc cc.sBustype .sBustype :=
  ⟨decodeCommand_encode (i := .sBustype .code) hn rfl rfl, decodeData_sBustype cc, fun _ hv => by rw [← hv]; rfl⟩

theorem deferred_oSpiop : Deferred cc cc.oSpiop .oSpiop :=
  ⟨decodeCommand_encode (i := .oSpiop .code) hn rfl rfl, decodeData_oSpiop hn, fun _ hv => by rw [← hv]; rfl⟩

theorem deferred_sSpiFreq : Deferred cc cc.sSpiFreq .sSpiFreq :=
  ⟨decodeCommand_encode (i := .sSpiFreq .code) hn rfl rfl, decodeData_sSpiFreq hn, fun _ hv => by rw [← hv]; rfl⟩

end

/-! Where a frame's run stands -/

/-- `u` is `s` with `bytes` taken off `RXQ`, where `more` is left, and `ts` to come; nothing has been sent, raised or put on the bus. -/
structure Taken (s u : State) (bytes more : List Byte) (ts : List Turn) : Prop where
  cfg : u.cfg = s.cfg
  spi : u.spi = s.spi
  history : u.obs.spi = s.obs.spi
  sent : u.obs.sent = s.obs.sent
  errors : u.obs.errors = s.obs.errors
  taken : u.obs.taken = s.obs.taken ++ bytes
  rxq : u.fifo.rxq = more
  turns : u.turns = ts

/-- `u` waits inside the frame that `code` began in `s`: the data bytes `got` are in, in time, and `held` stands at the start of the work
buffer. -/
structure MidFrame (s u : State) (code : Byte) (got held more : List Byte) (ts : List Turn) : Prop
    extends Taken s u (code :: got) more ts where
  eng : u.eng = .wait
  phase : u.ses.phase = .awaitData
  activeCmd : u.ses.activeCmd = code
  byteCnt : u.ses.byteCnt.toNat = got.length
  inTime : u.ses.lastAct = u.clk
  held : u.ses.wb.readList 0 held.length = held

/-- The state in which the engine's turn executes the byte `c`: popped, the turn taken off the schedule (R97). -/
def turnByte (c : Byte) (more : List Byte) (ts : List Turn) (u : State) : State := popped c more { u with turns := ts }

section
variable {s u t v : State} {bytes more : List Byte} {c : Byte} {ts : List Turn}

theorem Taken.pop {turn : Turn} (h : Taken s u bytes (c :: more) (turn :: ts)) :
    Taken s (turnByte c more ts u) (bytes ++ [c]) more ts :=
  { h with taken := by rw [← List.append_assoc, ← h.taken]; rfl, rxq := rfl, turns := rfl }

/-- A data byte that sends and raises nothing leaves the run where its pop did. -/
theorem Taken.quiet (h : Taken s v bytes more ts) (o : Outside v t) (sent : t.obs.sent = v.obs.sent)
    (errors : t.obs.errors = v.obs.errors) : Taken s t bytes more ts where
  cfg := o.cfg.trans h.cfg
  spi := o.spi.trans h.spi
  history := o.history.trans h.history
  sent := sent.trans h.sent
  errors := errors.trans h.errors
  taken := o.taken.trans h.taken
  rxq := (congrArg Fifo.rxq o.fifo).trans h.rxq
  turns := o.turns.trans h.turns

theorem outside_ignoring_spi (o : Outside v t) : Outside v { t with spi := v.spi } := { o with spi := rfl }

/-- A data byte that completes its command ends the frame; S_SPI_FREQ's may write `FREQ`. -/
theorem Taken.frameDone {resp : List Byte} {errs : List ErrorClass} (h : Taken s v bytes more ts) (done : Completes v t resp errs)
    (o : Outside v { t with spi := v.spi }) (cs : t.spi.cs = v.spi.cs) : FrameDone s t bytes more ts resp errs where
  answers := ⟨done.answers.eng, done.answers.out, by rw [done.answers.sent, h.sent], by rw [done.answers.errors, h.errors]⟩
  phase := done.phase
  byteCnt := done.byteCnt
  rxq := (congrArg Fifo.rxq o.fifo).trans h.rxq
  taken := o.taken.trans h.taken
  turns := o.turns.trans h.turns
  cs := by rw [cs, h.spi]

end

/-! The turns -/

/-- The engine's turn at a waiting byte (R97, R113). -/
theorem fire_eng_byte {u : State} {c : Byte} {more : List Byte} (he : u.eng = .wait) (hq : u.fifo.rxq = c :: more)
    (ts : List Turn) : fire .eng { u with turns := ts } = onByte c (turnByte c more ts u) :=
  engineStep_pop (s := { u with turns := ts }) he hq

/-- The turn that takes a deferred command's code byte (R119). -/
theorem dispatch_turn {s : State} {code : Byte} {instr : FramePart → Instr} {data rest : List Byte} {sched ts : List Turn}
    (h : AtFrame s (code :: data) rest (.eng :: sched) ts) (d : Deferred s.cfg.codes code instr) :
    ∃ u, steps 1 s = .next u ∧ MidFrame s u code [] [] (data ++ rest) (sched ++ ts) := by
  let v := turnByte code (data ++ rest) (sched ++ ts) s
  have command : timeoutCheck v = v := timeoutCheck_of fun late => by
    have hp : s.ses.phase = .awaitData := late.1
    rw [h.phase] at hp; cases hp
  have run : onByte code v = deferredDispatch code v := by
    rw [onByte_command (by rw [command]; exact h.phase), command]
    exact (congrArg (exec · v) d.decode_code).trans (d.exec_code v rfl)
  refine ⟨_, steps_one h.turns ((fire_eng_byte h.eng h.rxq _).trans run), ?_⟩
  exact ⟨⟨rfl, rfl, rfl, rfl, rfl, rfl, rfl, rfl⟩, rfl, rfl, rfl, rfl, rfl, rfl⟩

section
variable {s u : State} {code c : Byte} {instr : FramePart → Instr} {got held more : List Byte} {ts : List Turn}

/-- The turn that takes a data byte executes it on the state it is popped in (R75, R136). -/
theorem MidFrame.turn (h : MidFrame s u code got held (c :: more) (.eng :: ts)) (d : Deferred s.cfg.codes code instr) {t : State}
    (hx : exec (instr (.data c)) (turnByte c more ts u) = .next t) : steps 1 u = .next t := by
  have inTime : u.clk.toNat - u.ses.lastAct.toNat ≤ u.cfg.tData.toNat := by rw [h.inTime, Nat.sub_self]; exact Nat.zero_le _
  have read : decodeData u.cfg.codes u.ses.activeCmd c = .ok (instr (.data c)) := by
    rw [h.cfg, h.activeCmd]; exact d.decode_data c
  refine steps_one h.turns ((fire_eng_byte h.eng h.rxq ts).trans ?_)
  rw [onByte_data (s := turnByte c more ts u) h.phase inTime read, hx]

/-- Bytes stored behind what a buffer holds are held with it. -/
theorem readList_stored {v t : State} {held : List Byte} (h : v.ses.wb.readList 0 held.length = held)
    (stored : Stored v t held.length [c]) : t.ses.wb.readList 0 (held.length + 1) = held ++ [c] := by
  have before : t.ses.wb.readList 0 held.length = v.ses.wb.readList 0 held.length :=
    Memory.readList_congr fun a _ ha => by rw [stored a, if_neg (by omega)]
  have last : t.ses.wb.read held.length = c := by rw [stored]; simp
  rw [Memory.readList_append, before, h, Nat.zero_add, Memory.readList, Memory.readList, last]

/-- After a data byte that is only gathered, the run waits further inside the frame (R137). -/
theorem MidFrame.gathered (h : MidFrame s u code got held (c :: more) (.eng :: ts)) {t : State}
    (acc : Accumulates (turnByte c more ts u) t) (o : Outside (turnByte c more ts u) t)
    (stored : Stored (turnByte c more ts u) t held.length [c]) (hl : got.length < 2 ^ 25) :
    MidFrame s t code (got ++ [c]) (held ++ [c]) more ts where
  toTaken := h.toTaken.pop.quiet o acc.waits.sent acc.waits.errors
  eng := acc.waits.eng
  phase := acc.phase.trans h.phase
  activeCmd := acc.activeCmd.trans h.activeCmd
  byteCnt := by
    have count : t.ses.byteCnt = u.ses.byteCnt + 1#32 := acc.byteCnt
    rw [count, toNat_succ (by rw [h.byteCnt]; exact hl), h.byteCnt, List.length_append, List.length_singleton]
  inTime := acc.lastAct.trans o.clk.symm
  held := by
    rw [List.length_append, List.length_singleton]
    exact readList_stored (v := turnByte c more ts u) h.held stored

/-- What the buffer holds may be forgotten. -/
theorem MidFrame.forget (h : MidFrame s u code got held more ts) : MidFrame s u code got [] more ts := { h with held := rfl }

end

/-- Where `base` data bytes came before them, the command's next `n` are only gathered: stored one behind the other from the start of the
work buffer, and counted. -/
def Gathers (cfg : Config) (writeLen : U24) (instr : FramePart → Instr) (base n : Nat) : Prop :=
  ∀ (v : State) (c : Byte) (k : Nat), v.cfg = cfg → v.ses.writeLen = writeLen → v.ses.byteCnt.toNat = base + k → k < n →
    ∃ t, exec (instr (.data c)) v = .next t ∧ Accumulates v t ∧ Outside v t ∧ LengthsKept v t ∧ Stored v t k [c]

/-- The engine's turns gather the bytes one by one. -/
theorem MidFrame.gather {s u : State} {code : Byte} {instr : FramePart → Instr} {got held bs more : List Byte} {ts : List Turn}
    {base n : Nat} (d : Deferred s.cfg.codes code instr) (g : Gathers s.cfg u.ses.writeLen instr base n)
    (h : MidFrame s u code got held (bs ++ more) (List.replicate bs.length .eng ++ ts)) (hgot : got.length = base + held.length)
    (hn : held.length + bs.length ≤ n) (hl : base + n < 2 ^ 25) :
    ∃ t, steps bs.length u = .next t ∧ MidFrame s t code (got ++ bs) (held ++ bs) more ts ∧ LengthsKept u t := by
  induction bs generalizing u got held with
  | nil => exact ⟨u, rfl, by simpa using h, rfl, rfl⟩
  | cons c bs ih =>
    rw [List.length_cons] at hn
    obtain ⟨v, hx, acc, o, hlen, stored⟩ := g (turnByte c (bs ++ more) (List.replicate bs.length .eng ++ ts) u) c held.length
      h.cfg rfl (h.byteCnt.trans hgot) (by omega)
    have hwl : v.ses.writeLen = u.ses.writeLen := hlen.1
    have mid := MidFrame.gathered h acc o stored (by omega)
    obtain ⟨t, run, done, hlen'⟩ := ih (hwl ▸ g) mid (by simp only [List.length_append, List.length_singleton]; omega)
      (by simp only [List.length_append, List.length_singleton]; omega)
    refine ⟨t, ?_, by simpa using done, hlen'.1.trans hlen.1, hlen'.2.trans hlen.2⟩
    rw [List.length_cons, Nat.add_comm]
    exact steps_trans (MidFrame.turn h d hx) run

/-! S_BUSTYPE -/

/-- Settles O56: the code byte's turn, then the data byte's. -/
theorem bustypeFrameOutcome : Obligations.BustypeFrameOutcome := by
  intro s b rest ts h
  have d := deferred_sBustype h.cfg.codes_nodup
  obtain ⟨u, first, mid⟩ := dispatch_turn h d
  have below : u.ses.byteCnt.toNat < u.cfg.wCap := by
    have := h.cfg.wCap_ge
    rw [mid.byteCnt, mid.cfg, List.length_nil]; omega
  have popped : Taken s (turnByte b rest ts u) (frameBustype s.cfg.codes b) rest ts := mid.toTaken.pop
  obtain ⟨t, hx, o, _, _, accepted, refused⟩ := bustypeDataByteCompletes (turnByte b rest ts u) b below
  rw [popped.cfg] at accepted refused
  have done {resp errs} (e : Completes (turnByte b rest ts u) t resp errs) :
      FrameDone s t (frameBustype s.cfg.codes b) rest ts resp errs := popped.frameDone e (outside_ignoring_spi o) (by rw [o.spi])
  exact ⟨t, steps_trans first (mid.turn d hx), o.spi.trans popped.spi, o.history.trans popped.history,
    fun hb => done (accepted hb), fun hb => done (refused hb)⟩

/-! S_SPI_FREQ -/

/-- The first three frequency bytes are only gathered (R147). -/
theorem gathers_freq {cfg : Config} (hw : cfg.Wf) (writeLen : U24) : Gathers cfg writeLen .sSpiFreq 0 3 := by
  intro v c k hv _ hk hk3
  have hsucc := toNat_succ (x := v.ses.byteCnt) (by omega)
  have below : v.ses.byteCnt.toNat < v.cfg.wCap := by have := hw.wCap_ge; rw [hv]; omega
  obtain ⟨t, hx, acc, o, hlen, stored⟩ := freqDataByteAccumulates v c below (by omega)
  exact ⟨t, hx, acc, o, hlen, by rwa [hk, Nat.zero_add] at stored⟩

/-- The value of four frequency bytes is read off the buffer's first three and the byte that comes fourth. -/
theorem freqBytes_le32 {v : State} {f : U32} (h : v.ses.wb.readList 0 3 = (le32 f).take 3) :
    [freqByteAt v (f.extractLsb' 24 8) 0, freqByteAt v (f.extractLsb' 24 8) 1, freqByteAt v (f.extractLsb' 24 8) 2,
      freqByteAt v (f.extractLsb' 24 8) 3] = le32 f ∧ freqValue v (f.extractLsb' 24 8) = f.toNat := by
  obtain ⟨h0, h1, h2⟩ : v.ses.wb.read 0 = f.extractLsb' 0 8 ∧ v.ses.wb.read 1 = f.extractLsb' 8 8 ∧
      v.ses.wb.read 2 = f.extractLsb' 16 8 := by simpa [Memory.readList, le32] using h
  have bytes : [freqByteAt v (f.extractLsb' 24 8) 0, freqByteAt v (f.extractLsb' 24 8) 1, freqByteAt v (f.extractLsb' 24 8) 2,
      freqByteAt v (f.extractLsb' 24 8) 3] = le32 f := by simp [freqByteAt, h0, h1, h2, le32]
  refine ⟨bytes, ?_⟩
  rw [freqValue, ← frequencyOf_toNat, bytes, ← List.append_nil (le32 f), frequencyOf_le32_append]

/-- Settles O57: the code byte's turn, three bytes gathered, and the fourth, which completes the frequency. -/
theorem freqFrameOutcome : Obligations.FreqFrameOutcome := by
  intro s f rest ts h
  have d := deferred_sSpiFreq h.cfg.codes_nodup
  obtain ⟨u, first, start⟩ := dispatch_turn h d
  obtain ⟨v, gathered, mid, _⟩ := MidFrame.gather (bs := (le32 f).take 3) d (gathers_freq h.cfg _) start rfl (Nat.le_refl 3) (by decide)
  let c := f.extractLsb' 24 8
  have popped : Taken s (turnByte c rest ts v) (frameFreq s.cfg.codes f) rest ts := mid.toTaken.pop
  obtain ⟨bytes, value⟩ := freqBytes_le32 (v := turnByte c rest ts v) mid.held
  obtain ⟨t, hx, _, _, o, hmax, hcs, zero, nonzero⟩ :=
    freqCompletesClampsAndEchoes (turnByte c rest ts v) c (popped.cfg ▸ h.cfg) mid.byteCnt
  have done {resp errs} (e : Completes (turnByte c rest ts v) t resp errs) :
      FrameDone s t (frameFreq s.cfg.codes f) rest ts resp errs := popped.frameDone e o hcs
  rw [value, popped.spi, popped.cfg] at zero nonzero
  rw [bytes, le32_eq_split] at nonzero
  refine ⟨t, steps_trans first (steps_trans gathered (mid.turn d hx)), hmax.trans (by rw [popped.spi]),
    o.history.trans popped.history, fun hz => (zero hz).imp_right done, fun hz => (nonzero hz).imp_right done⟩

end Sys2Proof.Machine
end

section
/-! An O_SPIOP frame up to its last byte (R79, R140–R145): the header, the payload, and the frames that end without a transfer (R138,
R143, R156). -/

namespace Sys2Proof.Machine
open Sys2Proof.Claims Sys2Proof.ByteOrder

/-! What is gathered -/

/-- The first five header bytes are only gathered (R140). -/
theorem gathers_header {cfg : Config} (hw : cfg.Wf) (writeLen : U24) : Gathers cfg writeLen .oSpiop 0 5 := by
  intro v c k hv _ hk hk5
  obtain ⟨t, hx, acc, o, hlen, stored⟩ := exec_spiop_header_accumulates (s := v) (hv ▸ hw) (by omega) c
  exact ⟨t, hx, acc, o, hlen, by rwa [hk, Nat.zero_add] at stored⟩

/-- Payload bytes before the last are only gathered, below the guard (R142). -/
theorem gathers_payload {cfg : Config} {writeLen : U24} {n : Nat} (hn : n < writeLen.toNat) (hcap : 6 + n ≤ cfg.wCap) :
    Gathers cfg writeLen .oSpiop 6 n := by
  intro v c k hv hwl hk hkn
  have hsucc := toNat_succ (x := v.ses.byteCnt) (by have := writeLen.isLt; omega)
  obtain ⟨t, hx, acc, o, hlen, stored⟩ := exec_spiop_payload_accumulates (s := v) (by omega) (by rw [hv]; omega)
    (by rw [hwl]; omega) c
  exact ⟨t, hx, acc, o, hlen, by rwa [hk, Nat.add_sub_cancel_left] at stored⟩

/-! The header -/

/-- A 24-bit value by its bytes (R10). -/
theorem le24_toNat (v : U24) :
    (v.extractLsb' 0 8).toNat + 2 ^ 8 * (v.extractLsb' 8 8).toNat + 2 ^ 16 * (v.extractLsb' 16 8).toNat = v.toNat := by
  have h := le_le24 v
  simp only [le24, le] at h
  omega

/-- The header's fields are read off the buffer's first five bytes and the byte that comes sixth. -/
theorem headerByteAt_le24 {v : State} {wl rl : U24} (h : v.ses.wb.readList 0 5 = (le24 wl ++ le24 rl).take 5) :
    headerByteAt v (rl.extractLsb' 16 8) 0 + 2 ^ 8 * headerByteAt v (rl.extractLsb' 16 8) 1 +
      2 ^ 16 * headerByteAt v (rl.extractLsb' 16 8) 2 = wl.toNat ∧
    headerByteAt v (rl.extractLsb' 16 8) 3 + 2 ^ 8 * headerByteAt v (rl.extractLsb' 16 8) 4 +
      2 ^ 16 * headerByteAt v (rl.extractLsb' 16 8) 5 = rl.toNat := by
  obtain ⟨h0, h1, h2, h3, h4⟩ : v.ses.wb.read 0 = wl.extractLsb' 0 8 ∧ v.ses.wb.read 1 = wl.extractLsb' 8 8 ∧
      v.ses.wb.read 2 = wl.extractLsb' 16 8 ∧ v.ses.wb.read 3 = rl.extractLsb' 0 8 ∧
      v.ses.wb.read 4 = rl.extractLsb' 8 8 := by simpa [Memory.readList, le24] using h
  simp only [headerByteAt, h0, h1, h2, h3, h4, reduceIte, Nat.reduceEqDiff]
  exact ⟨le24_toNat wl, le24_toNat rl⟩

/-- What the sixth data byte leaves of an O_SPIOP frame: its lengths in place, and either payload to come or the operation executed. -/
structure HeaderRead (s v t : State) (wl rl : U24) (more : List Byte) (ts : List Turn) : Prop where
  taken : Taken s v (s.cfg.codes.oSpiop :: (le24 wl ++ le24 rl)) more ts
  outside : Outside v t
  writeLen : t.ses.writeLen = wl
  readLen : t.ses.readLen = rl
  waits : wl.toNat ≠ 0 → MidFrame s t s.cfg.codes.oSpiop (le24 wl ++ le24 rl) [] more ts
  executes : wl.toNat = 0 → Executes v t

/-- The code byte's turn and the header's six. -/
theorem header_turns {s : State} {wl rl : U24} {d rest : List Byte} {ts : List Turn}
    (h : AtFrame s (frameSpiop s.cfg.codes wl rl d) rest (List.replicate 7 .eng) ts) :
    ∃ v t, steps 7 s = .next t ∧ HeaderRead s v t wl rl (d ++ rest) ts := by
  have cmd := deferred_oSpiop h.cfg.codes_nodup
  obtain ⟨u, first, start⟩ := dispatch_turn h cmd
  obtain ⟨w, gathered, mid, _⟩ :=
    MidFrame.gather (bs := (le24 wl ++ le24 rl).take 5) cmd (gathers_header h.cfg _) start rfl (Nat.le_refl 5) (by decide)
  let v := turnByte (rl.extractLsb' 16 8) (d ++ rest) ts w
  have popped : Taken s v (s.cfg.codes.oSpiop :: (le24 wl ++ le24 rl)) (d ++ rest) ts := mid.toTaken.pop
  obtain ⟨t, hx, o, stored, hwl, hrl, more, last⟩ := spiopHeaderCompletes v (rl.extractLsb' 16 8) (popped.cfg ▸ h.cfg) mid.byteCnt
  obtain ⟨writeLen, readLen⟩ := headerByteAt_le24 (v := v) mid.held
  rw [writeLen] at hwl
  rw [readLen] at hrl
  rw [hwl] at more last
  exact ⟨v, t, steps_trans first (steps_trans gathered (mid.turn cmd hx)), popped, o, BitVec.eq_of_toNat_eq hwl,
    BitVec.eq_of_toNat_eq hrl, fun hne => (MidFrame.gathered mid (more hne) o stored (show 5 < 2 ^ 25 by decide)).forget, last⟩

/-! The payload -/

/-- The payload's first bytes, before its last and below the guard. -/
theorem payload_turns {s u : State} {wl rl : U24} {bs more : List Byte} {ts : List Turn} (hw : s.cfg.Wf) (hwl : u.ses.writeLen = wl)
    (h : MidFrame s u s.cfg.codes.oSpiop (le24 wl ++ le24 rl) [] (bs ++ more) (List.replicate bs.length .eng ++ ts))
    (hlt : bs.length < wl.toNat) (hcap : 6 + bs.length ≤ s.cfg.wCap) :
    ∃ t, steps bs.length u = .next t ∧
      MidFrame s t s.cfg.codes.oSpiop (le24 wl ++ le24 rl ++ bs) bs more ts ∧ LengthsKept u t :=
  MidFrame.gather (base := 6) (deferred_oSpiop hw.codes_nodup) (hwl ▸ gathers_payload hlt hcap) h rfl (by simp)
    (by have := wl.isLt; omega)

/-- A whole frame that fits ends in `Execute`, with its payload at the start of the work buffer (R142, R143). -/
theorem spiopFrame_executes {s : State} {wl rl : U24} {d rest : List Byte} {ts : List Turn} (hd : payloadWf wl d = true)
    (hcap : 6 + d.length ≤ s.cfg.wCap)
    (h : AtFrame s (frameSpiop s.cfg.codes wl rl d) rest (List.replicate (7 + d.length) .eng) ts) :
    ∃ v t, steps (7 + d.length) s = .next t ∧ Taken s v (frameSpiop s.cfg.codes wl rl d) rest ts ∧ Outside v t ∧ Executes v t ∧
      t.ses.writeLen = wl ∧ t.ses.readLen = rl ∧ t.ses.wb.readList 0 d.length = d := by
  have hd : d.length = wl.toNat := by simpa [payloadWf] using hd
  rw [List.replicate_add] at h
  obtain ⟨v, u, header, read⟩ := header_turns (atFrame_cut h)
  rcases d.eq_nil_or_concat' with rfl | ⟨bs, c, rfl⟩
  · exact ⟨v, u, header, by simpa [frameSpiop] using read.taken, read.outside, read.executes hd.symm, read.writeLen, read.readLen, rfl⟩
  · rw [List.length_append, List.length_singleton] at hd hcap ⊢
    have waits := read.waits (by omega)
    rw [List.append_assoc, List.length_append, List.replicate_add, List.append_assoc] at waits
    obtain ⟨w, gathered, mid, hlen⟩ := payload_turns h.cfg read.writeLen waits (by omega) (by omega)
    have popped : Taken s (turnByte c rest ts w) (frameSpiop s.cfg.codes wl rl (bs ++ [c])) rest ts := by
      simpa [frameSpiop] using mid.toTaken.pop
    have hcfg : w.cfg = s.cfg := mid.cfg
    have hcnt : w.ses.byteCnt.toNat = 6 + bs.length := by rw [mid.byteCnt, List.length_append]; rfl
    have hsucc := toNat_succ (x := w.ses.byteCnt) (by have := wl.isLt; omega)
    have hwl : w.ses.writeLen = wl := hlen.1.trans read.writeLen
    have index : (turnByte c rest ts w).ses.byteCnt.toNat - 6 = bs.length := show w.ses.byteCnt.toNat - 6 = _ by omega
    obtain ⟨t, hx, o, hlen', stored, executes⟩ := spiopLastPayloadByteExecutes (turnByte c rest ts w) c (popped.cfg ▸ h.cfg)
      (show 6 ≤ w.ses.byteCnt.toNat by omega) (show w.ses.byteCnt.toNat < w.cfg.wCap by rw [hcfg]; omega)
      (show (w.ses.byteCnt + 1#32).toNat - 6 = w.ses.writeLen.toNat by rw [hwl]; omega)
    rw [index] at stored
    exact ⟨_, t, steps_trans header (steps_trans gathered (mid.turn (deferred_oSpiop h.cfg.codes_nodup) hx)), popped, o, executes,
      hlen'.1.trans hwl, hlen'.2.trans (hlen.2.trans read.readLen), readList_stored (v := turnByte c rest ts w) mid.held stored⟩

/-! Frames without a transfer -/

/-- Settles O59: `Execute` refuses in one of its two ways. -/
theorem spiopFrameRefusedWithoutTransfer : Obligations.SpiopFrameRefusedWithoutTransfer := by
  intro s wl rl d rest ts hd hcap hrefused h
  obtain ⟨v, t, run, taken, o, executes, hwl, hrl, _⟩ := spiopFrame_executes hd hcap h
  have done {e : ErrorClass} (c : Completes v t [v.cfg.nak] [e]) :
      FrameDone s t (frameSpiop s.cfg.codes wl rl d) rest ts [s.cfg.nak] [e] :=
    taken.frameDone (taken.cfg ▸ c) (outside_ignoring_spi o) (by rw [o.spi])
  refine ⟨t, run, o.history.trans taken.history, o.spi.trans taken.spi, ?_⟩
  rw [Executes, hwl, hrl, taken.cfg] at executes
  by_cases hr : s.cfg.wCap < rl.toNat
  · rw [if_pos hr] at executes ⊢
    exact done (taken.cfg ▸ executes)
  · rw [if_neg hr, if_pos (hrefused.resolve_right hr)] at executes
    rw [if_neg hr]
    exact done (taken.cfg ▸ executes)

/-- Settles O60: the header, the payload up to the guard, and the byte that trips it. -/
theorem oversizedSpiopTripsTheGuard : Obligations.OversizedSpiopTripsTheGuard := by
  intro s wl rl d rest ts hd hcap h
  have hd : d.length = wl.toNat := by simpa [payloadWf] using hd
  have hge := h.cfg.wCap_ge
  have hn : s.cfg.wCap - 6 < d.length := by omega
  obtain ⟨bs, c, tail, rfl, hbs⟩ : ∃ bs c tail, d = bs ++ c :: tail ∧ bs.length = s.cfg.wCap - 6 :=
    ⟨d.take _, d[s.cfg.wCap - 6], d.drop _, by rw [← List.drop_eq_getElem_cons hn, List.take_append_drop],
      List.length_take_of_le hn.le⟩
  have hlen : 2 + s.cfg.wCap = 7 + (bs.length + 1) := by omega
  have frame : frameSpiop s.cfg.codes wl rl (bs ++ c :: tail) =
      s.cfg.codes.oSpiop :: (le24 wl ++ le24 rl ++ bs) ++ [c] ++ tail := by simp [frameSpiop]
  have length : (s.cfg.codes.oSpiop :: (le24 wl ++ le24 rl ++ bs) ++ [c]).length = 7 + (bs.length + 1) := by
    simp only [List.length_append, List.length_cons, le24_length, List.length_nil]; omega
  rw [hlen, frame, List.take_left' length, List.drop_left' length]
  rw [hlen, List.replicate_add] at h
  obtain ⟨_, u, header, read⟩ := header_turns (atFrame_cut h)
  have waits := read.waits (by omega)
  rw [List.append_assoc, List.replicate_add, List.append_assoc] at waits
  rw [List.length_append, List.length_cons] at hd
  obtain ⟨w, gathered, mid, _⟩ := payload_turns h.cfg read.writeLen waits (by omega) (by omega)
  have popped : Taken s (turnByte c (tail ++ rest) ts w) (s.cfg.codes.oSpiop :: (le24 wl ++ le24 rl ++ bs) ++ [c]) (tail ++ rest) ts :=
    mid.toTaken.pop
  have full : w.cfg.wCap ≤ w.ses.byteCnt.toNat := by
    have hcnt : w.ses.byteCnt.toNat = 6 + bs.length := by rw [mid.byteCnt, List.length_append]; rfl
    rw [mid.cfg]; omega
  obtain ⟨t, hx, trips, o, _, _⟩ := overflowGuardTrips (turnByte c (tail ++ rest) ts w) c (.oSpiop (.data c)) full (by simp)
  exact ⟨t, steps_trans header (steps_trans gathered (mid.turn (deferred_oSpiop h.cfg.codes_nodup) hx)),
    o.history.trans popped.history, o.spi.trans popped.spi,
    popped.frameDone (popped.cfg ▸ trips) (outside_ignoring_spi o) (by rw [o.spi])⟩

end Sys2Proof.Machine
end

section
/-! A transfer, turn by turn (R154–R157), and with it the whole O_SPIOP frame (R152). -/

namespace Sys2Proof.Machine
open Sys2Proof.Claims

/-! Which phases run -/

/-- The place that follows the write phase, or the assert where there is none, for the two lengths and the write's result (R155). -/
def afterWrite (w r : Nat) (okW : Bool) : Eng :=
  if (w = 0 ∨ okW = true) ∧ 0 < r then .run .spiRead else .run (.csRelease (w == 0 || okW))

/-- The place that follows the assert (R155). -/
def afterAssert (w r : Nat) (okW : Bool) : Eng := if 0 < w then .run .spiWrite else afterWrite w r okW

section
variable {w r : Nat} {okW : Bool}

theorem afterWrite_pos (hw : 0 < w) :
    afterWrite w r okW = if okW = true ∧ 0 < r then .run .spiRead else .run (.csRelease okW) := by
  have hw0 : (w == 0) = false := by simpa using hw.ne'
  rw [afterWrite, hw0, Bool.false_or]
  exact if_congr (and_congr_left' (or_iff_right hw.ne')) rfl rfl

/-- `CsAssert()` goes on as the lengths ask, whatever the device will answer (R155). -/
theorem afterAssert_eq : afterAssert w r okW =
    if 0 < w then .run .spiWrite else if 0 < r then .run .spiRead else .run (.csRelease true) := by
  by_cases hw : 0 < w
  · rw [afterAssert, if_pos hw, if_pos hw]
  · simp [afterAssert, afterWrite, Nat.eq_zero_of_not_pos hw]

/-- Where the read runs, the transfer's result is the read's (R155). -/
theorem transferOk_of_read {okR : Bool} (h : (w = 0 ∨ okW = true) ∧ 0 < r) : transferOk w r okW okR = okR := by
  obtain ⟨hw, hr⟩ := h
  have ready : (w == 0 || okW) = true := by simpa using hw
  simp [transferOk, ready, hr.ne']

/-- Where it does not, the result is the write's, and a good one means that nothing was to be read (R155, R156). -/
theorem transferOk_of_no_read {okR : Bool} (h : ¬ ((w = 0 ∨ okW = true) ∧ 0 < r)) :
    transferOk w r okW okR = (w == 0 || okW) ∧ (transferOk w r okW okR = true → r = 0) := by
  rcases Nat.eq_zero_or_pos r with rfl | hr
  · simp [transferOk]
  · have failed : (w == 0 || okW) = false := by
      rw [← Bool.not_eq_true]; exact fun ready => h ⟨by simpa using ready, hr⟩
    simp [transferOk, failed]

end

/-! The phases -/

/-- `s` inside a transfer: chip-select on, the events `evs` put on record, `wb` in the work buffer (R154, R155). -/
def onBus (s : State) (wb : Memory) (evs : List SpiEvent) (eng : Eng) (ts : List Turn) : State :=
  { s with
    eng := eng
    turns := ts
    ses.wb := wb
    spi.cs := true
    obs.spi := s.obs.spi ++ evs.map fun ev => ⟨ev, s.spi.freq, s.cfg.spiMode⟩ }

/-- An event inside the transfer joins its record. -/
theorem spiEvent_onBus (ev : SpiEvent) (s : State) (wb : Memory) (evs : List SpiEvent) (eng eng' : Eng) (ts : List Turn) :
    { spiEvent ev (onBus s wb evs eng ts) with eng := eng' } = onBus s wb (evs ++ [ev]) eng' ts := by
  simp [onBus, spiEvent]

section
variable {s : State} {ts : List Turn}

/-- The assert's turn. -/
theorem assert_turn (he : s.eng = .run .csAssert) (hts : s.turns = .eng :: ts) (okW : Bool) :
    steps 1 s =
      .next (onBus s s.ses.wb [.csAssert] (afterAssert s.ses.writeLen.toNat s.ses.readLen.toNat okW) ts) := by
  have fired : fire .eng { s with turns := ts } = .next (csAssertStep { s with turns := ts }) := by
    simp only [fire, engineStep, he]
  rw [steps_one hts fired, csAssertStep_eq, afterAssert_eq]
  rfl

/-- The write phase, where there is one (R155, R156). -/
theorem write_turns (hcap : s.ses.writeLen.toNat ≤ s.cfg.wCap) (evs : List SpiEvent) (okW : Bool) (x : List Byte) :
    steps (if 0 < s.ses.writeLen.toNat then [Turn.spiDev okW x] else []).length
      (onBus s s.ses.wb evs (afterAssert s.ses.writeLen.toNat s.ses.readLen.toNat okW)
        ((if 0 < s.ses.writeLen.toNat then [Turn.spiDev okW x] else []) ++ ts)) =
    .next (onBus s s.ses.wb
      (evs ++ if 0 < s.ses.writeLen.toNat then [.write (s.ses.wb.readList 0 s.ses.writeLen.toNat)] else [])
      (afterWrite s.ses.writeLen.toNat s.ses.readLen.toNat okW) ts) := by
  by_cases hw : 0 < s.ses.writeLen.toNat
  · have written := spiWriteStep_eq (ok := okW) (s := onBus s s.ses.wb evs (.run .spiWrite) ts) hcap
    rw [if_pos hw, if_pos hw, afterAssert, if_pos hw, afterWrite_pos hw]
    exact steps_one rfl (written.trans (congrArg _ (spiEvent_onBus _ s _ evs _ _ ts)))
  · rw [if_neg hw, if_neg hw, afterAssert, if_neg hw, List.append_nil]
    rfl

/-- The read phase, unless the write failed or nothing is to be read: with a good result the device's bytes stand in the work buffer (R155). -/
theorem read_turns (hcap : s.ses.readLen.toNat ≤ s.cfg.wCap) {data : List Byte} (hd : data.length = s.ses.readLen.toNat) (w : Nat)
    (evs : List SpiEvent) (okW okR : Bool) :
    ∃ wb, steps (if (w = 0 ∨ okW = true) ∧ 0 < s.ses.readLen.toNat then [Turn.spiDev okR data] else []).length
        (onBus s s.ses.wb evs (afterWrite w s.ses.readLen.toNat okW)
          ((if (w = 0 ∨ okW = true) ∧ 0 < s.ses.readLen.toNat then [Turn.spiDev okR data] else []) ++ ts)) =
      .next (onBus s wb
        (evs ++ if (w = 0 ∨ okW = true) ∧ 0 < s.ses.readLen.toNat then [.read s.ses.readLen.toNat s.cfg.spiFill] else [])
        (.run (.csRelease (transferOk w s.ses.readLen.toNat okW okR))) ts) ∧
      (transferOk w s.ses.readLen.toNat okW okR = true → wb.readList 0 s.ses.readLen.toNat = data) := by
  by_cases hr : (w = 0 ∨ okW = true) ∧ 0 < s.ses.readLen.toNat
  · have answered := spiReadStep_eq (ok := okR) (s := onBus s s.ses.wb evs (.run .spiRead) ts) hd hcap
    rw [if_pos hr, if_pos hr, afterWrite, if_pos hr, transferOk_of_read hr, ← hd]
    exact ⟨s.ses.wb.writeList 0 data, steps_one rfl (answered.trans (by simp [onBus, spiEvent, hd])),
      fun _ => Memory.readList_writeList data s.ses.wb 0⟩
  · obtain ⟨result, nothing⟩ := transferOk_of_no_read (okR := okR) hr
    refine ⟨s.ses.wb, ?_, fun ok => ?_⟩
    · rw [if_neg hr, if_neg hr, afterWrite, if_neg hr, result, List.append_nil]
      rfl
    · rw [nothing ok, List.eq_nil_of_length_eq_zero (hd.trans (nothing ok))]
      rfl

/-- What the release leaves of a transfer that began in `s`, for its result, its events and what the device answered (R143, R155, R168). -/
structure TransferDone (s t : State) (ok : Bool) (evs : List SpiEvent) (data : List Byte) (ts : List Turn) : Prop where
  history : t.obs.spi = s.obs.spi ++ evs.map fun ev => ⟨ev, s.spi.freq, s.cfg.spiMode⟩
  spi : t.spi = { s.spi with cs := false }
  lengths : LengthsKept s t
  answers : Answers s t (if ok then s.cfg.ack :: data else [s.cfg.nak]) (if ok then [] else [.busFailure])
  phase : t.ses.phase = .awaitCommand
  byteCnt : t.ses.byteCnt = 0#32
  fifo : t.fifo = s.fifo
  taken : t.obs.taken = s.obs.taken
  turns : t.turns = ts

/-- The release's turn. -/
theorem release_turn (hcap : s.ses.readLen.toNat ≤ s.cfg.wCap) {wb : Memory} {evs : List SpiEvent} {ok : Bool} {data : List Byte}
    (hread : ok = true → wb.readList 0 s.ses.readLen.toNat = data) :
    ∃ t, steps 1 (onBus s wb evs (.run (.csRelease ok)) (.eng :: ts)) = .next t ∧
      TransferDone s t ok (evs ++ [.csRelease]) data ts := by
  let released := spiEvent .csRelease (setCs false (onBus s wb evs (.run (.csRelease ok)) ts))
  have history : released.obs.spi = s.obs.spi ++ (evs ++ [SpiEvent.csRelease]).map fun ev => ⟨ev, s.spi.freq, s.cfg.spiMode⟩ := by
    simp [released, onBus]
  cases ok with
  | true =>
    refine ⟨_, steps_one rfl (afterTransfer_ok (s := released) hcap), history, rfl, ⟨rfl, rfl⟩, ?_, rfl, rfl, rfl, rfl, rfl⟩
    rw [show released.ses.wb.readList 0 released.ses.readLen.toNat = data from hread rfl]
    exact ⟨rfl, rfl, rfl, (List.append_nil _).symm⟩
  | false =>
    exact ⟨_, steps_one rfl (afterTransfer_fail released), history, rfl, ⟨rfl, rfl⟩, ⟨rfl, rfl, rfl, rfl⟩, rfl, rfl, rfl, rfl, rfl⟩

end

/-! The transfer, and the frame -/

/-- A transfer runs through its phases to its release (R155, R156). -/
theorem transfer_turns {s : State} {d x data : List Byte} {okW okR : Bool} {ts : List Turn} (he : s.eng = .run .csAssert)
    (hts : s.turns = transferTurns s.ses.writeLen.toNat s.ses.readLen.toNat okW okR x data ++ ts)
    (hw : s.ses.writeLen.toNat ≤ s.cfg.wCap) (hr : s.ses.readLen.toNat ≤ s.cfg.wCap)
    (hd : s.ses.wb.readList 0 s.ses.writeLen.toNat = d) (hdata : data.length = s.ses.readLen.toNat) :
    ∃ t, steps (transferTurns s.ses.writeLen.toNat s.ses.readLen.toNat okW okR x data).length s = .next t ∧
      TransferDone s t (transferOk s.ses.writeLen.toNat s.ses.readLen.toNat okW okR)
        (transferEvents d s.ses.readLen.toNat okW s.cfg.spiFill) data ts := by
  subst hd
  simp only [transferTurns, List.append_assoc] at hts
  obtain ⟨wb, read, held⟩ := read_turns (ts := .eng :: ts) hr hdata s.ses.writeLen.toNat
    ([.csAssert] ++ if 0 < s.ses.writeLen.toNat then [.write (s.ses.wb.readList 0 s.ses.writeLen.toNat)] else []) okW okR
  obtain ⟨t, release, done⟩ := release_turn (ts := ts) hr held
  refine ⟨t, ?_, ?_⟩
  · simp only [transferTurns, List.length_append, List.length_singleton]
    exact steps_trans (steps_trans (steps_trans (assert_turn he hts okW) (write_turns hw _ okW x)) read) release
  · rw [transferEvents, Memory.readList_length]
    exact done

/-- Settles O58: the frame ends in `Execute`, which begins the transfer, which runs to its release. -/
theorem spiopFrameOutcome : Obligations.SpiopFrameOutcome := by
  intro s wl rl d x data rest okW okR ts hd hcap hr hne hdata h
  obtain ⟨v, u, frame, taken, o, executes, rfl, rfl, held⟩ := spiopFrame_executes hd hcap (atFrame_cut h)
  have hd : d.length = u.ses.writeLen.toNat := by simpa [payloadWf] using hd
  rw [Executes, taken.cfg, if_neg hr.not_gt, if_neg hne] at executes
  have begun := taken.quiet o executes.sent executes.errors
  have hcfg := begun.cfg
  obtain ⟨t, transfer, done⟩ := transfer_turns executes.eng begun.turns (by rw [hcfg]; omega) (by rwa [hcfg])
    (hd ▸ held) hdata
  obtain ⟨history, spi, ⟨hwl, hrl⟩, answers, phase, byteCnt, fifo, htaken, turns⟩ := done
  rw [hcfg, begun.history, begun.spi] at history
  rw [begun.spi] at spi
  rw [hcfg] at answers
  exact ⟨t, steps_trans frame transfer, history, spi, hwl, hrl,
    ⟨answers.eng, answers.out, by rw [answers.sent, begun.sent], by rw [answers.errors, begun.errors]⟩, phase, byteCnt,
    by rw [fifo, begun.rxq], htaken.trans begun.taken, turns⟩

end Sys2Proof.Machine
end

section
/-! The SPI master inside `transfer` (R153–R163): what each of its steps puts on the bus, that the SPI history is whole transactions with one
open exactly inside a transfer (R157), and that nothing else reaches the bus (R162). -/

namespace Sys2Proof.Machine

/-! The bus, event by event -/

/-- One more event on record goes on from where the history stood (R155). -/
theorem busRun_append (h : List SpiRecord) (r : SpiRecord) :
    busRun (h ++ [r]) = (busRun h).bind fun p => busStep p r.event := by
  simp [busRun, List.foldl_append]

/-- What an event can do to the bus: leave it alone, the engine's place standing for the same point of a transaction; or, inside a transfer,
add one event that R155 allows at the point where the engine stands. -/
inductive BusMove (s t : State) : Prop where
  | quiet (history : t.obs.spi = s.obs.spi) (place : ∀ p, busPlace s.eng p → busPlace t.eng p)
  | event (ev : SpiEvent) (history : t.obs.spi = s.obs.spi ++ [⟨ev, s.spi.freq, s.cfg.spiMode⟩]) (ready : transferReady s)
      (place : ∀ p, busPlace s.eng p → ∃ q, busStep p ev = some q ∧ busPlace t.eng q)

/-- A move on the bus goes on from the point where the history stood. -/
theorem BusMove.keeps_law {s t : State} (law : s.BusLaw) (m : BusMove s t) : t.BusLaw := by
  obtain ⟨p, run, here⟩ := law
  cases m with
  | quiet history place => exact ⟨p, by rw [history, run], place p here⟩
  | event ev history _ place =>
    obtain ⟨q, moved, there⟩ := place p here
    exact ⟨q, by rw [history, busRun_append, run]; exact moved, there⟩

/-! Off the bus -/

/-- Where one executed byte leaves the engine, no transaction is open. -/
theorem ByteDone.busPlace_released {s t : State} (d : ByteDone s t) : busPlace t.eng .released := by
  cases d.ending with
  | quiet eng _ _ _ => rcases eng with e | e <;> rw [e] <;> rfl
  | answer eng _ _ _ => rw [eng]; rfl
  | error _ _ eng _ _ _ => rw [eng]; rfl

/-- A byte reaches no bus: it can at most set the engine before a transfer (R113, R143). -/
theorem byte_offBus {s t : State} {i : Instr} (h : exec i (timeoutCheck s) = .next t) :
    t.obs.spi = s.obs.spi ∧ busPlace t.eng .released := by
  refine ⟨(exec_done h).history.trans ?_, (exec_done h).busPlace_released⟩
  rcases timeoutCheck_cases s with ⟨_, _, e⟩ | ⟨_, e⟩ <;> rw [e]

/-- The interrupt agents and the clock neither reach the bus nor move the engine (R109, R178). -/
theorem fire_offBus {s t : State} {turn : Turn} (hr : ∀ u, turn ≠ .reset u) (he : turn ≠ .eng)
    (hd : ∀ ok data, turn ≠ .spiDev ok data) (h : fire turn s = .next t) : t.obs.spi = s.obs.spi ∧ t.eng = s.eng := by
  cases turn with
  | hostRx bs =>
    obtain ⟨_, _, _, eng, _, _, _, history, _⟩ := rxReady_outside bs s
    exact next_inj h ▸ ⟨history, eng⟩
  | rxa =>
    obtain ⟨_, _, _, eng, _, _, _, history, _⟩ := rxDrainStep_outside s
    exact next_inj h ▸ ⟨history, eng⟩
  | hostTx =>
    obtain ⟨_, _, _, eng, _, _, obs, _⟩ := txClaim_outside s
    exact next_inj h ▸ ⟨by rw [obs], eng⟩
  | txa k =>
    obtain ⟨_, _, _, eng, _, _, obs, _⟩ := txCommit_outside h
    exact ⟨by rw [obs], eng⟩
  | clk v =>
    rw [← next_inj h]
    rcases clockStep_cases v s with e | ⟨_, e⟩ <;> rw [e] <;> exact ⟨rfl, rfl⟩
  | spiDev ok data => exact absurd rfl (hd ok data)
  | eng => exact absurd rfl he
  | reset u => exact absurd rfl (hr u)

/-! On the bus -/

/-- After the assert the engine stands before a phase: `Execute` lets no transfer through with both lengths zero (R156). -/
theorem transferReady.busPlace_asserted {s : State} (h : transferReady s) :
    busPlace (if 0 < s.ses.writeLen.toNat then .run .spiWrite
      else if 0 < s.ses.readLen.toNat then .run .spiRead else .run (.csRelease true)) .asserted := by
  obtain ⟨_, _, _, _, hne⟩ := h
  split_ifs with hw hrd
  · rfl
  · exact .inl rfl
  · exact absurd ⟨by omega, by omega⟩ hne

/-- After the write the engine stands before the read or the release, and either may follow a write (R155, R156). -/
theorem busPlace_wrote (c : Prop) [Decidable c] (ok : Bool) :
    busPlace (if c then .run .spiRead else .run (.csRelease ok)) .wrote := by
  split_ifs
  · exact .inr rfl
  · exact .inl rfl

/-- The release closes the transaction after a write or a read, whatever the result, and the engine goes on to `Send` (R155). -/
theorem BusMove.release {s t : State} {ok : Bool} (inv : s.Inv) (he : s.eng = .run (.csRelease ok))
    (history : t.obs.spi = s.obs.spi ++ [⟨.csRelease, s.spi.freq, s.cfg.spiMode⟩]) (eng : t.eng = .send .put) : BusMove s t := by
  obtain ⟨_, _, ready⟩ := (engineInv_csRelease he).1 inv.engine
  refine .event .csRelease history ready ?_
  rw [he, eng]
  rintro _ (rfl | rfl) <;> exact ⟨_, rfl, rfl⟩

/-- The engine's own steps on the bus are the assert and the release (R155). -/
theorem engineStep_bus {s t : State} (inv : s.Inv) (h : engineStep s = .next t) : BusMove s t := by
  cases engineStep_next h with
  | idle _ e => exact e ▸ .quiet rfl fun _ here => here
  | pop c rest i he _ _ hx =>
    obtain ⟨history, released⟩ := byte_offBus hx
    exact .quiet history (by rw [he]; rintro _ rfl; exact released)
  | byte c i he => exact absurd inv.engine (not_engineInv_onByte he)
  | csAssert he e =>
    obtain ⟨_, _, ready⟩ := (engineInv_csAssert he).1 inv.engine
    subst e
    exact .event .csAssert rfl ready (by rw [he]; rintro _ rfl; exact ⟨_, rfl, ready.busPlace_asserted⟩)
  | released he _ e => subst e; exact .release inv he rfl rfl
  | failed he e => subst e; exact .release inv he rfl rfl
  | put he e => subst e; exact .quiet rfl (by rw [he]; exact fun _ here => here)
  | enable he e =>
    subst e
    refine .quiet rfl ?_
    rw [he]
    rintro _ rfl
    change busPlace (if s.engOut = [] then .wait else .send .wait) .released
    split_ifs <;> rfl
  | retry he e => subst e; exact .quiet rfl (by rw [he]; exact fun _ here => here)

/-- SPI_DEV's answers put the phases on record: a write right after the assert, a read after the assert or the write (R155). -/
theorem spiAnswer_bus {s t : State} {ok : Bool} {data : List Byte} (inv : s.Inv) (h : spiAnswer ok data s = .next t) :
    BusMove s t := by
  rcases spiAnswer_next h with rfl | ⟨he, _, rfl⟩ | ⟨he, _, _, rfl⟩
  · exact .quiet rfl fun _ here => here
  · obtain ⟨_, _, ready, _⟩ := (engineInv_spiWrite he).1 inv.engine
    exact .event (.write _) rfl ready (by rw [he]; rintro _ rfl; exact ⟨_, rfl, busPlace_wrote _ ok⟩)
  · obtain ⟨_, _, ready, _⟩ := (engineInv_spiRead he).1 inv.engine
    exact .event (.read _ _) rfl ready (by rw [he]; rintro _ (rfl | rfl) <;> exact ⟨_, rfl, .inr rfl⟩)

/-- Every event but a reset, from a state that meets the invariant. -/
theorem fire_bus {s t : State} {turn : Turn} (inv : s.Inv) (hr : ∀ u, turn ≠ .reset u) (h : fire turn s = .next t) :
    BusMove s t := by
  by_cases he : turn = .eng
  · subst he; exact engineStep_bus inv h
  · by_cases hd : ∃ ok data, turn = .spiDev ok data
    · obtain ⟨ok, data, rfl⟩ := hd; exact spiAnswer_bus inv h
    · simp only [not_exists] at hd
      obtain ⟨history, eng⟩ := fire_offBus hr he hd h
      exact .quiet history (by rw [eng]; exact fun _ here => here)

/-! Whole transactions -/

theorem powerOn_busLaw (cfg : Config) (u : PowerOn) (clk : U64) (turns : List Turn) (drawn : Nat) :
    (State.powerOn cfg u clk turns drawn).BusLaw := ⟨.released, rfl, rfl⟩

theorem fire_busLaw {s t : State} {turn : Turn} (inv : s.Inv) (law : s.BusLaw) (h : fire turn s = .next t) : t.BusLaw := by
  by_cases hr : ∃ u, turn = .reset u
  · obtain ⟨u, rfl⟩ := hr
    exact next_inj h ▸ powerOn_busLaw s.cfg u s.clk s.turns s.drawn
  · exact (fire_bus inv (not_exists.1 hr) h).keeps_law law

/-- BusLaw and the invariant do not speak of the schedule, so a step keeps the law as its event does. -/
theorem step_busLaw {s t : State} (inv : s.Inv) (law : s.BusLaw) (h : step s = .next t) : t.BusLaw := by
  obtain ⟨turn, ts, n, hfire⟩ := step_next_fire h
  exact fire_busLaw (inv.setSchedule ts n) law hfire

theorem reachable_busLaw {s : State} (h : Reachable s) : s.BusLaw := by
  induction h with
  | powerOn _ u clk turns drawn => exact powerOn_busLaw _ u clk turns drawn
  | step hs e ih => exact step_busLaw (reachable_inv hs) ih e

/-- Settles O18: power-on has an empty history and the engine in WAIT, and every event that is no reset is a move R155 allows. -/
theorem chipSelectHoldLaw : Obligations.ChipSelectHoldLaw := ⟨fun _ _ => step_busLaw, fun _ => reachable_busLaw⟩

/-- Settles O55: a move on the bus comes from the engine or SPI_DEV, with a transfer that `Execute` let through. -/
theorem spiEventsOnlyInsideSpiop : Obligations.SpiEventsOnlyInsideSpiop := by
  intro s t turn inv hr h
  by_cases hturn : turn = .eng ∨ ∃ ok data, turn = .spiDev ok data
  · cases fire_bus inv hr h with
    | quiet history _ => exact .inl history
    | event ev history ready _ =>
      obtain ⟨phase, active, _⟩ := ready
      exact .inr ⟨ev, history, phase, active, hturn⟩
  · simp only [not_or, not_exists] at hturn
    obtain ⟨he, hd⟩ := hturn
    exact .inl (fire_offBus hr he hd h).1

/-! The steps of a transfer, as equations -/

/-- Byte `j` of a block read is the byte at its index (R59). -/
theorem Memory.readList_getElem? (m : Memory) {i n j : Nat} (h : j < n) :
    (m.readList i n)[j]? = some (m.read (i + j)) := by
  induction n generalizing i j with
  | zero => exact absurd h (Nat.not_lt_zero j)
  | succ n ih =>
    cases j with
    | zero => rfl
    | succ j => rw [Memory.readList, List.getElem?_cons_succ, ih (by omega), Nat.add_right_comm, Nat.add_assoc]

/-- `WB[0..n)`, byte by byte. -/
theorem Memory.readList_zero_getElem? (m : Memory) {n j : Nat} (h : j < (m.readList 0 n).length) :
    (m.readList 0 n)[j]? = some (m.read j) := by
  rw [Memory.readList_length] at h
  rw [Memory.readList_getElem? m h, Nat.zero_add]

/-- The engine's turn at the assert (R155). -/
theorem fire_eng_csAssert {s : State} (he : s.eng = .run .csAssert) : fire .eng s = .next (csAssertStep s) := by
  rw [fire, engineStep, he]

/-- SPI_DEV's answer to the write (R154). -/
theorem fire_spiDev_write {s : State} (he : s.eng = .run .spiWrite) (ok : Bool) (x : List Byte) :
    fire (.spiDev ok x) s = spiWriteStep ok s := by
  rw [fire, spiAnswer, he]

/-- SPI_DEV's answer to the read (R154). -/
theorem fire_spiDev_read {s : State} (he : s.eng = .run .spiRead) (ok : Bool) (data : List Byte) :
    fire (.spiDev ok data) s = spiReadStep ok data s := by
  rw [fire, spiAnswer, he]

/-- The engine's turn at the release (R155). -/
theorem fire_eng_csRelease {s : State} {ok : Bool} (he : s.eng = .run (.csRelease ok)) : fire .eng s = csReleaseStep ok s := by
  rw [fire, engineStep, he]

/-- Settles O52: the assert, the answer to the write and the answer to the read. -/
theorem transferSteps : Obligations.TransferSteps := by
  refine fun s => ⟨fun he => ?_, fun ok x he hw => ?_, fun ok data he hr hd => ?_⟩
  · rw [fire_eng_csAssert he, csAssertStep_eq]
    rfl
  · refine ⟨s.ses.wb.readList 0 s.ses.writeLen.toNat, Memory.readList_length _ _ _,
      fun j hj => Memory.readList_zero_getElem? _ hj, ?_⟩
    rw [fire_spiDev_write he, spiWriteStep_eq hw]
    rfl
  · exact ⟨_, (fire_spiDev_read he ok data).trans (spiReadStep_eq hd hr), stored_writeList rfl, by rw [hd]; rfl⟩

/-- Settles O53: the release, with a good result and with a bad one. -/
theorem releaseEndsTransfer : Obligations.ReleaseEndsTransfer := by
  intro s ok he hcap
  let released := spiEvent .csRelease (setCs false s)
  have fired : fire .eng s = afterTransfer ok released := fire_eng_csRelease he
  cases ok with
  | true =>
    exact ⟨_, fired.trans (afterTransfer_ok hcap), rfl, rfl, ⟨rfl, rfl⟩, rfl, rfl, rfl, rfl, rfl, rfl,
      fun _ => ⟨s.ses.wb.readList 0 s.ses.readLen.toNat, Memory.readList_length _ _ _,
        fun j hj => Memory.readList_zero_getElem? _ hj, rfl, rfl, rfl, (List.append_nil _).symm⟩, nofun⟩
  | false =>
    exact ⟨_, fired.trans (afterTransfer_fail released), rfl, rfl, ⟨rfl, rfl⟩, rfl, rfl, rfl, rfl, rfl, rfl, nofun,
      fun _ => ⟨rfl, rfl, rfl, rfl⟩⟩

end Sys2Proof.Machine
end

section
/-! The errors (R164–R173): none of them stops the block, and one engine step raises at most a timeout and then one error that answers
`[NAK]`. -/

namespace Sys2Proof.Machine

/-- Settles O13: every event answers from a state that meets the invariant. -/
theorem blockNeverStops : Obligations.BlockNeverStops := fun _ turn inv => (fire_leads inv turn).imp fun _ => And.left

/-- No error before the byte, or the idle timeout, which is taken in AwaitData only (R114, R169). -/
def TimeoutAtMost (s : State) (before : List ErrorClass) : Prop :=
  before = [] ∨ (before = [.idleTimeout] ∧ s.ses.phase = .awaitData)

/-- No error by the byte, or one of the classes that answer `[NAK]`, with that answer handed to `Send` (R166–R168). -/
def NakAtMost (s t : State) (after : List ErrorClass) : Prop :=
  after = [] ∨ ((after = [.overflowGuard] ∨ after = [.protocolViolation] ∨ after = [.busFailure]) ∧
    t.engOut = [s.cfg.nak] ∧ t.eng = .send .put)

/-- From `s` to `t` a timeout was raised at most, and then one error that answers. -/
def OneErrorAtMost (s t : State) : Prop :=
  ∃ before after, t.obs.errors = s.obs.errors ++ before ++ after ∧ TimeoutAtMost s before ∧ NakAtMost s t after

theorem OneErrorAtMost.of_kept {s t : State} (h : t.obs.errors = s.obs.errors) : OneErrorAtMost s t :=
  ⟨[], [], by simp [h], .inl rfl, .inl rfl⟩

theorem timeoutCheck_errors (s : State) : ∃ before, (timeoutCheck s).obs.errors = s.obs.errors ++ before ∧ TimeoutAtMost s before := by
  rcases timeoutCheck_cases s with ⟨phase, _, e⟩ | ⟨_, e⟩ <;> rw [e]
  · exact ⟨[.idleTimeout], rfl, .inr ⟨rfl, phase⟩⟩
  · exact ⟨[], (List.append_nil _).symm, .inl rfl⟩

/-- A byte's ending says which errors it raised: none, or the one its answer tells of. -/
theorem ByteDone.errors {s t : State} (d : ByteDone s t) : ∃ after, t.obs.errors = s.obs.errors ++ after ∧ NakAtMost s t after := by
  cases d.ending with
  | quiet _ _ _ errors => exact ⟨[], by simp [errors], .inl rfl⟩
  | answer _ _ _ errors => exact ⟨[], by simp [errors], .inl rfl⟩
  | error e which eng out _ errors => exact ⟨[e], errors, .inr ⟨by simpa using which, out, eng⟩⟩

/-- The check raises the timeout alone, and the executed byte one error that answers (R113, R173). -/
theorem byte_oneErrorAtMost {i : Instr} {s t : State} (h : exec i (timeoutCheck s) = .next t) : OneErrorAtMost s t := by
  obtain ⟨before, checked, timeout⟩ := timeoutCheck_errors s
  obtain ⟨after, executed, nak⟩ := (exec_done h).errors
  exact ⟨before, after, by rw [executed, checked], timeout, by rwa [NakAtMost, timeoutCheck_cfg] at nak⟩

/-- Settles O36: a byte raises what its check and its ending say, a failed release a BusFailure, and the other steps nothing. -/
theorem oneErrorPerByte : Obligations.OneErrorPerByte := by
  intro s t h
  change OneErrorAtMost s t
  cases engineStep_next h with
  | pop c rest i _ _ _ hx =>
    have raised : OneErrorAtMost (popped c rest s) t := byte_oneErrorAtMost hx
    exact raised
  | byte c i _ _ hx => exact byte_oneErrorAtMost hx
  | failed _ e => subst e; exact ⟨[], [.busFailure], by simp [raise_busFailure], .inl rfl, .inr ⟨.inr (.inr rfl), rfl, rfl⟩⟩
  | idle _ e => subst e; exact .of_kept rfl
  | csAssert _ e => subst e; exact .of_kept rfl
  | released _ _ e => subst e; exact .of_kept rfl
  | put _ e => subst e; exact .of_kept rfl
  | enable _ e => subst e; exact .of_kept rfl
  | retry _ e => subst e; exact .of_kept rfl

end Sys2Proof.Machine
end

section
/-! The clock (R181): CLK alone moves it, and only forward. -/

namespace Sys2Proof.Machine

/-- A byte is processed at one moment (R113, R181). -/
theorem byte_clk {i : Instr} {s t : State} (h : exec i (timeoutCheck s) = .next t) : t.clk = s.clk := by
  refine (exec_done h).clk.trans ?_
  rcases timeoutCheck_cases s with ⟨_, _, e⟩ | ⟨_, e⟩ <;> rw [e]

theorem engineStep_clk {s t : State} (h : engineStep s = .next t) : t.clk = s.clk := by
  cases engineStep_next h with
  | pop c rest i _ _ _ hx => exact (byte_clk hx).trans rfl
  | byte c i _ _ hx => exact byte_clk hx
  | idle _ e => subst e; rfl
  | csAssert _ e => subst e; rfl
  | released _ _ e => subst e; rfl
  | failed _ e => subst e; rfl
  | put _ e => subst e; rfl
  | enable _ e => subst e; rfl
  | retry _ e => subst e; rfl

/-- Every event but CLK's leaves the clock alone, a power-on reset too (log entry 21). -/
theorem fire_clk {s t : State} {turn : Turn} (hc : ∀ v, turn ≠ .clk v) (h : fire turn s = .next t) : t.clk = s.clk := by
  cases turn with
  | hostRx bs =>
    obtain ⟨_, _, _, _, _, clk, _⟩ := rxReady_outside bs s
    exact next_inj h ▸ clk
  | rxa =>
    obtain ⟨_, _, _, _, _, clk, _⟩ := rxDrainStep_outside s
    exact next_inj h ▸ clk
  | hostTx =>
    obtain ⟨_, _, _, _, _, clk, _⟩ := txClaim_outside s
    exact next_inj h ▸ clk
  | txa k =>
    obtain ⟨_, _, _, _, _, clk, _⟩ := txCommit_outside h
    exact clk
  | spiDev ok data => rcases spiAnswer_next h with rfl | ⟨_, _, rfl⟩ | ⟨_, _, _, rfl⟩ <;> rfl
  | clk v => exact absurd rfl (hc v)
  | eng => exact engineStep_clk h
  | reset u => exact next_inj h ▸ rfl

/-- CLK's event sets the clock forward or is no event, and the others leave it alone. -/
theorem fire_clk_le {s t : State} {turn : Turn} (h : fire turn s = .next t) : s.clk.toNat ≤ t.clk.toNat := by
  by_cases hc : ∃ v, turn = .clk v
  · obtain ⟨v, rfl⟩ := hc
    rw [← next_inj h]
    rcases clockStep_cases v s with e | ⟨later, e⟩ <;> rw [e]
    exact later
  · rw [fire_clk (not_exists.1 hc) h]

/-- Settles O32: a step is some event, and CLK's event is `clockStep`, on either side of its boundary. -/
theorem clockNeverGoesBack : Obligations.ClockNeverGoesBack := by
  refine ⟨fun s t h => ?_, fun s v => ⟨fun later => ?_, fun past => ?_⟩, fun _ _ _ => fire_clk⟩
  · obtain ⟨turn, ts, n, hfire⟩ := step_next_fire h
    exact fire_clk_le (s := { s with turns := ts, drawn := n }) hfire
  · rw [fire, clockStep, if_pos later]
  · rw [fire, clockStep, if_neg past.not_ge]

end Sys2Proof.Machine
end

section
/-! The hang under back-pressure (R193): with the ring full, `Send` goes round its loop and hands over nothing, and of the other events only
a commit that accepts bytes could make room. -/

namespace Sys2Proof.Machine

/-- SPI_DEV's answer is no event where no SPI phase runs (R154). -/
theorem spiAnswer_off {s : State} (hw : s.eng ≠ .run .spiWrite) (hr : s.eng ≠ .run .spiRead) (ok : Bool) (data : List Byte) :
    spiAnswer ok data s = .next s := by
  unfold spiAnswer
  split
  · exact absurd ‹_› hw
  · exact absurd ‹_› hr
  all_goals rfl

/-- A full ring takes no byte (R100). -/
theorem putCount_full {s : State} (h : s.fifo.txCount = s.cfg.cTx) : putCount s = 0 := by simp [putCount, h]

/-- What an event leaves of the hang (R193): the engine in `SEND` with the same bytes pending, the ring full, no byte taken and none sent,
and the session as it was. -/
def HangKept (s t : State) : Prop :=
  (∃ pos, t.eng = .send pos) ∧ t.engOut = s.engOut ∧ t.fifo.txCount = t.cfg.cTx ∧ t.obs.taken = s.obs.taken ∧
    t.obs.wire = s.obs.wire ∧ t.ses = s.ses

section
variable {s t : State} {pos : SendPos} (he : s.eng = .send pos) (full : s.fifo.txCount = s.cfg.cTx)
include he full

/-- The hang is kept by what touches neither the engine's registers, nor the ring's count, nor the parser, nor takes or sends a byte. -/
theorem hangKept_of_frame (eng : t.eng = s.eng) (out : t.engOut = s.engOut) (cfg : t.cfg = s.cfg)
    (count : t.fifo.txCount = s.fifo.txCount) (taken : t.obs.taken = s.obs.taken) (wire : t.obs.wire = s.obs.wire)
    (ses : t.ses = s.ses) : HangKept s t :=
  ⟨⟨pos, eng.trans he⟩, out, by rw [count, full, cfg], taken, wire, ses⟩

/-- `Send`'s three steps: the put finds no room, so bytes stay pending and the enable goes on to the wait (R100–R102). -/
theorem fire_eng_hangKept (pending : s.engOut ≠ []) (h : fire .eng s = .next t) : HangKept s t := by
  cases pos with
  | put =>
    obtain rfl := next_inj ((fire_eng_put he).symm.trans h)
    have noRoom := putCount_full full
    have out : (txPut s).engOut = s.engOut := by rw [txPut, noRoom, List.drop_zero]
    have count : (txPut s).fifo.txCount = s.cfg.cTx := by rw [txPut, noRoom, Nat.add_zero, full]
    exact ⟨⟨.ie, rfl⟩, out, count, rfl, rfl, rfl⟩
  | ie =>
    obtain rfl := next_inj ((fire_eng_enable he).symm.trans h)
    exact ⟨⟨.wait, if_neg pending⟩, rfl, full, rfl, rfl, rfl⟩
  | wait =>
    obtain rfl := next_inj ((fire_eng_retry he).symm.trans h)
    exact ⟨⟨.put, rfl⟩, rfl, full, rfl, rfl, rfl⟩

/-- A commit that accepts nothing frees nothing (R104). -/
theorem txCommit_zero_hangKept (h : txCommit 0 s = .next t) : HangKept s t := by
  rcases txCommit_next h with ⟨_, rfl⟩ | ⟨_, _, _, rfl⟩
  · exact hangKept_of_frame he full rfl rfl rfl rfl rfl rfl rfl
  · exact hangKept_of_frame he full rfl rfl rfl rfl rfl (List.append_nil _) rfl

end

/-- Settles O30: the engine goes round `Send`'s loop, the commit accepts nothing, and no other event touches what the hang is made of. -/
theorem backpressureHangIsKept : Obligations.BackpressureHangIsKept := by
  intro s t turn pos he pending full hr hk h
  cases turn with
  | eng => exact fire_eng_hangKept he full pending h
  | txa k =>
    obtain rfl := hk k rfl
    exact txCommit_zero_hangKept he full h
  | hostTx =>
    rw [← next_inj h]
    rcases txClaim_cases s with e | ⟨_, _, _, e⟩ <;> rw [e] <;> exact hangKept_of_frame he full rfl rfl rfl rfl rfl rfl rfl
  | hostRx bs =>
    rw [← next_inj h]
    rcases rxReady_cases bs s with e | ⟨_, e⟩ <;> rw [e] <;> exact hangKept_of_frame he full rfl rfl rfl rfl rfl rfl rfl
  | rxa =>
    rw [← next_inj h]
    rcases rxDrainStep_cases s with ⟨_, e⟩ | ⟨_, _, _, _, e⟩ | ⟨_, _, _, _, e⟩ <;> rw [e] <;>
      exact hangKept_of_frame he full rfl rfl rfl rfl rfl rfl rfl
  | spiDev ok data =>
    obtain rfl := next_inj ((spiAnswer_off (by simp [he]) (by simp [he]) ok data).symm.trans h)
    exact hangKept_of_frame he full rfl rfl rfl rfl rfl rfl rfl
  | clk v =>
    rw [← next_inj h]
    rcases clockStep_cases v s with e | ⟨_, e⟩ <;> rw [e] <;> exact hangKept_of_frame he full rfl rfl rfl rfl rfl rfl rfl
  | reset u => exact absurd rfl (hr u)

end Sys2Proof.Machine
end

section
/-! Quiescence (R204): where no agent has a step, agent by agent in both directions, and how the interrupt on the empty ring leads there
(R98, R103, R106, R107). -/

namespace Sys2Proof.Machine

/-! No step in a quiescent state -/

/-- RXA has no step exactly where it has pushed its whole pass (R93). -/
theorem rxDrainStep_eq_self_iff (s : State) : rxDrainStep s = s ↔ s.fifo.rxPass = [] := by
  constructor
  · intro same
    have tail : s.fifo.rxPass.tail = s.fifo.rxPass := by rw [← rxDrainStep_rxPass, same]
    have length := congrArg List.length tail
    rw [List.length_tail] at length
    exact List.length_eq_zero_iff.1 (by omega)
  · intro done
    rw [rxDrainStep, done]

theorem State.Quiescent.no_step {s : State} (q : s.Quiescent) :
    fire .rxa s = .next s ∧ fire .eng s = .next s ∧ (∀ ok data, fire (.spiDev ok data) s = .next s) ∧
    fire .hostTx s = .next s ∧ ∀ k, fire (.txa k) s = .next s :=
  ⟨congrArg _ ((rxDrainStep_eq_self_iff s).2 q.pass_empty), engineStep_idle q.engine_waits q.rxq_empty,
    spiAnswer_off (by simp [q.engine_waits]) (by simp [q.engine_waits]), congrArg _ (txClaim_off q.interrupt_off),
    txCommit_closed q.no_claim_open⟩

/-! Quiescent where there is no step -/

/-- A write phase is ended by SPI_DEV's answer (R155). -/
theorem spiAnswer_write_moves {s : State} (inv : s.Inv) (he : s.eng = .run .spiWrite) :
    spiAnswer false [] s ≠ .next s := by
  intro same
  obtain ⟨_, _, ready, _⟩ := (engineInv_spiWrite he).1 inv.engine
  have answered : spiAnswer false [] s = spiWriteStep false s := by rw [spiAnswer, he]
  rw [answered, spiWriteStep_eq (ready.writeLen_le inv.byteCnt_le)] at same
  have place := congrArg State.eng (next_inj same)
  simp [he] at place

/-- A read phase is ended by an answer of the length asked for (R154, R155). -/
theorem spiAnswer_read_moves {s : State} (inv : s.Inv) (he : s.eng = .run .spiRead) :
    spiAnswer false (List.replicate s.ses.readLen.toNat 0x00#8) s ≠ .next s := by
  intro same
  obtain ⟨_, _, ready, _⟩ := (engineInv_spiRead he).1 inv.engine
  have answered : ∀ data, spiAnswer false data s = spiReadStep false data s := fun data => by rw [spiAnswer, he]
  rw [answered, spiReadStep_eq (List.length_replicate ..) ready.readLen_le] at same
  have place := congrArg State.eng (next_inj same)
  simp [he] at place

/-- The engine's step leaves a good state as it is only where there is none: nothing received (R98), or an SPI phase runs (R154). Every
other step changes the engine's place, and a pop shortens `RXQ`. -/
theorem engineStep_stuck {s : State} (inv : s.Inv) (h : engineStep s = .next s) :
    (s.eng = .wait ∧ s.fifo.rxq = []) ∨ s.eng = .run .spiWrite ∨ s.eng = .run .spiRead := by
  cases engineStep_next h with
  | idle he _ => exact he
  | pop c rest i _ hq _ hx =>
    have shorter : s.fifo.rxq = rest := by rw [(exec_done hx).fifo, timeoutCheck_fifo, popped]
    exact absurd (hq.symm.trans shorter) (List.cons_ne_self c rest)
  | byte c i he => exact absurd inv.engine (not_engineInv_onByte he)
  | csAssert he e =>
    obtain ⟨released, _⟩ := (engineInv_csAssert he).1 inv.engine
    have asserted : s.spi.cs = true := congrArg (·.spi.cs) e
    cases released.symm.trans asserted
  | released he _ e => cases he.symm.trans (congrArg State.eng e)
  | failed he e => cases he.symm.trans (congrArg State.eng e)
  | put he e => cases he.symm.trans (congrArg State.eng e)
  | enable he e =>
    have place := he.symm.trans (congrArg State.eng e)
    split at place <;> cases place
  | retry he e => cases he.symm.trans (congrArg State.eng e)

/-- Where neither the engine nor SPI_DEV moves a good state, the engine waits and nothing is received. -/
theorem engine_waits_of_no_step {s : State} (inv : s.Inv) (eng : engineStep s = .next s)
    (spi : ∀ ok data, spiAnswer ok data s = .next s) : s.eng = .wait ∧ s.fifo.rxq = [] := by
  rcases engineStep_stuck inv eng with idle | he | he
  · exact idle
  · exact absurd (spi _ _) (spiAnswer_write_moves inv he)
  · exact absurd (spi _ _) (spiAnswer_read_moves inv he)

/-- A claim that is open can be committed (R104), so where no commit is a step none is open. -/
theorem no_claim_open_of_no_step {s : State} (inv : s.Inv) (commit : txCommit 0 s = .next s) : s.fifo.txOpen = false := by
  cases ho : s.fifo.txOpen with
  | false => rfl
  | true =>
    rw [txCommit_eq ho (Nat.zero_le _) inv.rd_lt.le] at commit
    have closed : false = s.fifo.txOpen := congrArg (·.fifo.txOpen) (next_inj commit)
    exact ho.symm.trans closed.symm

/-- With no claim open the interrupt can claim (R103), so where the claim is no step it is off. -/
theorem interrupt_off_of_no_step {s : State} (inv : s.Inv) (ho : s.fifo.txOpen = false) (claim : txClaim s = s) :
    s.fifo.txIe = false := by
  cases hie : s.fifo.txIe with
  | false => rfl
  | true =>
    rw [txClaim_eq hie (inv.claim_closed ho) ho] at claim
    have opened : true = s.fifo.txOpen := congrArg (·.fifo.txOpen) claim
    exact opened.trans ho

theorem quiescent_of_no_step {s : State} (inv : s.Inv) (law : s.NotStranded) (rxa : fire .rxa s = .next s)
    (eng : fire .eng s = .next s) (spi : ∀ ok data, fire (.spiDev ok data) s = .next s) (claim : fire .hostTx s = .next s)
    (commit : ∀ k, fire (.txa k) s = .next s) : s.Quiescent := by
  obtain ⟨waits, received⟩ := engine_waits_of_no_step inv eng spi
  have closed := no_claim_open_of_no_step inv (commit 0)
  have off := interrupt_off_of_no_step inv closed (next_inj claim)
  have empty : s.fifo.txCount = 0 := by
    by_contra left
    have on := law.interrupt_on (by simp [waits]) (Nat.pos_of_ne_zero left)
    cases off.symm.trans on
  exact
    { rxq_empty := received
      engine_waits := waits
      count_zero := empty
      claim_zero := inv.claim_closed closed
      pass_empty := (rxDrainStep_eq_self_iff s).1 (next_inj rxa)
      interrupt_off := off
      no_claim_open := closed }

/-! The interrupt on the empty ring -/

/-- On an empty ring the interrupt at most opens a claim of nothing, and where none is open after it the interrupt is off (R106). -/
theorem State.Settled.txClaim_eq {s : State} (h : s.Settled) :
    ∃ opened, txClaim s = { s with fifo.txOpen := opened } ∧ (opened = true ∨ opened = false ∧ s.fifo.txIe = false) := by
  cases ho : s.fifo.txOpen with
  | true => exact ⟨true, by rw [txClaim, if_neg (by simp [ho]), ← ho], .inl rfl⟩
  | false =>
    cases hie : s.fifo.txIe with
    | true => exact ⟨true, txClaim_empty h.count_zero hie h.claim_zero ho, .inl rfl⟩
    | false => exact ⟨false, by rw [txClaim_off hie, ← ho], .inr ⟨rfl, rfl⟩⟩

/-- A state in which the interrupt and the claim already stand as given is that state with them written again. -/
theorem eq_with_signals {s : State} {ie opened : Bool} (hie : s.fifo.txIe = ie) (ho : s.fifo.txOpen = opened) :
    s = { s with fifo.txIe := ie, fifo.txOpen := opened } := by
  subst hie ho
  rfl

/-- Its commit of nothing leaves the interrupt off and no claim open (R104, R106). -/
theorem State.Settled.txCommit_zero {s : State} (h : s.Settled) (hrd : s.fifo.txRd < s.cfg.cTx)
    (he : s.fifo.txOpen = true ∨ s.fifo.txOpen = false ∧ s.fifo.txIe = false) :
    txCommit 0 s = .next { s with fifo.txIe := false, fifo.txOpen := false } := by
  rcases he with ho | ⟨ho, hie⟩
  · exact txCommit_empty h.count_zero h.claim_zero ho hrd
  · exact (txCommit_closed ho 0).trans (congrArg Host.Outcome.next (eq_with_signals hie ho))

/-- Quiescence does not speak of the schedule, and needs the interrupt off and no claim open beside what R204 lists. -/
theorem State.Settled.quiescent {s : State} (h : s.Settled) (ts : List Turn) :
    ({ s with turns := ts, fifo := { s.fifo with txIe := false, txOpen := false } } : State).Quiescent :=
  { h with interrupt_off := rfl, no_claim_open := rfl }

theorem State.Settled.interrupt_steps {s : State} {ts : List Turn} (h : s.Settled) (hrd : s.fifo.txRd < s.cfg.cTx)
    (hs : s.turns = .hostTx :: .txa 0 :: ts) :
    steps 2 s = .next { s with turns := ts, fifo := { s.fifo with txIe := false, txOpen := false } } := by
  obtain ⟨opened, claimed, place⟩ := State.Settled.txClaim_eq (s := { s with turns := .txa 0 :: ts }) { h with }
  have committed := State.Settled.txCommit_zero (s := { s with turns := ts, fifo.txOpen := opened }) { h with } hrd place
  rw [steps_cons hs (congrArg Host.Outcome.next claimed),
    steps_cons (s := { s with turns := .txa 0 :: ts, fifo.txOpen := opened }) rfl committed, steps]

/-- Settles O31: agent by agent, no step in a quiescent state and quiescence where there is none; and the interrupt's two steps on the empty
ring. -/
theorem quiescentAgentsHaveNoStep : Obligations.QuiescentAgentsHaveNoStep :=
  ⟨fun _ => State.Quiescent.no_step, fun _ => quiescent_of_no_step,
    fun _ ts h hrd hs => ⟨_, h.interrupt_steps hrd hs, h.quiescent ts, rfl⟩⟩

end Sys2Proof.Machine
end

section
/-! Power-on reset (R187, R188): the values it leaves, that they meet the invariant, and that the first byte after it is a command. -/

namespace Sys2Proof.Machine

/-- A store of `n` indices holds what power-on drew for it, and blanks past the draw (log entries 8, 9). -/
theorem Memory.read_image_take (bs : List Byte) {n i : Nat} (h : i < n) :
    Memory.read (Memory.image 0 (bs.take n)) i = bs.getD i Memory.blank := by
  rw [Memory.read_image, List.length_take]
  split
  · simp [List.getD_eq_getElem?_getD, List.getElem?_take_of_lt h]
  · rw [List.getD_eq_default _ _ (by omega)]

/-- Settles O8: the event is `State.powerOn`, and what it draws for the stores reads back. -/
theorem powerOnResetValues : Obligations.PowerOnResetValues := fun u _ =>
  ⟨_, rfl, rfl, rfl, rfl, rfl, rfl, rfl, rfl, rfl, rfl, rfl, rfl, rfl, rfl, rfl, rfl, rfl, rfl, rfl, rfl,
    fun _ => Memory.read_image_take u.wb, fun _ => Memory.read_image_take u.txm⟩

/-- The configuration of State.reset is one that R7 allows, whatever the open parameters are (log entry 6). -/
theorem standard_wf : Config.standard.Wf where
  ack_ne_nak := by decide
  wCap_ge := Nat.le_refl _
  fMax_pos := by
    have nonzero : Config.standard.fMax ≠ 0#32 := by
      unfold Config.standard
      split
      · decide
      · assumption
    exact Nat.pos_of_ne_zero fun h => nonzero (BitVec.eq_of_toNat_eq h)
  cRx_pos := by decide
  cTx_pos := by decide
  codes_nodup := by decide

/-- Settles O10: `powerOn_inv`, for the reset state under the standard configuration; the draw of zeros leads to it. -/
theorem powerOnMeetsInvariant : Obligations.PowerOnMeetsInvariant :=
  ⟨fun _ u clk ts n wf => powerOn_inv wf u clk ts n, powerOn_inv standard_wf _ _ _ _, PowerOn.zeros, rfl⟩

/-- A run of one step is the step, a stop included. -/
theorem steps_one_eq_step (s : State) : steps 1 s = step s := by
  rw [steps]
  cases step s with
  | next t => rfl
  | fault r => rfl
  | refused r => rfl

/-- A byte delivered while no pass runs is pushed by RXA's next turn, if `RXQ` has room (R93, R94). -/
theorem steps_receive_byte {s : State} {b : Byte} {ts : List Turn} (hs : s.turns = .hostRx [b] :: .rxa :: ts)
    (hp : s.fifo.rxPass = []) (room : s.fifo.rxq.length < s.cfg.cRx) : steps 2 s = .next { s with
      turns := ts
      fifo.rxq := s.fifo.rxq ++ [b]
      fifo.rxPass := []
      obs.accepted := s.obs.accepted ++ [b] } := by
  have ready : fire (.hostRx [b]) { s with turns := .rxa :: ts } = .next { s with turns := .rxa :: ts, fifo.rxPass := [b] } :=
    congrArg Host.Outcome.next (if_pos hp)
  have pushed := rxDrainStep_room (s := { s with turns := ts, fifo.rxPass := [b] }) rfl room
  rw [steps_cons hs ready, steps_cons (s := { s with turns := .rxa :: ts, fifo.rxPass := [b] }) rfl
    (congrArg Host.Outcome.next pushed), steps]

/-- In AwaitCommand no timeout is pending (R114), so the engine's turn executes the byte it pops as a command byte (R75, R97). -/
theorem step_command {s : State} {c : Byte} {rest : List Byte} {ts : List Turn} (hs : s.turns = .eng :: ts) (he : s.eng = .wait)
    (hq : s.fifo.rxq = c :: rest) (hp : s.ses.phase = .awaitCommand) :
    step s = exec (decodeCommand s.cfg.codes c) (popped c rest { s with turns := ts }) := by
  have noTimeout : ¬ (s.ses.phase = .awaitData ∧ s.cfg.tData.toNat < s.clk.toNat - s.ses.lastAct.toNat) := by simp [hp]
  obtain ⟨run, _⟩ := stepRunsTheDecodedInstruction s ts c rest hs he hq _ _ rfl (if_neg noTimeout).symm
  exact run _ (congrArg (decode s.cfg.codes · s.ses.activeCmd c) hp)

/-- Settles O11: the byte is received into an empty `RXQ`, and popped in AwaitCommand. -/
theorem firstByteAfterPowerOnIsACommand : Obligations.FirstByteAfterPowerOnIsACommand := by
  intro cfg u clk ts n b wf
  have received := steps_receive_byte (s := State.powerOn cfg u clk (.hostRx [b] :: .rxa :: .eng :: ts) n) rfl rfl wf.cRx_pos
  rw [steps_add 2 1 _ _ received, steps_one_eq_step]
  exact step_command rfl rfl rfl rfl

end Sys2Proof.Machine
end
